-- ==== Sys2Proof/Word.lean ====
section
/-! DEFINITION. The word types of the codec and its two color types (00_scope.md R8, R12). -/

namespace Sys2Proof

/-- A stream byte, a plane byte, one 8-bit color channel, an 8-bit palette index. -/
abbrev Byte := BitVec 8

/-- A host register and a command word: 32 bits (R8). -/
abbrev Word := BitVec 32

/-- A color with four 8-bit channels (R12): a palette entry, a result color. -/
structure Color8 where
  r : Byte
  g : Byte
  b : Byte
  a : Byte
deriving DecidableEq, Repr, Inhabited

/-- A color with four 16-bit channels (R12): a `Pix` item, the operand in ARG_RG and ARG_BA. -/
structure Color16 where
  r : BitVec 16
  g : BitVec 16
  b : BitVec 16
  a : BitVec 16
deriving DecidableEq, Repr, Inhabited

end Sys2Proof
end

