-- ==== Sys2Proof/Config.lean ====
section
/-! DEFINITION. What one instance of the codec fixes for its whole life: DIM_ORDER and PLANE_CAP
(00_scope.md R6, R7; 70_reset_and_hazards.md R252). The spec takes no default for either
(92_eei_decisions.md D4, D5), so neither has a value here. -/

namespace Sys2Proof

/-- The byte order of the width and height fields in the stream (R6, R53). -/
inductive DimOrder where
  | be
  | le
deriving DecidableEq, Repr, Inhabited

/-- The two parameters of an instance.
`planeCap` is the capacity in bytes of the pixel-plane memory; R7 gives it the range
0 to 2^32 - 1, which is the range of a `Word`. -/
structure Config where
  dimOrder : DimOrder
  planeCap : Word
deriving DecidableEq, Repr, Inhabited

/-- The parameters of the instance that `State.reset` is the reset state of.
It is a free value: R6 says "No default is taken" and R7 leaves PLANE_CAP an argument, so nothing
may be proved about it. Statements quantify over states, and so over every `Config`. -/
opaque Config.chosen : Config

end Sys2Proof
end

