-- ==== Sys2Proof/Syntax.lean ====
section
/-! DEFINITION. The instructions: one constructor for every row of spec/opcode_table.json, that is
the eight command words of 30_encoding.md R71 and the four mode-byte rows of R74. -/

namespace Sys2Proof

/-- The codec's instructions.

The first eight are command words written to CMD (R70 to R72). Their fields are `dc` the depth code
[5:4], `ep` the emit-palette bit [6], `ps` the palette-source bit [7], `idx` the palette index [15:8].

The last four are the mode byte at stream offset 7, by its depth code (R73, R74): `pf` is bit [5],
the in-file-palette flag, and `rsv` the reserved bits [4:0], which a decoder keeps (R135). -/
inductive Instr where
  /-- DEC_CFG: decode header and palette (41_header_codec.md R130). -/
  | decCfg
  /-- DEC_FULL: decode header, palette and pixel plane (R131). -/
  | decFull
  /-- ENC: encode an image (44_encoder.md R190). `idx` is the field [15:8], which ENC does not use but
  its row's mask leaves free: it is 0 in a well-formed ENC (R72, R81; log entry 16). -/
  | enc (dc : BitVec 2) (ep ps : Bool) (idx : Byte)
  /-- PIX_RD: decode one pixel (43_pixel_plane.md R173). -/
  | pixRd
  /-- PAL_RD: look an index up in the palette file (40_color_model.md R109). -/
  | palRd (idx : Byte)
  /-- PAL_WR: write one palette-file entry (42_palette_codec.md R159). -/
  | palWr (idx : Byte)
  /-- PAL_DEF: load a built-in palette (R158). -/
  | palDef (dc : BitVec 2)
  /-- QUANT: quantize a color (40_color_model.md R108). -/
  | quant (dc : BitVec 2)
  /-- MODE_D1: the mode byte with depth code 00, 1-bit (R74). -/
  | modeD1 (pf : Bool) (rsv : BitVec 5)
  /-- MODE_D2: the mode byte with depth code 01, 2-bit (R74). -/
  | modeD2 (pf : Bool) (rsv : BitVec 5)
  /-- MODE_D8: the mode byte with depth code 10, 8-bit (R74). -/
  | modeD8 (pf : Bool) (rsv : BitVec 5)
  /-- MODE_BAD: the mode byte with depth code 11, no bit-depth (R74, R150). -/
  | modeBad (pf : Bool) (rsv : BitVec 5)
deriving DecidableEq, Repr

end Sys2Proof
end

