-- ==== Sys2Proof/WellFormed.lean ====
section
/-! DEFINITION. Which terms are well-formed.

An `Instr` has operands of exactly the widths of its encoding fields, so its type leaves one thing to
check: the field IDX of ENC, which ENC does not use (30_encoding.md R72, R81). What else can be
ill-formed is what a host program writes: a `CMD` line of the assembler syntax, whose operands are
plain numbers (R72, R83), and a register access, whose offset and size are plain numbers
(10_state.md R39). -/

namespace Sys2Proof

/-- An `Instr` is well-formed when every field its opcode does not use is 0 (R72, R81). Only ENC's term
has such a field, because only the mask of its row leaves one free (log entry 16). -/
def Instr.wellFormed : Instr → Bool
  | .decCfg => true
  | .decFull => true
  | .enc _ _ _ idx => idx == 0
  | .pixRd => true
  | .palRd _ => true
  | .palWr _ => true
  | .palDef _ => true
  | .quant _ => true
  | .modeD1 _ _ => true
  | .modeD2 _ _ => true
  | .modeD8 _ _ => true
  | .modeBad _ _ => true

/-- The eight command mnemonics of R71. -/
inductive Mnemonic where
  | DEC_CFG | DEC_FULL | ENC | PIX_RD | PAL_RD | PAL_WR | PAL_DEF | QUANT
deriving DecidableEq, Repr

/-- A line `CMD <mnemonic> [dc=<0..3>] [ep=<0|1>] [ps=<0|1>] [idx=<0..255>]` of the host-program
syntax (R83); an absent field is 0. -/
structure AsmCommand where
  mnemonic : Mnemonic
  dc : Nat := 0
  ep : Nat := 0
  ps : Nat := 0
  idx : Nat := 0
deriving DecidableEq, Repr

/-- R83: each operand is in the range its field has. -/
def AsmCommand.inRange (c : AsmCommand) : Bool :=
  c.dc ≤ 3 && c.ep ≤ 1 && c.ps ≤ 1 && c.idx ≤ 255

/-- R70, "used by", and R72: a field the opcode does not use is 0. -/
def AsmCommand.unusedZero (c : AsmCommand) : Bool :=
  match c.mnemonic with
  | .DEC_CFG | .DEC_FULL | .PIX_RD => c.dc = 0 && c.ep = 0 && c.ps = 0 && c.idx = 0
  | .ENC => c.idx = 0
  | .PAL_RD | .PAL_WR => c.dc = 0 && c.ep = 0 && c.ps = 0
  | .PAL_DEF | .QUANT => c.ep = 0 && c.ps = 0 && c.idx = 0

/-- A well-formed `CMD` line: its word is a legal command (R72). -/
def AsmCommand.wellFormed (c : AsmCommand) : Bool := c.inRange && c.unusedZero

/-- The instruction a `CMD` line stands for. -/
def AsmCommand.instr (c : AsmCommand) : Instr :=
  match c.mnemonic with
  | .DEC_CFG => .decCfg
  | .DEC_FULL => .decFull
  | .ENC => .enc (BitVec.ofNat 2 c.dc) (c.ep == 1) (c.ps == 1) (BitVec.ofNat 8 c.idx)
  | .PIX_RD => .pixRd
  | .PAL_RD => .palRd (BitVec.ofNat 8 c.idx)
  | .PAL_WR => .palWr (BitVec.ofNat 8 c.idx)
  | .PAL_DEF => .palDef (BitVec.ofNat 2 c.dc)
  | .QUANT => .quant (BitVec.ofNat 2 c.dc)

/-- R39, R57: a host register access is one whole 32-bit word (size 4 bytes) at an offset that is a
multiple of 4 and below 0x100. -/
def hostAccessOk (off size : Nat) : Bool :=
  size == 4 && off % 4 == 0 && decide (off < 0x100)

end Sys2Proof
end

