-- ==== Sys2Proof/Decode.lean ====
section
/-! DEFINITION. Decoding and encoding of command words (30_encoding.md R70 to R72) and mode bytes
(R73, R74). A word that is no legal command (R72) is rejected by name. -/

namespace Sys2Proof

/-- What the codec decodes: a 32-bit word written to CMD, or the byte at stream offset 7.
Neither has a byte order: R56, "no register is ever read as bytes", and the mode byte is one byte. -/
inductive CodeUnit where
  | command (w : Word)
  | modeByte (b : Byte)
deriving DecidableEq, Repr

/-- Why a code unit is rejected. -/
inductive DecodeError where
  /-- R72: the word is no legal command; when accepted it raises IllegalCommand. -/
  | illegalCommand (w : Word)
deriving DecidableEq, Repr

/-- A row of the command table of R72: mnemonic, match, mask; and, from the "used by" column of R70,
the reserved bits and the fields the opcode does not use. -/
structure CommandRow where
  mnemonic : String
  pattern : Word
  mask : Word
  unused : Word
deriving DecidableEq, Repr

/-- The command table: match and mask exactly as R72 gives them, and the unused fields by R70. -/
def commandRows : List CommandRow := [
  ⟨"DEC_CFG", 0x00000001, 0xFFFFFFFF, 0xFFFFFFF0⟩,
  ⟨"DEC_FULL", 0x00000002, 0xFFFFFFFF, 0xFFFFFFF0⟩,
  ⟨"ENC", 0x00000003, 0xFFFF000F, 0xFFFFFF00⟩,
  ⟨"PIX_RD", 0x00000004, 0xFFFFFFFF, 0xFFFFFFF0⟩,
  ⟨"PAL_RD", 0x00000005, 0xFFFF00FF, 0xFFFF00F0⟩,
  ⟨"PAL_WR", 0x00000006, 0xFFFF00FF, 0xFFFF00F0⟩,
  ⟨"PAL_DEF", 0x00000007, 0xFFFFFFCF, 0xFFFFFFC0⟩,
  ⟨"QUANT", 0x00000008, 0xFFFFFFCF, 0xFFFFFFC0⟩]

/-- R72: a word selects a row when `(w & mask) = match`. -/
def CommandRow.selects (row : CommandRow) (w : Word) : Bool := w &&& row.mask == row.pattern

/-- R72, R81: the reserved bits and every field the opcode does not use are 0. -/
def CommandRow.unusedZero (row : CommandRow) (w : Word) : Bool := w &&& row.unused == 0

/-- A word is a legal command of a row: the row selects it and its unused fields are 0. The second
condition adds something only for ENC, whose mask leaves IDX [15:8] free (log entry 16). -/
def CommandRow.accepts (row : CommandRow) (w : Word) : Bool := row.selects w && row.unusedZero w

/-- The DC field of a command word, bits [5:4] (R70). -/
def fieldDC (w : Word) : BitVec 2 := w.extractLsb' 4 2
/-- The EP field, bit [6] (R70). -/
def fieldEP (w : Word) : Bool := w.getLsbD 6
/-- The PS field, bit [7] (R70). -/
def fieldPS (w : Word) : Bool := w.getLsbD 7
/-- The IDX field, bits [15:8] (R70). -/
def fieldIDX (w : Word) : Byte := w.extractLsb' 8 8

/-- The instruction a command word selects (R71, R72), if it is legal. ENC asks beside its mask
0xFFFF000F that the field it does not use, IDX [15:8], is 0 (R72, R81, U8; log entry 16). -/
def decodeCommand (w : Word) : Option Instr :=
  if w &&& 0xFFFFFFFF = 0x00000001 then some .decCfg
  else if w &&& 0xFFFFFFFF = 0x00000002 then some .decFull
  else if w &&& 0xFFFFFF0F = 0x00000003 then some (.enc (fieldDC w) (fieldEP w) (fieldPS w) (fieldIDX w))
  else if w &&& 0xFFFFFFFF = 0x00000004 then some .pixRd
  else if w &&& 0xFFFF00FF = 0x00000005 then some (.palRd (fieldIDX w))
  else if w &&& 0xFFFF00FF = 0x00000006 then some (.palWr (fieldIDX w))
  else if w &&& 0xFFFFFFCF = 0x00000007 then some (.palDef (fieldDC w))
  else if w &&& 0xFFFFFFCF = 0x00000008 then some (.quant (fieldDC w))
  else none

/-- The depth code of a mode byte, bits [7:6] (R73, R136). -/
def modeDC (b : Byte) : BitVec 2 := b.extractLsb' 6 2
/-- The in-file-palette flag of a mode byte, bit [5], mask 0x20 (R73, R136; 90_conflicts.md C1). -/
def modePF (b : Byte) : Bool := b.getLsbD 5
/-- The reserved bits of a mode byte, [4:0] (R73). -/
def modeRSV (b : Byte) : BitVec 5 := b.extractLsb' 0 5

/-- The row of a mode byte (R74). Every byte has one: code 11 is the row MODE_BAD. -/
def decodeModeByte (b : Byte) : Instr :=
  if modeDC b = 0 then .modeD1 (modePF b) (modeRSV b)
  else if modeDC b = 1 then .modeD2 (modePF b) (modeRSV b)
  else if modeDC b = 2 then .modeD8 (modePF b) (modeRSV b)
  else .modeBad (modePF b) (modeRSV b)

/-- The decoder: total, and a word that is no command is rejected by name. -/
def decode : CodeUnit → Except DecodeError Instr
  | .command w =>
    match decodeCommand w with
    | some i => .ok i
    | none => .error (.illegalCommand w)
  | .modeByte b => .ok (decodeModeByte b)

/-- The command word of R70: `OP | (DC << 4) | (EP << 6) | (PS << 7) | (IDX << 8)`. -/
def commandWord (op : BitVec 4) (dc : BitVec 2) (ep ps : Bool) (idx : Byte) : Word :=
  op.setWidth 32 ||| (dc.setWidth 32 <<< 4) ||| ((BitVec.ofBool ep).setWidth 32 <<< 6)
    ||| ((BitVec.ofBool ps).setWidth 32 <<< 7) ||| (idx.setWidth 32 <<< 8)

/-- The mode byte with the given fields (R73). -/
def modeByteOf (dc : BitVec 2) (pf : Bool) (rsv : BitVec 5) : Byte :=
  (dc.setWidth 8 <<< 6) ||| ((BitVec.ofBool pf).setWidth 8 <<< 5) ||| rsv.setWidth 8

/-- The encoder: the code unit of an instruction, from the field layouts of R70, R71, R73, R74. -/
def encode : Instr → CodeUnit
  | .decCfg => .command (commandWord 0x1 0 false false 0)
  | .decFull => .command (commandWord 0x2 0 false false 0)
  | .enc dc ep ps idx => .command (commandWord 0x3 dc ep ps idx)
  | .pixRd => .command (commandWord 0x4 0 false false 0)
  | .palRd idx => .command (commandWord 0x5 0 false false idx)
  | .palWr idx => .command (commandWord 0x6 0 false false idx)
  | .palDef dc => .command (commandWord 0x7 dc false false 0)
  | .quant dc => .command (commandWord 0x8 dc false false 0)
  | .modeD1 pf rsv => .modeByte (modeByteOf 0 pf rsv)
  | .modeD2 pf rsv => .modeByte (modeByteOf 1 pf rsv)
  | .modeD8 pf rsv => .modeByte (modeByteOf 2 pf rsv)
  | .modeBad pf rsv => .modeByte (modeByteOf 3 pf rsv)

/-- The mnemonic of an instruction, as spec/opcode_table.json spells it. -/
def Instr.mnemonic : Instr → String
  | .decCfg => "DEC_CFG"
  | .decFull => "DEC_FULL"
  | .enc _ _ _ _ => "ENC"
  | .pixRd => "PIX_RD"
  | .palRd _ => "PAL_RD"
  | .palWr _ => "PAL_WR"
  | .palDef _ => "PAL_DEF"
  | .quant _ => "QUANT"
  | .modeD1 _ _ => "MODE_D1"
  | .modeD2 _ _ => "MODE_D2"
  | .modeD8 _ _ => "MODE_D8"
  | .modeBad _ _ => "MODE_BAD"

/-- The opcode of a mnemonic (R71). -/
def Mnemonic.op : Mnemonic → BitVec 4
  | .DEC_CFG => 0x1
  | .DEC_FULL => 0x2
  | .ENC => 0x3
  | .PIX_RD => 0x4
  | .PAL_RD => 0x5
  | .PAL_WR => 0x6
  | .PAL_DEF => 0x7
  | .QUANT => 0x8

/-- The word a `CMD` line writes (R83: "WR CMD, <word of rule R70>; absent fields are 0"). -/
def AsmCommand.word (c : AsmCommand) : Word :=
  BitVec.ofNat 32 (c.mnemonic.op.toNat + c.dc * 2 ^ 4 + c.ep * 2 ^ 6 + c.ps * 2 ^ 7 + c.idx * 2 ^ 8)

/-- The code unit of `nbits` bits whose bits are `w`: a 32-bit command word or an 8-bit mode byte. -/
def codeUnitOf (nbits w : Nat) : Option CodeUnit :=
  if nbits = 32 then some (.command (BitVec.ofNat 32 w))
  else if nbits = 8 then some (.modeByte (BitVec.ofNat 8 w))
  else none

/-- The instruction the decoder reads from an instruction of the opcode table with the bits `w`. -/
def decodeTableWord (nbits w : Nat) : Option Instr :=
  match codeUnitOf nbits w with
  | some u => (decode u).toOption
  | none => none

end Sys2Proof
end

