-- ==== Sys2Proof/Machine/State.lean ====
section
/-! DEFINITION. The state of the machine, the reasons it stops, and the state after reset
(10_state.md; 70_reset_and_hazards.md R250). -/

namespace Sys2Proof.Machine

/-- STATUS.PHASE, the codec's control state (R24). -/
inductive Phase where
  | idle | hdr | dim | pal | plane | encHdr | encPal | encPix
deriving DecidableEq, Repr

/-- CUR_OP, the stream command running (R40). -/
inductive CurOp where
  | none | decCfg | decFull | enc
deriving DecidableEq, Repr

/-- ERR.KIND (60_exceptions.md R220). Codes 8 to 15 are never written. -/
inductive ErrKind where
  | none
  | signatureMismatch
  | truncatedInput
  | unsupportedBitDepth
  | dimensionsTooLarge
  | shortPlane
  | planeOverflow
  | illegalCommand
deriving DecidableEq, Repr

/-- An item of the IN FIFO (R45). -/
inductive InItem where
  | byte (b : Byte)
  | eos
deriving DecidableEq, Repr

/-- An item of the PIX FIFO (R45). -/
inductive PixItem where
  | pix (c : Color16)
  | eos
deriving DecidableEq, Repr

/-- The host-visible registers by name (10_state.md section 3). -/
inductive HostReg where
  | CMD | STATUS | ERR | ERR_INFO | MODE | DIMS | PALLEN | PLANE_LEN
  | ARG_X | ARG_Y | ARG_W | ARG_H | ARG_RG | ARG_BA | RES_IDX | RES_COLOR
  | IN_POS_LO | IN_POS_HI | OUT_POS_LO | OUT_POS_HI | PIX_CNT
deriving DecidableEq, Repr

/-- The actions of the host agent, each atomic (R20). A register access gives its byte offset and
its size in bytes, so that an access that breaks the duty of R39 can be presented and refused. -/
inductive HostAction where
  | read (off size : Nat)
  | write (off size : Nat) (v : Word)
  | pushIn (x : InItem)
  | pushPix (x : PixItem)
  | popOut
  | reset
deriving DecidableEq, Repr

/-- What a host read or pop gave the host. -/
inductive HostData where
  | reg (off : Nat) (v : Word)
  | outByte (b : Byte)
  | outEmpty
deriving DecidableEq, Repr

/-- Who acts next. The spec leaves the interleaving of host actions and codec steps free (R20, R61),
so State holds it as plain data and statements range over every agenda.
`wait` and `drain` are the host loops WAIT and DRAIN of 30_encoding.md R83. -/
inductive Event where
  | codec
  | host (a : HostAction)
  | wait
  | drain
deriving DecidableEq, Repr

/-- Byte-addressed memory: (address, byte) pairs in rising order of address. -/
abbrev Memory := List Host.Cell

/-- The canonical form of a memory: addresses strictly rising. An unlisted address reads as no value
(`Memory.unlisted`), so no entry can equal what an unlisted address reads as. -/
abbrev Memory.wf (m : Memory) : Prop := m.Pairwise (fun x y => x.1 < y.1)

/-- What an address that is not listed reads as: no value. The PLANE contents after reset are
unspecified (R43, R250), and a byte that was never written is never given a value here. -/
def Memory.unlisted : Option Byte := none

/-- The whole machine: every register of 10_state.md sections 3 and 4, the storage of section 5, the
FIFOs of section 6, and (the model's own) the agenda and what the host has received. -/
structure State where
  /-- DIM_ORDER and PLANE_CAP, fixed for the instance (R6, R7, R252). -/
  cfg : Config
  /-- CMD (R23). -/
  cmd : Word
  /-- STATUS.BUSY (R24). -/
  busy : Bool
  /-- STATUS.ERR (R24). -/
  err : Bool
  /-- STATUS.CFG_VALID (R24). -/
  cfgValid : Bool
  /-- STATUS.PLANE_VALID (R24). -/
  planeValid : Bool
  /-- STATUS.IDX_VALID (R24). -/
  idxValid : Bool
  /-- STATUS.OOB (R24). -/
  oob : Bool
  /-- STATUS.PAL_MISS (R24). -/
  palMiss : Bool
  /-- STATUS.PHASE (R24). -/
  phase : Phase
  /-- ERR.KIND (R25). -/
  errKind : ErrKind
  /-- ERR.STAGE (R25). -/
  errStage : Phase
  /-- ERR_INFO (R26). -/
  errInfo : Word
  /-- MODE, the mode byte verbatim (R27). -/
  mode : Byte
  /-- DIMS.WIDTH (R28). -/
  width : BitVec 16
  /-- DIMS.HEIGHT (R28). -/
  height : BitVec 16
  /-- PALLEN.PAL_LEN (R29). -/
  palLen : BitVec 9
  /-- PLANE_LEN (R30). -/
  planeLen : Word
  /-- ARG_X (R31). -/
  argX : Word
  /-- ARG_Y (R31). -/
  argY : Word
  /-- ARG_W (R32). -/
  argW : Word
  /-- ARG_H (R32). -/
  argH : Word
  /-- ARG_RG (R33). -/
  argRG : Word
  /-- ARG_BA (R33). -/
  argBA : Word
  /-- RES_IDX (R34). -/
  resIdx : Byte
  /-- RES_COLOR (R35). -/
  resColor : Color8
  /-- IN_POS (R36). -/
  inPos : BitVec 64
  /-- OUT_POS (R37). -/
  outPos : BitVec 64
  /-- PIX_CNT (R38). -/
  pixCnt : Word
  /-- CUR_OP (R40). -/
  curOp : CurOp
  /-- SIG_MISS (R40). -/
  sigMiss : BitVec 3
  /-- DIM_BUF (R40). -/
  dimBuf : Vector Byte 4
  /-- EB (R40). -/
  eb : Vector Byte 3
  /-- E_DC (R40). -/
  eDC : BitVec 2
  /-- E_EP (R40). -/
  eEP : Bool
  /-- E_PS (R40). -/
  ePS : Bool
  /-- E_W (R40). -/
  eW : BitVec 16
  /-- E_H (R40). -/
  eH : BitVec 16
  /-- ACC (R40). -/
  acc : Byte
  /-- NFILL, 0 to 7 (R40). -/
  nfill : BitVec 3
  /-- The palette file PAL[0..255] (R41). -/
  palette : Vector Color8 256
  /-- The pixel-plane memory PLANE (R43). -/
  plane : Memory
  /-- The IN FIFO, head first (R45). -/
  inFifo : List InItem
  /-- The PIX FIFO, head first (R45). -/
  pixFifo : List PixItem
  /-- The OUT FIFO, head first (R45). -/
  outFifo : List Byte
  /-- The model's own: who acts next, head first. -/
  agenda : List Event
  /-- The model's own: what the host has read and popped, oldest first. -/
  hostLog : List HostData
deriving DecidableEq, Repr

/-- Why the machine stops with a fault. No state that meets `State.Inv` (Sys2Proof/Safety.lean)
raises one. Each is safe: the model stops where the spec has no rule. -/
inductive Fault where
  /-- Raised by a codec step at a position (IN_POS, OUT_POS, PIX_CNT, NFILL, or PHASE = IDLE with
  BUSY = 1) that no transition rule of the spec covers: a stuck state. Safe. -/
  | noRule
  /-- Raised by PIX_RD, the PAL step, the ENC_PAL step and the ENC_PIX step when the depth code is 11,
  for which 42_palette_codec.md R160 defines no depth and no N. Safe. -/
  | noDepth
  /-- Raised by PIX_RD when PLANE holds no byte at an address below PLANE_LEN (20_memory.md R51: every
  read returns a byte a DEC_FULL captured). Safe. -/
  | planeUnwritten
  /-- Raised by the PLANE step when it would store at an address at or above PLANE_CAP (R51: MemWrite
  requires a < PLANE_CAP). Safe. -/
  | planeOutOfRange
deriving DecidableEq, Repr

/-- Why an action has no step in the model. -/
inductive Refusal where
  /-- An instruction of the opcode table that has no meaning yet; raised by no arm of this model. -/
  | notModelled (mnemonic : String)
  /-- A command written to CMD while STATUS.BUSY = 1, raised by every command: R23 and
  93_implementation_defined.md U12, "refuse". Safe. -/
  | cmdWhileBusy
  /-- A host register access that is not one aligned 32-bit word below 0x100, raised by the host's
  read and write actions: R39 and U13, "refuse". Safe. -/
  | badHostAccess
  /-- A mode byte at a place where the codec reads none, raised by the four mode-byte rows: a mode
  byte acts only as the byte at stream offset 7 (R134) and in the color-model resolution that
  ends the DIM phase (R150). No step of the machine raises it. Safe. -/
  | modeByteOutOfPlace
deriving DecidableEq, Repr

/-- The outcome of one step. -/
abbrev Result := Host.Outcome State Fault Refusal

/-- The state right after reset and at power-on (R250, R252): every register 0, SIG_MISS = 7,
CUR_OP = NONE, the palette file all (0,0,0,0), PLANE unspecified (nothing listed), FIFOs empty.
The instance's parameters are the free `Config.chosen`; the agenda and the host's record are empty. -/
def State.reset : State where
  cfg := Config.chosen
  cmd := 0
  busy := false
  err := false
  cfgValid := false
  planeValid := false
  idxValid := false
  oob := false
  palMiss := false
  phase := .idle
  errKind := .none
  errStage := .idle
  errInfo := 0
  mode := 0
  width := 0
  height := 0
  palLen := 0
  planeLen := 0
  argX := 0
  argY := 0
  argW := 0
  argH := 0
  argRG := 0
  argBA := 0
  resIdx := 0
  resColor := ⟨0, 0, 0, 0⟩
  inPos := 0
  outPos := 0
  pixCnt := 0
  curOp := .none
  sigMiss := 7
  dimBuf := Vector.replicate 4 0
  eb := Vector.replicate 3 0
  eDC := 0
  eEP := false
  ePS := false
  eW := 0
  eH := 0
  acc := 0
  nfill := 0
  palette := Vector.replicate 256 ⟨0, 0, 0, 0⟩
  plane := []
  inFifo := []
  pixFifo := []
  outFifo := []
  agenda := []
  hostLog := []

end Sys2Proof.Machine
end

