-- ==== Sys2Proof/Machine/Flags.lean ====
section
/-! DEFINITION. The STATUS and ERR words and the flags commands write (10_state.md R24, R25, R46;
60_exceptions.md R220, R227). -/

namespace Sys2Proof.Machine

/-- The code of a phase in STATUS.PHASE and ERR.STAGE (R24). -/
def Phase.code : Phase → BitVec 3
  | .idle => 0
  | .hdr => 1
  | .dim => 2
  | .pal => 3
  | .plane => 4
  | .encHdr => 5
  | .encPal => 6
  | .encPix => 7

/-- The code of an error kind in ERR.KIND (R220). -/
def ErrKind.code : ErrKind → BitVec 4
  | .none => 0
  | .signatureMismatch => 1
  | .truncatedInput => 2
  | .unsupportedBitDepth => 3
  | .dimensionsTooLarge => 4
  | .shortPlane => 5
  | .planeOverflow => 6
  | .illegalCommand => 7

/-- STATUS as the host reads it (R24): PHASE [10:8], bit [7] reads 0, PAL_MISS [6], OOB [5],
IDX_VALID [4], PLANE_VALID [3], CFG_VALID [2], ERR [1], BUSY [0], and [31:11] read 0. -/
def State.statusWord (s : State) : Word :=
  0#21 ++ s.phase.code ++ 0#1 ++ BitVec.ofBool s.palMiss ++ BitVec.ofBool s.oob
    ++ BitVec.ofBool s.idxValid ++ BitVec.ofBool s.planeValid ++ BitVec.ofBool s.cfgValid
    ++ BitVec.ofBool s.err ++ BitVec.ofBool s.busy

/-- ERR as the host reads it (R25): STAGE [6:4], KIND [3:0], and [31:7] read 0. -/
def State.errWord (s : State) : Word := 0#25 ++ s.errStage.code ++ s.errKind.code

/-- The result flags and result registers that every accepted command clears (R46, R227). -/
def clearResults (s : State) : State :=
  { s with idxValid := false, oob := false, palMiss := false, resIdx := 0, resColor := ⟨0, 0, 0, 0⟩ }

/-- The error record that every accepted command clears (R227): ERR, ERR_INFO and STATUS.ERR. -/
def clearError (s : State) : State :=
  { s with errKind := .none, errStage := .idle, errInfo := 0, err := false }

/-- An index result: RES_IDX and STATUS.IDX_VALID (R34, R24). -/
def setIndex (i : Byte) (s : State) : State := { s with resIdx := i, idxValid := true }

end Sys2Proof.Machine
end

