-- ==== Sys2Proof/Machine/Ops.lean ====
section
/-! DEFINITION. The operations the meanings share: accepting, completing and failing a command
(60_exceptions.md R221, R224, R227), the FIFOs (10_state.md R45), the pixel-plane memory
(20_memory.md R51), the palette file (R52), the register window (10_state.md section 3). -/

namespace Sys2Proof.Machine

/-! ### The command lifecycle -/

/-- R224: the image configuration and the plane are discarded. -/
def clearConfig (s : State) : State :=
  { s with cfgValid := false, planeValid := false, mode := 0, width := 0, height := 0, palLen := 0, planeLen := 0 }

/-- R227, acceptance: the effects every accepted command word has before its own. -/
def accept (w : Word) (s : State) : State := clearResults (clearError { s with cmd := w })

/-- R227, `complete`: the command ends without error. -/
def complete (s : State) : State := { s with curOp := .none, busy := false, phase := .idle }

/-- R221: is a decode command running? Its error clears the configuration. -/
def CurOp.isDecode : CurOp → Bool
  | .decCfg | .decFull => true
  | .none | .enc => false

/-- R221, the error record: ERR.KIND, ERR.STAGE (the phase the step began in, R223), ERR_INFO, STATUS.ERR. -/
def recordError (kind : ErrKind) (info : Word) (s : State) : State :=
  { s with errKind := kind, errStage := s.phase, errInfo := info, err := true }

/-- R221, `raise Err(kind, info)`: the one way a command ends in an error. The error is recorded, a
decode discards its configuration, and the codec is idle. There is no handler to enter and nothing to
return from (R231): the next accepted command clears the record. -/
def raise (kind : ErrKind) (info : Word) (s : State) : State :=
  complete (if s.curOp.isDecode then clearConfig (recordError kind info s) else recordError kind info s)

/-- A command word written to CMD: refused while BUSY = 1 (R23, R254), else accepted (R227) and run. -/
def issue (w : Word) (body : State → Result) (s : State) : Result :=
  if s.busy then .refused .cmdWhileBusy else body (accept w s)

/-- A word that is no legal command (R72, R81): accepted, and it raises IllegalCommand with
ERR_INFO = w (R227). -/
def execIllegal (w : Word) (s : State) : Result :=
  issue w (fun t => .next (raise .illegalCommand w t)) s

/-! ### FIFOs -/

/-- The value of a 64-bit position counter as ERR_INFO records it (R222). -/
def posInfo (p : BitVec 64) : Word := p.setWidth 32

/-- `OutWrite(b)` with the increment of OUT_POS that always goes with it (R37). -/
def outWrite (b : Byte) (s : State) : State :=
  { s with outFifo := s.outFifo ++ [b], outPos := s.outPos + 1 }

/-! ### The pixel-plane memory -/

/-- The byte listed at an address, or what an unlisted address reads as. -/
def Memory.read : Memory → Nat → Option Byte
  | [], _ => Memory.unlisted
  | c :: m, a => if c.1 = a then some c.2 else Memory.read m a

/-- The memory with a byte stored at an address, in canonical form. -/
def Memory.write : Memory → Nat → Byte → Memory
  | [], a, v => [(a, v)]
  | c :: m, a, v =>
    if a < c.1 then (a, v) :: c :: m
    else if a = c.1 then (a, v) :: m
    else c :: Memory.write m a v

/-- R51, `MemRead(PLANE, a, 1)`, which requires a < PLANE_LEN; no value at or above it. -/
def memRead (s : State) (a : Nat) : Option Byte :=
  if a < s.planeLen.toNat then s.plane.read a else none

/-- R51, `MemWrite(PLANE, a, 1, v)`, which requires a < PLANE_CAP; no state at or above it. -/
def memWrite (s : State) (a : Nat) (v : Byte) : Option State :=
  if a < s.cfg.planeCap.toNat then some { s with plane := s.plane.write a v } else none

/-! ### The register window -/

/-- The byte offset of a register (10_state.md section 3). -/
def HostReg.offset : HostReg → Nat
  | .CMD => 0x00
  | .STATUS => 0x04
  | .ERR => 0x08
  | .ERR_INFO => 0x0C
  | .MODE => 0x10
  | .DIMS => 0x14
  | .PALLEN => 0x18
  | .PLANE_LEN => 0x1C
  | .ARG_X => 0x20
  | .ARG_Y => 0x24
  | .ARG_W => 0x28
  | .ARG_H => 0x2C
  | .ARG_RG => 0x30
  | .ARG_BA => 0x34
  | .RES_IDX => 0x38
  | .RES_COLOR => 0x3C
  | .IN_POS_LO => 0x40
  | .IN_POS_HI => 0x44
  | .OUT_POS_LO => 0x48
  | .OUT_POS_HI => 0x4C
  | .PIX_CNT => 0x50

/-- The registers in the order of their offsets. -/
def HostReg.all : List HostReg :=
  [.CMD, .STATUS, .ERR, .ERR_INFO, .MODE, .DIMS, .PALLEN, .PLANE_LEN, .ARG_X, .ARG_Y, .ARG_W, .ARG_H,
   .ARG_RG, .ARG_BA, .RES_IDX, .RES_COLOR, .IN_POS_LO, .IN_POS_HI, .OUT_POS_LO, .OUT_POS_HI, .PIX_CNT]

/-- The register at an offset; none at a reserved offset, 0x54 to 0xFC (R39). -/
def HostReg.ofOffset (off : Nat) : Option HostReg := HostReg.all.find? (fun r => r.offset == off)

/-- A Color8 in the layout of RES_COLOR (R35, R56): R [7:0], G [15:8], B [23:16], A [31:24]. -/
def colorWord (c : Color8) : Word := c.a ++ c.b ++ c.g ++ c.r

/-- The value a host read of a register returns; reading changes nothing (R59). -/
def readReg (s : State) : HostReg → Word
  | .CMD => s.cmd
  | .STATUS => s.statusWord
  | .ERR => s.errWord
  | .ERR_INFO => s.errInfo
  | .MODE => 0#24 ++ s.mode
  | .DIMS => s.height ++ s.width
  | .PALLEN => 0#23 ++ s.palLen
  | .PLANE_LEN => s.planeLen
  | .ARG_X => s.argX
  | .ARG_Y => s.argY
  | .ARG_W => s.argW
  | .ARG_H => s.argH
  | .ARG_RG => s.argRG
  | .ARG_BA => s.argBA
  | .RES_IDX => 0#24 ++ s.resIdx
  | .RES_COLOR => colorWord s.resColor
  | .IN_POS_LO => s.inPos.extractLsb' 0 32
  | .IN_POS_HI => s.inPos.extractLsb' 32 32
  | .OUT_POS_LO => s.outPos.extractLsb' 0 32
  | .OUT_POS_HI => s.outPos.extractLsb' 32 32
  | .PIX_CNT => s.pixCnt

/-- The value a host read at a byte offset returns: 0 at a reserved offset (R39). -/
def readOffset (s : State) (off : Nat) : Word :=
  match HostReg.ofOffset off with
  | some r => readReg s r
  | none => 0

/-- A host write to a register other than CMD: an ARG register takes the value (R31 to R33), a
read-only register ignores it (R59). A write to CMD issues a command instead
(Machine/HostPort.lean), so it stores nothing here. -/
def writeArg (r : HostReg) (v : Word) (s : State) : State :=
  match r with
  | .ARG_X => { s with argX := v }
  | .ARG_Y => { s with argY := v }
  | .ARG_W => { s with argW := v }
  | .ARG_H => { s with argH := v }
  | .ARG_RG => { s with argRG := v }
  | .ARG_BA => { s with argBA := v }
  | .CMD | .STATUS | .ERR | .ERR_INFO | .MODE | .DIMS | .PALLEN | .PLANE_LEN | .RES_IDX | .RES_COLOR
  | .IN_POS_LO | .IN_POS_HI | .OUT_POS_LO | .OUT_POS_HI | .PIX_CNT => s

/-- The configuration string of an instance (R2): `imretro-core(dim_order=<BE|LE>, plane_cap=<n>)`. -/
def configString (c : Config) : String :=
  "imretro-core(dim_order=" ++ (match c.dimOrder with | .be => "BE" | .le => "LE")
    ++ ", plane_cap=" ++ toString c.planeCap.toNat ++ ")"

end Sys2Proof.Machine
end

