-- ==== Sys2Proof/Machine/Operands.lean ====
section
/-! DEFINITION. The operand forms: depth codes (30_encoding.md R74, 42_palette_codec.md R160), the
Color16 operand (R79), coordinates (R80), and the header fields of the stream: the magic
signature (R75), the dimensions (R78, R138, R194) and the palette entry (R76, R101). -/

namespace Sys2Proof.Machine

/-- A bit-depth the codec has (R74); the depth code 11 is none. -/
inductive Depth where
  | d1 | d2 | d8
deriving DecidableEq, Repr

/-- The bit-depth of a depth code (R74, R160); none for 11. -/
def depthOf (dc : BitVec 2) : Option Depth :=
  if dc = 0 then some .d1
  else if dc = 1 then some .d2
  else if dc = 2 then some .d8
  else none

/-- The depth code of a bit-depth (R74). -/
def Depth.code : Depth → BitVec 2
  | .d1 => 0
  | .d2 => 1
  | .d8 => 2

/-- depth(dc): bits per pixel (R160). -/
def Depth.bits : Depth → Nat
  | .d1 => 1
  | .d2 => 2
  | .d8 => 8

/-- N(dc): the palette length, 2^depth(dc) (R160). -/
def Depth.palSize : Depth → Nat
  | .d1 => 2
  | .d2 => 4
  | .d8 => 256

/-- Pixels per plane byte (R74). -/
def Depth.perByte : Depth → Nat
  | .d1 => 8
  | .d2 => 4
  | .d8 => 1

/-- `channelAsByte(v16) = v16 >> 8` (R100): truncation, no rounding. -/
def channelAsByte (v : BitVec 16) : Byte := (v >>> 8).setWidth 8

/-- `colorAsBytes` (R101). -/
def colorAsBytes (c : Color16) : Color8 :=
  ⟨channelAsByte c.r, channelAsByte c.g, channelAsByte c.b, channelAsByte c.a⟩

/-- `colorFromBytes(b0, b1, b2, b3)` = (r, g, b, a) (R76, R101). -/
def colorFromBytes (b0 b1 b2 b3 : Byte) : Color8 := ⟨b0, b1, b2, b3⟩

/-- The byte `[c.r, c.g, c.b, c.a][k]` of a color, k = 0 to 3 (R196). -/
def channelOf (c : Color8) : Nat → Byte
  | 0 => c.r
  | 1 => c.g
  | 2 => c.b
  | _ => c.a

/-- The Color16 operand in ARG_RG and ARG_BA (R33, R79). -/
def operandColor (s : State) : Color16 :=
  ⟨s.argRG.extractLsb' 0 16, s.argRG.extractLsb' 16 16, s.argBA.extractLsb' 0 16, s.argBA.extractLsb' 16 16⟩

/-- The coordinate x = sext_32(ARG_X) (R31, R80). -/
def coordX (s : State) : Int := s.argX.toInt
/-- The coordinate y = sext_32(ARG_Y) (R31, R80). -/
def coordY (s : State) : Int := s.argY.toInt

/-- The magic signature, ASCII "IMRETRO" (R75; the code values are general knowledge, G1). -/
def magic : List Byte := [0x49, 0x4D, 0x52, 0x45, 0x54, 0x52, 0x4F]

/-- `{hi, lo}`: a 16-bit number from its two bytes. -/
def dim16 (hi lo : Byte) : BitVec 16 := hi ++ lo

/-- The width from the first two dimension bytes (R78, R138). -/
def dimWidth (o : DimOrder) (d : Vector Byte 4) : BitVec 16 :=
  match o with
  | .be => dim16 d[0] d[1]
  | .le => dim16 d[1] d[0]

/-- The height from the last two dimension bytes (R78, R138). -/
def dimHeight (o : DimOrder) (d : Vector Byte 4) : BitVec 16 :=
  match o with
  | .be => dim16 d[2] d[3]
  | .le => dim16 d[3] d[2]

/-- `dimBytes(v)` (R194): the two bytes of a dimension in the instance's order. -/
def dimBytes (o : DimOrder) (v : BitVec 16) : List Byte :=
  match o with
  | .be => [v.extractLsb' 8 8, v.extractLsb' 0 8]
  | .le => [v.extractLsb' 0 8, v.extractLsb' 8 8]

end Sys2Proof.Machine
end

