-- ==== Sys2Proof/Machine/Color.lean ====
section
/-! DEFINITION. The color model: quantizers and convert, with the commands QUANT and PAL_RD that
expose them (40_color_model.md). -/

namespace Sys2Proof.Machine

/-- The no-color sentinel (R107; 92_eei_decisions.md D7). -/
def sentinel : Color8 := ⟨0, 0, 0, 0⟩

/-- OneBit quantize (R102): 1 if (r | g | b) >= 128 and a >= 128, else 0. -/
def q1 (c : Color8) : Byte :=
  if 128 ≤ (c.r ||| c.g ||| c.b).toNat ∧ 128 ≤ c.a.toNat then 1 else 0

/-- TwoBit quantize (R103): 0 if a < 128, else (r | g | b) >> 6. -/
def q2 (c : Color8) : Byte :=
  if c.a.toNat < 128 then 0 else (c.r ||| c.g ||| c.b) >>> 6

/-- EightBit quantize (R104): (r >> 6) | ((g >> 6) << 2) | ((b >> 6) << 4) | ((a >> 6) << 6). -/
def q8 (c : Color8) : Byte :=
  (c.r >>> 6) ||| ((c.g >>> 6) <<< 2) ||| ((c.b >>> 6) <<< 4) ||| ((c.a >>> 6) <<< 6)

/-- `quantize(dc, c)` (R105), a closed match on the bit-depth. -/
def quantize (d : Depth) (c : Color8) : Byte :=
  match d with
  | .d1 => q1 c
  | .d2 => q2 c
  | .d8 => q8 c

/-- `convert(i)` (R106): PAL[i] if i < PAL_LEN, else the sentinel. It never fails. -/
def convert (s : State) (i : Byte) : Color8 :=
  if i.toNat < s.palLen.toNat then s.palette[i.toNat]'i.isLt else sentinel

/-- The color result of PIX_RD and PAL_RD (R109, R173): RES_COLOR is convert(i), and PAL_MISS is set
when i is at or past PAL_LEN. -/
def setConverted (i : Byte) (s : State) : State :=
  { s with
    resColor := convert s i
    palMiss := if i.toNat < s.palLen.toNat then s.palMiss else true }

/-- QUANT after acceptance (R108). -/
def quantBody (dc : BitVec 2) (s : State) : State :=
  match depthOf dc with
  | none => raise .unsupportedBitDepth 3 s
  | some d => complete (setIndex (quantize d (colorAsBytes (operandColor s))) s)

/-- QUANT (R108). -/
def execQuant (dc : BitVec 2) (s : State) : Result :=
  issue (commandWord 0x8 dc false false 0) (fun t => .next (quantBody dc t)) s

/-- PAL_RD after acceptance (R109). -/
def palRdBody (idx : Byte) (s : State) : State :=
  complete (setConverted idx (setIndex idx s))

/-- PAL_RD (R109). -/
def execPalRd (idx : Byte) (s : State) : Result :=
  issue (commandWord 0x5 0 false false idx) (fun t => .next (palRdBody idx t)) s

end Sys2Proof.Machine
end

