-- ==== Sys2Proof/Machine/Palette.lean ====
section
/-! DEFINITION. The built-in palettes and the commands that load the palette file from the host side,
PAL_DEF and PAL_WR (42_palette_codec.md). -/

namespace Sys2Proof.Machine

/-- ROM(1) (R155; D8): black, white. -/
def rom1 (k : Byte) : Color8 := if k = 0 then ⟨0, 0, 0, 255⟩ else ⟨255, 255, 255, 255⟩

/-- ROM(2) (R156; D9): the grays k·0x55, opaque. -/
def rom2 (k : Byte) : Color8 := ⟨k * 0x55, k * 0x55, k * 0x55, 255⟩

/-- `rep2(v)` (R157): a 2-bit value replicated over 8 bits. -/
def rep2 (v : BitVec 2) : Byte := v ++ v ++ v ++ v

/-- ROM(8) (R157; D10): r from index bits [1:0], g from [3:2], b from [5:4], a from [7:6]. -/
def rom8 (i : Byte) : Color8 :=
  ⟨rep2 (i.extractLsb' 0 2), rep2 (i.extractLsb' 2 2), rep2 (i.extractLsb' 4 2), rep2 (i.extractLsb' 6 2)⟩

/-- `ROM(d)[k]`, the built-in palette entry k of a depth, for k < N (R42, R155 to R157). -/
def rom (d : Depth) (k : Byte) : Color8 :=
  match d with
  | .d1 => rom1 k
  | .d2 => rom2 k
  | .d8 => rom8 k

/-- The palette file with the built-in palette of a depth in entries 0 to N-1 (R151, R158); the
entries from N on keep their contents. -/
def builtinInto (d : Depth) (p : Vector Color8 256) : Vector Color8 256 :=
  Vector.ofFn fun k => if k.val < d.palSize then rom d (BitVec.ofNat 8 k.val) else p[k.val]

/-- Load the built-in palette of a depth: entries 0 to N-1 and PAL_LEN (R151, R158). -/
def loadBuiltin (d : Depth) (s : State) : State :=
  { s with palette := builtinInto d s.palette, palLen := BitVec.ofNat 9 d.palSize }

/-- Write one palette-file entry whole (20_memory.md R52). -/
def setEntry (i : Byte) (c : Color8) (s : State) : State :=
  { s with palette := s.palette.set i.toNat c i.isLt }

/-- PAL_DEF after acceptance (R158). -/
def palDefBody (dc : BitVec 2) (s : State) : State :=
  match depthOf dc with
  | none => raise .unsupportedBitDepth 3 s
  | some d => complete (loadBuiltin d s)

/-- PAL_DEF (R158). -/
def execPalDef (dc : BitVec 2) (s : State) : Result :=
  issue (commandWord 0x7 dc false false 0) (fun t => .next (palDefBody dc t)) s

/-- PAL_WR after acceptance (R159). -/
def palWrBody (idx : Byte) (s : State) : State :=
  complete (setEntry idx (colorAsBytes (operandColor s)) s)

/-- PAL_WR (R159). -/
def execPalWr (idx : Byte) (s : State) : Result :=
  issue (commandWord 0x6 0 false false idx) (fun t => .next (palWrBody idx t)) s

end Sys2Proof.Machine
end

