-- ==== Sys2Proof/Machine/Header.lean ====
section
/-! DEFINITION. The decode commands DEC_CFG and DEC_FULL and the mode byte: its arrival at stream
offset 7 and the color-model resolution it selects (41_header_codec.md R130 to R136, R140;
42_palette_codec.md R150, R151). -/

namespace Sys2Proof.Machine

/-- R132: the acceptance of a decode command. -/
def startDecode (op : CurOp) (s : State) : State :=
  { clearConfig s with
    curOp := op
    busy := true
    phase := .hdr
    inPos := 0
    sigMiss := 7
    dimBuf := Vector.replicate 4 0
    eb := Vector.replicate 3 0 }

/-- DEC_CFG (R130). -/
def execDecCfg (s : State) : Result :=
  issue (commandWord 0x1 0 false false 0) (fun t => .next (startDecode .decCfg t)) s

/-- DEC_FULL (R131). -/
def execDecFull (s : State) : Result :=
  issue (commandWord 0x2 0 false false 0) (fun t => .next (startDecode .decFull t)) s

/-- `cfg_done` (R140): DEC_CFG completes with a valid configuration, DEC_FULL goes on to the plane. -/
def cfgDone (s : State) : State :=
  if s.curOp = .decCfg then complete { s with cfgValid := true } else { s with phase := .plane }

/-- The mode byte arrives at offset 7 (R134, R135): IN_POS becomes 8; a signature byte that differed is
reported now; otherwise MODE takes the byte verbatim and the DIM phase begins. -/
def takeModeByte (b : Byte) (s : State) : State :=
  if s.sigMiss ≠ 7 then raise .signatureMismatch (s.sigMiss.setWidth 32) { s with inPos := 8 }
  else { s with inPos := 8, mode := b, phase := .dim }

/-- The color-model resolution of a known depth code (R150, R151): with an in-file palette the PAL
phase reads it, else the built-in palette is loaded and the configuration is done. -/
def resolveKnown (d : Depth) (pf : Bool) (s : State) : State :=
  if pf then { s with phase := .pal } else cfgDone (loadBuiltin d s)

/-- The color-model resolution of the depth code 11 (R150). -/
def resolveBad (s : State) : State := raise .unsupportedBitDepth 3 s

/-- The codec is about to take the mode byte: PHASE = HDR with IN_POS = 7 (R134). -/
def State.atModeByte (s : State) : Bool := s.busy && s.phase == .hdr && s.inPos == 7

/-- The codec is at the color-model resolution of mode byte `b`: PHASE = DIM with all 12 header bytes
consumed and MODE = b (R150). -/
def State.atResolution (b : Byte) (s : State) : Bool :=
  s.busy && s.phase == .dim && s.inPos == 12 && s.mode == b

/-- What a mode byte does at the two places where it acts: it is taken as the byte at offset 7
(R134), and its depth code and flag resolve the color model at the end of the DIM phase (R150). -/
def actModeByte (b : Byte) (resolve : State → State) (s : State) : Result :=
  if s.atModeByte then .next (takeModeByte b s)
  else if s.atResolution b then .next (resolve s)
  else .refused .modeByteOutOfPlace

/-- MODE_D1: depth code 00, OneBit, N = 2 (R74). -/
def execModeD1 (pf : Bool) (rsv : BitVec 5) (s : State) : Result :=
  actModeByte (modeByteOf 0 pf rsv) (resolveKnown .d1 pf) s

/-- MODE_D2: depth code 01, TwoBit, N = 4 (R74). -/
def execModeD2 (pf : Bool) (rsv : BitVec 5) (s : State) : Result :=
  actModeByte (modeByteOf 1 pf rsv) (resolveKnown .d2 pf) s

/-- MODE_D8: depth code 10, EightBit, N = 256 (R74). -/
def execModeD8 (pf : Bool) (rsv : BitVec 5) (s : State) : Result :=
  actModeByte (modeByteOf 2 pf rsv) (resolveKnown .d8 pf) s

/-- MODE_BAD: depth code 11, taken verbatim at offset 7 and refused by the resolution with
UnsupportedBitDepth (R74, R150). -/
def execModeBad (pf : Bool) (rsv : BitVec 5) (s : State) : Result :=
  actModeByte (modeByteOf 3 pf rsv) resolveBad s

end Sys2Proof.Machine
end

