-- ==== Sys2Proof/Machine/Pixel.lean ====
section
/-! DEFINITION. The pixel decoder: bit-unpacking and the command PIX_RD (43_pixel_plane.md). -/

namespace Sys2Proof.Machine

/-- `inBounds(x, y)` (R174): signed coordinates against the zero-extended WIDTH and HEIGHT. -/
def inBounds (s : State) (x y : Int) : Bool :=
  decide (0 ≤ x ∧ x < s.width.toNat ∧ 0 ≤ y ∧ y < s.height.toNat)

/-- The pixel offset p = y·WIDTH + x (R175), exact. -/
def pixelOffset (w : BitVec 16) (x y : Nat) : Nat := y * w.toNat + x

/-- The address of the plane byte that holds pixel offset p (R176 to R178). -/
def byteAddr (d : Depth) (p : Nat) : Nat :=
  match d with
  | .d1 => p / 8
  | .d2 => p / 4
  | .d8 => p

/-- The index of pixel offset p in its byte (R176 to R178): MSB-first fields. -/
def unpackIndex (d : Depth) (p : Nat) (byte : Byte) : Byte :=
  match d with
  | .d1 => (byte >>> (7 - p % 8)) &&& 1
  | .d2 => (byte >>> (6 - p % 4 * 2)) &&& 3
  | .d8 => byte

/-- PIX_RD of an in-bounds pixel of a known depth (R173, R179): ShortPlane when its byte is not in the
plane, else its index and the color the palette gives it. -/
def pixRdInside (d : Depth) (p : Nat) (s : State) : Result :=
  if s.planeLen.toNat ≤ byteAddr d p then .next (raise .shortPlane (BitVec.ofNat 32 (byteAddr d p)) s)
  else
    match memRead s (byteAddr d p) with
    | none => .fault .planeUnwritten
    | some byte =>
      .next (complete (setConverted (unpackIndex d p byte) (setIndex (unpackIndex d p byte) s)))

/-- PIX_RD outside the image (R173, R174): the sentinel with STATUS.OOB, no error. -/
def pixRdOutside (s : State) : State := complete { s with resColor := sentinel, oob := true }

/-- PIX_RD after acceptance (R173). -/
def pixRdBody (s : State) : Result :=
  if inBounds s (coordX s) (coordY s) then
    match depthOf (modeDC s.mode) with
    | none => .fault .noDepth
    | some d => pixRdInside d (pixelOffset s.width (coordX s).toNat (coordY s).toNat) s
  else .next (pixRdOutside s)

/-- PIX_RD (R173). -/
def execPixRd (s : State) : Result :=
  issue (commandWord 0x4 0 false false 0) pixRdBody s

end Sys2Proof.Machine
end

