-- ==== Sys2Proof/Machine/Encoder.lean ====
section
/-! DEFINITION. The encoder: the command ENC and its steps (44_encoder.md). -/

namespace Sys2Proof.Machine

/-- ERR_INFO of DimensionsTooLarge (R191, R222): bit 0 for ARG_W > 65535, bit 1 for ARG_H > 65535. -/
def dimsTooLargeInfo (w h : Word) : Word :=
  (if 65535 < h.toNat then 2 else 0) ||| (if 65535 < w.toNat then 1 else 0)

/-- R190: ENC accepted, with its operands latched. -/
def startEncode (dc : BitVec 2) (ep ps : Bool) (s : State) : State :=
  { s with
    curOp := .enc
    eDC := dc
    eEP := ep
    ePS := ps
    eW := s.argW.setWidth 16
    eH := s.argH.setWidth 16
    acc := 0
    nfill := 0
    busy := true
    phase := .encHdr }

/-- R190: OUT_POS and PIX_CNT start at 0. -/
def clearCounts (s : State) : State := { s with outPos := 0, pixCnt := 0 }

/-- ENC after acceptance (R190, R191): OUT_POS and PIX_CNT cleared, the depth checked, then the
dimensions, then the operands latched. -/
def encBody (dc : BitVec 2) (ep ps : Bool) (s : State) : State :=
  if dc = 3 then raise .unsupportedBitDepth 3 (clearCounts s)
  else if 65535 < s.argW.toNat ∨ 65535 < s.argH.toNat then
    raise .dimensionsTooLarge (dimsTooLargeInfo s.argW s.argH) (clearCounts s)
  else startEncode dc ep ps (clearCounts s)

/-- ENC (R190). With a bit in IDX, a field ENC does not use, its word is no legal command and raises
IllegalCommand (R72, R81, U8; log entry 16); the decoder gives no such ENC. -/
def execEnc (dc : BitVec 2) (ep ps : Bool) (idx : Byte) (s : State) : Result :=
  issue (commandWord 0x3 dc ep ps idx) (fun t => .next (
    if idx = 0 then encBody dc ep ps t else raise .illegalCommand (commandWord 0x3 dc ep ps idx) t)) s

/-- The mode byte ENC emits (R193): `(E_DC << 6) | (E_EP << 5)`, bits [4:0] zero. -/
def encModeByte (dc : BitVec 2) (ep : Bool) : Byte := modeByteOf dc ep 0

/-- The 12 header bytes HB (R192): magic, mode byte, width, height. -/
def headerBytes (o : DimOrder) (dc : BitVec 2) (ep : Bool) (w h : BitVec 16) : List Byte :=
  magic ++ [encModeByte dc ep] ++ dimBytes o w ++ dimBytes o h

/-- ENC_HDR step (R195). -/
def encHdrStep (s : State) : Result :=
  match (headerBytes s.cfg.dimOrder s.eDC s.eEP s.eW s.eH)[s.outPos.toNat]? with
  | none => .fault .noRule
  | some b =>
    let t := outWrite b s
    if t.outPos = 12 then .next { t with phase := if s.eEP then .encPal else .encPix } else .next t

/-- The palette entry k that ENC emits (R196): ROM(depth)[k] when PS = 0, convert(k) when PS = 1. -/
def emittedEntry (d : Depth) (s : State) (k : Byte) : Color8 :=
  if s.ePS then convert s k else rom d k

/-- ENC_PAL step (R196), with j = OUT_POS − 12. -/
def encPalStep (s : State) : Result :=
  match depthOf s.eDC with
  | none => .fault .noDepth
  | some d =>
    let j := s.outPos.toNat - 12
    if s.outPos.toNat < 12 ∨ 4 * d.palSize ≤ j then .fault .noRule
    else
      let t := outWrite (channelOf (emittedEntry d s (BitVec.ofNat 8 (j / 4))) (j % 4)) s
      if j + 1 = 4 * d.palSize then .next { t with phase := .encPix } else .next t

/-- Emit the packed byte and start the next one (R197, R198, R200). -/
def emitAcc (s : State) : State := { outWrite s.acc s with acc := 0, nfill := 0 }

/-- One more field in ACC; the byte is emitted when it holds `perByte` fields (R197, R198). -/
def packField (field : Byte) (perByte : Nat) (s : State) : State :=
  let t : State := { s with acc := s.acc ||| field, nfill := s.nfill + 1 }
  if s.nfill.toNat + 1 = perByte then emitAcc t else t

/-- Pack one index by the depth: R197 (1-bit), R198 (2-bit), R199 (8-bit). -/
def packIndex (d : Depth) (q : Byte) (s : State) : State :=
  match d with
  | .d1 => packField (q <<< (7 - s.nfill.toNat)) 8 s
  | .d2 => packField (q <<< (6 - 2 * s.nfill.toNat)) 4 s
  | .d8 => outWrite q s

/-- E_W·E_H, exact (R200). -/
def totalPixels (s : State) : Nat := s.eW.toNat * s.eH.toNat

/-- The end of ENC (R200): the last partial byte is flushed with its unused low positions 0. -/
def finishEncode (s : State) : State := complete (if s.nfill = 0 then s else emitAcc s)

/-- ENC_PIX step (R200, R201). While PIX is empty and pixels are missing it waits. -/
def encPixStep (s : State) : Result :=
  if s.pixCnt.toNat = totalPixels s then .next (finishEncode s)
  else if totalPixels s < s.pixCnt.toNat then .fault .noRule
  else
    match s.pixFifo with
    | [] => .next s
    | .eos :: rest => .next (raise .truncatedInput s.pixCnt { s with pixFifo := rest })
    | .pix c :: rest =>
      match depthOf s.eDC with
      | none => .fault .noDepth
      | some d =>
        if d.perByte ≤ s.nfill.toNat then .fault .noRule
        else
          let t := packIndex d (quantize d (colorAsBytes c)) { s with pixFifo := rest }
          .next { t with pixCnt := s.pixCnt + 1 }

end Sys2Proof.Machine
end

