-- ==== Sys2Proof/Machine/Dispatch.lean ====
section
/-! DEFINITION. One arm per instruction: the meaning of each. -/

namespace Sys2Proof.Machine

def exec (i : Instr) (s : State) : Host.Outcome State Fault Refusal :=
  match i with
  | .decCfg => Sys2Proof.Machine.execDecCfg s
  | .decFull => Sys2Proof.Machine.execDecFull s
  | .enc dc ep ps idx => Sys2Proof.Machine.execEnc dc ep ps idx s
  | .pixRd => Sys2Proof.Machine.execPixRd s
  | .palRd idx => Sys2Proof.Machine.execPalRd idx s
  | .palWr idx => Sys2Proof.Machine.execPalWr idx s
  | .palDef dc => Sys2Proof.Machine.execPalDef dc s
  | .quant dc => Sys2Proof.Machine.execQuant dc s
  | .modeD1 pf rsv => Sys2Proof.Machine.execModeD1 pf rsv s
  | .modeD2 pf rsv => Sys2Proof.Machine.execModeD2 pf rsv s
  | .modeD8 pf rsv => Sys2Proof.Machine.execModeD8 pf rsv s
  | .modeBad pf rsv => Sys2Proof.Machine.execModeBad pf rsv s

end Sys2Proof.Machine
end

