-- ==== Sys2Proof/Machine/Codec.lean ====
section
/-! DEFINITION. The steps of the codec agent: the phases HDR and DIM (41_header_codec.md), PAL
(42_palette_codec.md) and PLANE (43_pixel_plane.md) of a decode, and the choice of the phase's step.
The ENC phases are in Machine/Encoder.lean. A step whose FIFO is empty waits: the state stays (R45). -/

namespace Sys2Proof.Machine

/-- R133: the effect of the signature byte at offset k = 0 to 6. The first mismatch is recorded. -/
def takeSigByte (k : Nat) (b : Byte) (s : State) : State :=
  { s with
    sigMiss := if magic[k]? ≠ some b ∧ s.sigMiss = 7 then BitVec.ofNat 3 k else s.sigMiss
    inPos := s.inPos + 1 }

/-- HDR step (R133, R134). The byte at offset 7 is decoded as a mode byte and its instruction runs. -/
def hdrStep (s : State) : Result :=
  if 7 < s.inPos.toNat then .fault .noRule
  else
    match s.inFifo with
    | [] => .next s
    | .eos :: rest => .next (raise .truncatedInput (posInfo s.inPos) { s with inFifo := rest })
    | .byte b :: rest =>
      if s.inPos = 7 then exec (decodeModeByte b) { s with inFifo := rest }
      else .next (takeSigByte s.inPos.toNat b { s with inFifo := rest })

/-- R137: the effect of the dimension byte at offset k = 8 to 11. -/
def takeDimByte (k : Nat) (b : Byte) (s : State) : State :=
  { s with dimBuf := s.dimBuf.setIfInBounds (k - 8) b, inPos := s.inPos + 1 }

/-- R138: WIDTH and HEIGHT from DIM_BUF in the order of the instance. -/
def assembleDims (s : State) : State :=
  { s with width := dimWidth s.cfg.dimOrder s.dimBuf, height := dimHeight s.cfg.dimOrder s.dimBuf }

/-- DIM step (R137). The step that consumes offset 11 assembles the dimensions and resolves the color
model, which is what the mode byte in MODE selects (R150). -/
def dimStep (s : State) : Result :=
  if s.inPos.toNat < 8 ∨ 11 < s.inPos.toNat then .fault .noRule
  else
    match s.inFifo with
    | [] => .next s
    | .eos :: rest => .next (raise .truncatedInput (posInfo s.inPos) { s with inFifo := rest })
    | .byte b :: rest =>
      let t := takeDimByte s.inPos.toNat b { s with inFifo := rest }
      if s.inPos = 11 then exec (decodeModeByte t.mode) (assembleDims t) else .next t

/-- R152: the effect of the palette byte number j: the first three bytes of an entry go to EB, the
fourth completes the entry. -/
def takePalByte (j : Nat) (b : Byte) (s : State) : State :=
  let t : State := { s with inPos := s.inPos + 1 }
  if j % 4 < 3 then { t with eb := s.eb.setIfInBounds (j % 4) b }
  else { t with palette := s.palette.setIfInBounds (j / 4) (colorFromBytes s.eb[0] s.eb[1] s.eb[2] b) }

/-- PAL step (R152, R154), with j = IN_POS − 12. -/
def palStep (s : State) : Result :=
  match depthOf (modeDC s.mode) with
  | none => .fault .noDepth
  | some d =>
    let j := s.inPos.toNat - 12
    if s.inPos.toNat < 12 ∨ 4 * d.palSize ≤ j then .fault .noRule
    else
      match s.inFifo with
      | [] => .next s
      | .eos :: rest => .next (raise .truncatedInput (posInfo s.inPos) { s with inFifo := rest })
      | .byte b :: rest =>
        let t := takePalByte j b { s with inFifo := rest }
        if j + 1 = 4 * d.palSize then .next (cfgDone { t with palLen := BitVec.ofNat 9 d.palSize })
        else .next t

/-- R172: the plane is complete. -/
def planeFinish (s : State) : State := complete { s with cfgValid := true, planeValid := true }

/-- PLANE step (R170 to R172). -/
def planeStep (s : State) : Result :=
  match s.inFifo with
  | [] => .next s
  | .eos :: rest => .next (planeFinish { s with inFifo := rest })
  | .byte b :: rest =>
    let t : State := { s with inFifo := rest, inPos := s.inPos + 1 }
    if t.planeLen = t.cfg.planeCap then .next (raise .planeOverflow t.cfg.planeCap t)
    else
      match memWrite t t.planeLen.toNat b with
      | none => .fault .planeOutOfRange
      | some u => .next { u with planeLen := u.planeLen + 1 }

/-- The codec's turn (R20): while BUSY = 0 it has nothing to do; else its phase's rule runs. -/
def codecStep (s : State) : Result :=
  if s.busy then
    match s.phase with
    | .idle => .fault .noRule
    | .hdr => hdrStep s
    | .dim => dimStep s
    | .pal => palStep s
    | .plane => planeStep s
    | .encHdr => encHdrStep s
    | .encPal => encPalStep s
    | .encPix => encPixStep s
  else .next s

end Sys2Proof.Machine
end

