-- ==== Sys2Proof/Machine/HostPort.lean ====
section
/-! DEFINITION. The actions of the host agent (10_state.md R20, R23, R39, R45; 70_reset_and_hazards.md
R250) and the host-program syntax (30_encoding.md R83, R84). -/

namespace Sys2Proof.Machine

/-- The host receives a value (the model's own record of reads and pops). -/
def received (x : HostData) (s : State) : State := { s with hostLog := s.hostLog ++ [x] }

/-- A word written to CMD (R23, R227): the command it decodes to runs; a word that is no command
raises IllegalCommand. -/
def issueWord (w : Word) (s : State) : Result :=
  match decode (.command w) with
  | .ok i => exec i s
  | .error (.illegalCommand w') => execIllegal w' s

/-- A host write of a whole word at a register offset (R23, R39, R59). -/
def writeOffset (off : Nat) (v : Word) (s : State) : Result :=
  match HostReg.ofOffset off with
  | some .CMD => issueWord v s
  | some r => .next (writeArg r v s)
  | none => .next s

/-- R250, R251: every register and FIFO at its reset value, whatever ran. The instance's parameters
stay (R252); the agenda and the host's record are the host's. -/
def resetAction (s : State) : State :=
  { State.reset with cfg := s.cfg, agenda := s.agenda, hostLog := s.hostLog }

/-- A pop of the OUT FIFO (R45, R59): the head byte leaves it. An empty FIFO gives nothing. -/
def popOut (s : State) : State :=
  match s.outFifo with
  | [] => received .outEmpty s
  | b :: rest => received (.outByte b) { s with outFifo := rest }

/-- One host action (R20). -/
def hostStep (a : HostAction) (s : State) : Result :=
  match a with
  | .read off size =>
    if hostAccessOk off size then .next (received (.reg off (readOffset s off)) s)
    else .refused .badHostAccess
  | .write off size v =>
    if hostAccessOk off size then writeOffset off v s else .refused .badHostAccess
  | .pushIn x => .next { s with inFifo := s.inFifo ++ [x] }
  | .pushPix x => .next { s with pixFifo := s.pixFifo ++ [x] }
  | .popOut => .next (popOut s)
  | .reset => .next (resetAction s)

/-- WAIT (R83): the host reads STATUS, and again after the codec's turn while BUSY = 1. -/
def waitStep (s : State) : State :=
  let t := received (.reg 0x04 s.statusWord) s
  if s.busy then { t with agenda := .codec :: .wait :: s.agenda } else t

/-- DRAIN (R83): the host pops until OUT is empty. -/
def drainStep (s : State) : State :=
  match s.outFifo with
  | [] => s
  | b :: rest => { received (.outByte b) { s with outFifo := rest } with agenda := .drain :: s.agenda }

/-! ### The host-program syntax -/

/-- `WR <reg>, <value>` (R83). -/
def hostWR (r : HostReg) (v : Word) : List Event := [.host (.write r.offset 4 v)]
/-- `RD <reg>` (R83). -/
def hostRD (r : HostReg) : List Event := [.host (.read r.offset 4)]
/-- `CMD <mnemonic> …` (R83). -/
def hostCMD (c : AsmCommand) : List Event := hostWR .CMD c.word
/-- `IN <byte> <byte> …` (R83). -/
def hostIN (bs : List Byte) : List Event := bs.map fun b => .host (.pushIn (.byte b))
/-- `IN EOS` (R83). -/
def hostINEos : List Event := [.host (.pushIn .eos)]
/-- `PIX (r16,g16,b16,a16)` (R83). -/
def hostPIX (c : Color16) : List Event := [.host (.pushPix (.pix c))]
/-- `PIX EOS` (R83). -/
def hostPIXEos : List Event := [.host (.pushPix .eos)]
/-- `WAIT` (R83). -/
def hostWAIT : List Event := [.wait]
/-- `DRAIN` (R83). -/
def hostDRAIN : List Event := [.drain]

/-- The macro `PIXEL x, y` (R84). -/
def macroPIXEL (x y : Word) : List Event :=
  hostWR .ARG_X x ++ hostWR .ARG_Y y ++ hostCMD { mnemonic := .PIX_RD }

/-- The word `(hi << 24) | (hi << 16) | (lo << 8) | lo` of the macros of R84. -/
def channelPair (hi lo : Byte) : Word := hi ++ hi ++ lo ++ lo

/-- The two writes of `QCOLOR` and `SETPAL` (R84). -/
def macroColor (r g b a : Byte) : List Event :=
  hostWR .ARG_RG (channelPair g r) ++ hostWR .ARG_BA (channelPair a b)

/-- The macro `QCOLOR dc, r, g, b, a` (R84). -/
def macroQCOLOR (dc : Nat) (r g b a : Byte) : List Event :=
  macroColor r g b a ++ hostCMD { mnemonic := .QUANT, dc := dc }

/-- The macro `SETPAL idx, r, g, b, a` (R84). -/
def macroSETPAL (idx : Nat) (r g b a : Byte) : List Event :=
  macroColor r g b a ++ hostCMD { mnemonic := .PAL_WR, idx := idx }

/-- The macro `DECODE` (R84). -/
def macroDECODE : List Event := hostCMD { mnemonic := .DEC_FULL } ++ hostWAIT

end Sys2Proof.Machine
end

