-- ==== Sys2Proof/Machine/Step.lean ====
section
/-! DEFINITION. One step of the machine: the next agent of the agenda acts (10_state.md R20,
20_memory.md R61); with no host action left, the codec does. -/

namespace Sys2Proof.Machine

/-- One atomic action (R58). The head of the agenda says whose; an empty agenda is the codec's turn. -/
def step (s : State) : Host.Outcome State Fault Refusal :=
  match s.agenda with
  | [] => codecStep s
  | .codec :: rest => codecStep { s with agenda := rest }
  | .host a :: rest => hostStep a { s with agenda := rest }
  | .wait :: rest => .next (waitStep { s with agenda := rest })
  | .drain :: rest => .next (drainStep { s with agenda := rest })

/-- The state in which the next step runs the instruction with the bits `w`.
The codec fetches nothing (R22). A 32-bit instruction is a command word, so the next action is the
host's write of it to CMD, with the codec idle (R23). An 8-bit one is the mode byte, so the codec is
put where it takes it: a decode at offset 7 with no signature mismatch, the byte at the head of IN,
and the turn is the codec's (R134). -/
def State.withFetchWord (s : State) (nbits w : Nat) : State :=
  if nbits = 8 then
    { s with
      busy := true
      phase := .hdr
      curOp := .decCfg
      inPos := 7
      sigMiss := 7
      inFifo := .byte (BitVec.ofNat 8 w) :: s.inFifo
      agenda := .codec :: s.agenda }
  else
    { s with
      busy := false
      phase := .idle
      curOp := .none
      agenda := .host (.write 0 4 (BitVec.ofNat 32 w)) :: s.agenda }

end Sys2Proof.Machine
end

