-- ==== Sys2Proof/Machine/ClosedForm.lean ====
section
/-! DEFINITION. The closed forms the spec gives beside its step rules, as functions on whole streams:
a decode (41_header_codec.md R141), the index of a pixel (43_pixel_plane.md R181), an encode
(44_encoder.md R206). The machine does not call them; statements compare it with them. -/

namespace Sys2Proof.Machine

/-! ### Decoding a stream (R141) -/

/-- The bytes of a list of IN items before its first `Eos`, or all of them. -/
def leadBytes : List InItem → List Byte
  | .byte b :: rest => b :: leadBytes rest
  | .eos :: _ => []
  | [] => []

/-- The first offset 0 to 6 at which the signature differs (R141). -/
def firstMismatch (bs : List Byte) : Option Nat := (List.range 7).find? fun j => bs[j]? != magic[j]?

/-- A configuration as `decodeConfig` returns it: mode, W, H, the depth, the palette, and the number
of stream bytes used. -/
structure ConfigResult where
  mode : Byte
  width : BitVec 16
  height : BitVec 16
  depth : Depth
  colors : List Color8
  used : Nat
deriving DecidableEq, Repr

/-- How a decode of a list of items ends: `Err(kind, info, stage)` with the number of items it
consumed, `Ok`, or not at all (the items run out with no `Eos`, and the decode waits, R255). -/
inductive DecodeOutcome (α : Type) where
  | waits
  | error (kind : ErrKind) (info : Nat) (stage : Phase) (consumed : Nat)
  | ok (r : α)
deriving DecidableEq, Repr

/-- The stream ends before a required byte (R139, R141): an `Eos` gives TruncatedInput with the number
of bytes before it. -/
def endsShort {α : Type} (s : List InItem) (stage : Phase) : DecodeOutcome α :=
  if (leadBytes s).length < s.length then
    .error .truncatedInput (leadBytes s).length stage ((leadBytes s).length + 1)
  else .waits

/-- The dimension bytes at offsets 8 to 11 (R75). -/
def streamDims (bs : List Byte) : Vector Byte 4 := #v[bs.getD 8 0, bs.getD 9 0, bs.getD 10 0, bs.getD 11 0]

/-- Palette entry k of a stream (R76, R153): offsets 12 + 4k to 15 + 4k. -/
def streamColor (bs : List Byte) (k : Nat) : Color8 :=
  colorFromBytes (bs.getD (12 + 4 * k) 0) (bs.getD (13 + 4 * k) 0) (bs.getD (14 + 4 * k) 0)
    (bs.getD (15 + 4 * k) 0)

/-- `decodeConfig(order, s)` (R141). -/
def decodeConfig (o : DimOrder) (s : List InItem) : DecodeOutcome ConfigResult :=
  let bs := leadBytes s
  if bs.length < 8 then endsShort s .hdr
  else
    match firstMismatch bs with
    | some m => .error .signatureMismatch m .hdr 8
    | none =>
      if bs.length < 12 then endsShort s .dim
      else
        let mode := bs.getD 7 0
        let w := dimWidth o (streamDims bs)
        let h := dimHeight o (streamDims bs)
        match depthOf (modeDC mode) with
        | none => .error .unsupportedBitDepth 3 .dim 12
        | some d =>
          if modePF mode then
            if bs.length < 12 + 4 * d.palSize then endsShort s .pal
            else .ok ⟨mode, w, h, d, (List.range d.palSize).map (streamColor bs), 12 + 4 * d.palSize⟩
          else .ok ⟨mode, w, h, d, (List.range d.palSize).map fun k => rom d (BitVec.ofNat 8 k), 12⟩

/-- DEC_FULL on a list of items (R141, R170 to R172): the configuration, then the plane up to the
first `Eos` after it, with PlaneOverflow at the first byte past `cap`. -/
def decodeFull (o : DimOrder) (cap : Nat) (s : List InItem) : DecodeOutcome (ConfigResult × List Byte) :=
  match decodeConfig o s with
  | .waits => .waits
  | .error k i st n => .error k i st n
  | .ok c =>
    let p := leadBytes (s.drop c.used)
    if cap < p.length then .error .planeOverflow cap .plane (c.used + cap + 1)
    else if p.length < (s.drop c.used).length then .ok (c, p)
    else .waits

/-! ### The index of a pixel (R181) -/

/-- The result of `indexAt` (R181). -/
inductive PixelIndex where
  | oob
  | shortPlane (a : Nat)
  | index (i : Byte)
deriving DecidableEq, Repr

/-- `indexAt(dc, W, H, P, x, y)` (R181), on the captured plane as a byte list. -/
def indexAt (d : Depth) (w h : BitVec 16) (plane : List Byte) (x y : Int) : PixelIndex :=
  if 0 ≤ x ∧ x < w.toNat ∧ 0 ≤ y ∧ y < h.toNat then
    let p := y.toNat * w.toNat + x.toNat
    match plane[byteAddr d p]? with
    | none => .shortPlane (byteAddr d p)
    | some b => .index (unpackIndex d p b)
  else .oob

/-! ### Encoding an image (R206) -/

/-- The byte number m of a packed plane (R206): the indices m·n to m·n + n - 1, n to a byte, the
first in the highest bits; positions past the last index are 0. -/
def packByte (d : Depth) (qs : List Byte) (m : Nat) : Byte :=
  (List.range d.perByte).foldl
    (fun acc k => acc ||| (qs.getD (m * d.perByte + k) 0 <<< (8 - d.bits * (k + 1)))) 0

/-- `pack(dc, qs)` (R206). -/
def pack (d : Depth) (qs : List Byte) : List Byte :=
  (List.range ((qs.length + d.perByte - 1) / d.perByte)).map (packByte d qs)

/-- The palette bytes an encode emits (R196, R206). -/
def paletteBytes (d : Depth) (color : Byte → Color8) : List Byte :=
  (List.range d.palSize).flatMap fun k =>
    let c := color (BitVec.ofNat 8 k)
    [c.r, c.g, c.b, c.a]

/-- The indices of an image's pixels (R206). -/
def quantized (d : Depth) (px : List Color16) : List Byte := px.map fun c => quantize d (colorAsBytes c)

/-- `encode(order, dc, ep, ps, W, H, px, pal)` (R206), on the first W·H pixels. -/
def encodeStream (o : DimOrder) (d : Depth) (ep ps : Bool) (w h : BitVec 16) (px : List Color16)
    (pal : Byte → Color8) : List Byte :=
  headerBytes o d.code ep w h
    ++ (if ep then paletteBytes d (if ps then pal else rom d) else [])
    ++ pack d (quantized d (px.take (w.toNat * h.toNat)))

end Sys2Proof.Machine
end

