-- ==== Sys2Proof/Safety.lean ====
section
/-! DEFINITION. The invariant of the machine, what a host that keeps its duties does, and what a hang
is (10_state.md R24, R25, R29, R30, R36 to R38, R44; 70_reset_and_hazards.md R254, R255). -/

namespace Sys2Proof.Machine

/-- The length of header and palette of a stream (30_encoding.md R82): 12 + 4·N·mode[5]. -/
def headerLen (d : Depth) (pf : Bool) : Nat := 12 + if pf then 4 * d.palSize else 0

/-- No configuration is held: what R132 and R224 leave. -/
def State.ConfigCleared (s : State) : Prop :=
  s.cfgValid = false ∧ s.planeValid = false ∧ s.width = 0 ∧ s.height = 0 ∧ s.palLen = 0 ∧ s.planeLen = 0

/-- R24: which stream command each phase runs under. -/
def State.OpMatchesPhase (s : State) : Prop :=
  match s.phase with
  | .idle => s.curOp = .none
  | .hdr | .dim | .pal => s.curOp = .decCfg ∨ s.curOp = .decFull
  | .plane => s.curOp = .decFull
  | .encHdr | .encPal | .encPix => s.curOp = .enc

/-- Where each phase stands in its stream: the ranges of IN_POS, OUT_POS, PIX_CNT, NFILL and ACC that
the rules R133, R134, R137, R152, R170, R195, R196 and R200 give it. -/
def State.PositionOk (s : State) : Prop :=
  match s.phase with
  | .idle => True
  | .hdr => s.inPos.toNat ≤ 7 ∧ s.mode = 0 ∧ s.ConfigCleared
  | .dim => 8 ≤ s.inPos.toNat ∧ s.inPos.toNat ≤ 11 ∧ s.ConfigCleared
  | .pal => ∃ d, depthOf (modeDC s.mode) = some d ∧ modePF s.mode = true ∧ 12 ≤ s.inPos.toNat ∧
      s.inPos.toNat < 12 + 4 * d.palSize ∧ s.cfgValid = false ∧ s.planeValid = false ∧
      s.palLen = 0 ∧ s.planeLen = 0
  | .plane => ∃ d, depthOf (modeDC s.mode) = some d ∧
      s.inPos.toNat = headerLen d (modePF s.mode) + s.planeLen.toNat ∧ s.cfgValid = false ∧
      s.planeValid = false ∧ s.palLen.toNat = d.palSize
  | .encHdr => (∃ d, depthOf s.eDC = some d) ∧ s.outPos.toNat < 12 ∧ s.pixCnt = 0 ∧ s.nfill = 0 ∧ s.acc = 0
  | .encPal => ∃ d, depthOf s.eDC = some d ∧ s.eEP = true ∧ 12 ≤ s.outPos.toNat ∧
      s.outPos.toNat < 12 + 4 * d.palSize ∧ s.pixCnt = 0 ∧ s.nfill = 0 ∧ s.acc = 0
  | .encPix => ∃ d, depthOf s.eDC = some d ∧ s.pixCnt.toNat ≤ totalPixels s ∧
      s.nfill.toNat = s.pixCnt.toNat % d.perByte ∧
      s.outPos.toNat = headerLen d s.eEP + s.pixCnt.toNat / d.perByte ∧
      s.acc.toNat % 2 ^ (8 - d.bits * s.nfill.toNat) = 0

/-- The invariant of the codec: it holds right after reset and every step keeps it. -/
structure State.Inv (s : State) : Prop where
  /-- R24: BUSY = 1 exactly when PHASE ≠ IDLE. -/
  busyPhase : s.busy = true ↔ s.phase ≠ .idle
  /-- R24: the phases under their commands. -/
  opPhase : s.OpMatchesPhase
  /-- R24: STATUS.ERR equals (ERR.KIND ≠ 0). -/
  errFlag : s.err = true ↔ s.errKind ≠ .none
  /-- R26: ERR_INFO is 0 when ERR.KIND = 0; and so is ERR.STAGE. -/
  errClear : s.errKind = .none → s.errInfo = 0 ∧ s.errStage = .idle
  /-- R34: RES_IDX is 0 unless IDX_VALID = 1. -/
  idxClear : s.idxValid = false → s.resIdx = 0
  /-- R173: an out-of-bounds result has no index and the sentinel color. -/
  oobResult : s.oob = true → s.idxValid = false ∧ s.resColor = sentinel
  /-- R29: PAL_LEN is one of 0, 2, 4, 256. -/
  palLenLegal : s.palLen = 0 ∨ s.palLen = 2 ∨ s.palLen = 4 ∨ s.palLen = 256
  /-- R30: PLANE_LEN ≤ PLANE_CAP. -/
  planeFits : s.planeLen.toNat ≤ s.cfg.planeCap.toNat
  /-- The pixel-plane memory is in canonical form. -/
  planeWf : Memory.wf s.plane
  /-- R43: the bytes at addresses 0 to PLANE_LEN - 1 are held. -/
  planeHeld : ∀ a, a < s.planeLen.toNat → (s.plane.read a).isSome = true
  /-- R24: a valid plane belongs to a valid configuration. -/
  planeCfg : s.planeValid = true → s.cfgValid = true
  /-- R44: a valid configuration has a depth, and a palette. -/
  cfgDepth : s.cfgValid = true → depthOf (modeDC s.mode) ≠ none ∧ s.palLen ≠ 0
  /-- R173: with no valid configuration and no decode running, WIDTH = HEIGHT = 0. -/
  noCfg : s.cfgValid = false → s.curOp.isDecode = false →
    s.mode = 0 ∧ s.width = 0 ∧ s.height = 0 ∧ s.planeLen = 0 ∧ s.planeValid = false
  /-- The positions of the running phase. -/
  position : s.PositionOk
  /-- R36: IN_POS is bounded; the byte that overflows the plane is counted too (R170). -/
  inPosBound : s.inPos.toNat ≤ 12 + 1024 + s.cfg.planeCap.toNat + 1
  /-- R37: OUT_POS is bounded. -/
  outPosBound : s.outPos.toNat ≤ 12 + 1024 + 4294836225
  /-- R38: PIX_CNT is bounded. -/
  pixCntBound : s.pixCnt.toNat ≤ 4294836225
  /-- R227: what acceptance cleared stays clear while a stream command runs. -/
  busyClear : s.busy = true →
    s.err = false ∧ s.idxValid = false ∧ s.oob = false ∧ s.palMiss = false ∧ s.resColor = sentinel

/-- The next action keeps the host duties (R39, R254): a register access is one aligned word below
0x100, and CMD is not written while BUSY = 1. -/
def State.DutyKept (s : State) : Prop :=
  match s.agenda with
  | .host (.read off size) :: _ => hostAccessOk off size = true
  | .host (.write off size _) :: _ =>
    hostAccessOk off size = true ∧ (off = HostReg.offset .CMD → s.busy = false)
  | _ => True

/-- The outcome is a next state. -/
def Continues (r : Result) : Prop := ∃ t, r = .next t

/-- The codec waits (R45, R255, R256): it is busy and the FIFO its phase needs is empty. -/
def State.Waiting (s : State) : Prop :=
  s.busy = true ∧
    ((s.inFifo = [] ∧ (s.phase = .hdr ∨ s.phase = .dim ∨ s.phase = .pal ∨ s.phase = .plane)) ∨
     (s.pixFifo = [] ∧ s.phase = .encPix ∧ s.pixCnt.toNat < totalPixels s))

/-- A hang (R255; 93_implementation_defined.md U14): the codec waits and no host action is to come. -/
def State.Hung (s : State) : Prop := s.Waiting ∧ s.agenda = []

/-- The codec is idle: no stream command runs. By the invariant this is BUSY = 0. -/
def State.Idle (s : State) : Prop := s.busy = false ∧ s.phase = .idle ∧ s.curOp = .none

/-- The state an immediate command leaves when it completes, before its own results (R227): CMD holds
its word, the error record and the results are clear, the codec is idle. -/
def idleAfter (w : Word) (s : State) : State :=
  { s with
    cmd := w
    errKind := .none
    errStage := .idle
    errInfo := 0
    err := false
    idxValid := false
    oob := false
    palMiss := false
    resIdx := 0
    resColor := ⟨0, 0, 0, 0⟩
    curOp := .none
    busy := false
    phase := .idle }

/-- The state a command leaves when it raises an error at acceptance (R221, R223, R227): as
`idleAfter`, with the error recorded at STAGE 0. -/
def failedAfter (w : Word) (kind : ErrKind) (info : Word) (s : State) : State :=
  { idleAfter w s with errKind := kind, errInfo := info, err := true }

/-- The state a decode leaves when a step of it raises an error (R221, R224): the error recorded with
the phase of the step, the configuration cleared, the codec idle. -/
def decodeFailed (kind : ErrKind) (info : Word) (s : State) : State :=
  { s with
    errKind := kind
    errStage := s.phase
    errInfo := info
    err := true
    cfgValid := false
    planeValid := false
    mode := 0
    width := 0
    height := 0
    palLen := 0
    planeLen := 0
    curOp := .none
    busy := false
    phase := .idle }

/-- Only the listed fields may differ from `s` to `t`: those the acceptance, the completion and the
results of a command write (R221, R227). -/
def CommandFrame (s t : State) : Prop :=
  t = { s with
    cmd := t.cmd
    errKind := t.errKind
    errStage := t.errStage
    errInfo := t.errInfo
    err := t.err
    idxValid := t.idxValid
    oob := t.oob
    palMiss := t.palMiss
    resIdx := t.resIdx
    resColor := t.resColor
    curOp := t.curOp
    busy := t.busy
    phase := t.phase }

/-- The two states hold the same in every field that a decode writes and an encode does not (R205). -/
def SameDecodeSide (s t : State) : Prop :=
  t.mode = s.mode ∧ t.width = s.width ∧ t.height = s.height ∧ t.palette = s.palette ∧
    t.palLen = s.palLen ∧ t.plane = s.plane ∧ t.planeLen = s.planeLen ∧ t.inPos = s.inPos ∧
    t.cfgValid = s.cfgValid ∧ t.planeValid = s.planeValid ∧ t.inFifo = s.inFifo

/-- `k` steps of the machine, stopping at the first fault or refusal. -/
def stepsTo : Nat → State → Result
  | 0, s => .next s
  | k + 1, s =>
    match step s with
    | .next t => stepsTo k t
    | .fault f => .fault f
    | .refused r => .refused r

end Sys2Proof.Machine
end

