-- ==== Sys2Proof/Certificates/Slice0/Obligations.lean ====
section
/-! DEFINITION. The statements about the machine, for the provers. -/

open Sys2Proof Sys2Proof.Machine

/-! ### Encoding and decoding -/

/-- 30_encoding.md R70 to R74: decoding the code unit of a well-formed instruction gives it back, with
every operand at every value its field admits; and a code unit that is decoded is exactly the encoding
of its instruction, which is well-formed, so every bit of an accepted word or mode byte is accounted
for. That a word of ENC with a bit in [15:8] decodes to nothing is the model's reading of R72, where
its mask and its prose differ (log entry 16). -/
def Obligations.DecodeInvertsEncode : Prop :=
  ∀ (i : Instr) (u : CodeUnit), decode u = .ok i ↔ i.wellFormed = true ∧ encode i = u

/-- R72: at most one row of the command table selects a word; a word that a row accepts (the row selects
it and its unused fields are 0) decodes to an instruction of that row; a word that no row accepts is
rejected by name. For every row but ENC the two conditions are one, by its mask; that an ENC word
with a bit in [15:8], which R72's mask selects, is rejected is the model's reading (log entry 16). -/
def Obligations.CommandTableRowsSelectDecoding : Prop :=
  ∀ w : Word,
    (commandRows.filter fun row => row.selects w).length ≤ 1 ∧
    (∀ row ∈ commandRows, row.accepts w = true →
      ∃ i, decode (.command w) = .ok i ∧ i.mnemonic = row.mnemonic) ∧
    ((∀ row ∈ commandRows, row.accepts w = false) → decode (.command w) = .error (.illegalCommand w)) ∧
    (∀ row ∈ commandRows, row.mnemonic ≠ "ENC" → row.accepts w = row.selects w)

/-- R74: the row of a mode byte is the one of its bits [7:6], and it keeps bit [5] and bits [4:0]. -/
def Obligations.ModeByteRowsFollowDepthCode : Prop :=
  ∀ b : Byte,
    ((b &&& 0xC0 = 0x00 → decode (.modeByte b) = .ok (.modeD1 (b.getLsbD 5) (b.extractLsb' 0 5))) ∧
     (b &&& 0xC0 = 0x40 → decode (.modeByte b) = .ok (.modeD2 (b.getLsbD 5) (b.extractLsb' 0 5))) ∧
     (b &&& 0xC0 = 0x80 → decode (.modeByte b) = .ok (.modeD8 (b.getLsbD 5) (b.extractLsb' 0 5))) ∧
     (b &&& 0xC0 = 0xC0 → decode (.modeByte b) = .ok (.modeBad (b.getLsbD 5) (b.extractLsb' 0 5))))

/-- R83: the word of a well-formed `CMD` line decodes to the instruction the line stands for. -/
def Obligations.AssembledCommandLinesDecode : Prop :=
  ∀ c : AsmCommand, c.wellFormed = true → decode (.command c.word) = .ok c.instr

/-- 95_test_vectors.md: words and mode bytes of the worked vectors decode to their instructions, and
the illegal words V90 to V97 are rejected. -/
def Obligations.WorkedVectorWordsDecode : Prop :=
  decode (.command 0x00000001) = .ok .decCfg ∧
  decode (.command 0x00000002) = .ok .decFull ∧
  decode (.command 0x00000053) = .ok (.enc 1 true false 0) ∧
  decode (.command 0x000000C3) = .ok (.enc 0 true true 0) ∧
  decode (.command 0x00000004) = .ok .pixRd ∧
  decode (.command 0x00000505) = .ok (.palRd 5) ∧
  decode (.command 0x00000106) = .ok (.palWr 1) ∧
  decode (.command 0x00000037) = .ok (.palDef 3) ∧
  decode (.command 0x00000028) = .ok (.quant 2) ∧
  decode (.modeByte 0x1F) = .ok (.modeD1 false 0x1F) ∧
  decode (.modeByte 0x60) = .ok (.modeD2 true 0) ∧
  decode (.modeByte 0x80) = .ok (.modeD8 false 0) ∧
  decode (.modeByte 0xC0) = .ok (.modeBad false 0) ∧
  (∀ w ∈ ([0x0, 0x9, 0xF, 0x10001, 0x11, 0x104, 0xC4, 0xF7, 0x10000003] : List Word),
    decode (.command w) = .error (.illegalCommand w))

/-! ### A step runs the decoded instruction -/

/-- R23: a host write of a word to CMD runs the instruction the word decodes to, at the state with that
action taken off the agenda. -/
def Obligations.CmdWriteRunsDecodedCommand : Prop :=
  ∀ (s : State) (w : Word) (i : Instr) (rest : List Event),
    s.agenda = .host (.write 0x00 4 w) :: rest → decode (.command w) = .ok i →
      step s = exec i { s with agenda := rest }

/-- R134, 42_palette_codec.md R150: the codec's turn at stream offset 7 takes the byte off IN and runs
the mode byte it decodes to; its turn at offset 11 stores the last dimension byte, assembles the
dimensions, and runs the mode byte held in MODE, which resolves the color model. A turn is the
codec's by the agenda, or because the agenda is empty. -/
def Obligations.CodecStepRunsModeByte : Prop :=
  ∀ (s : State) (b : Byte) (rest : List InItem) (i : Instr) (ev : List Event),
    s.busy = true → s.inFifo = .byte b :: rest → (s.agenda = .codec :: ev ∨ (s.agenda = [] ∧ ev = [])) →
    (s.phase = .hdr → s.inPos = 7 → decode (.modeByte b) = .ok i →
      step s = exec i { s with inFifo := rest, agenda := ev }) ∧
    (s.phase = .dim → s.inPos = 11 → decode (.modeByte s.mode) = .ok i →
      step s = exec i { s with
        inFifo := rest
        agenda := ev
        dimBuf := s.dimBuf.set 3 b
        inPos := 12
        width := dimWidth s.cfg.dimOrder (s.dimBuf.set 3 b)
        height := dimHeight s.cfg.dimOrder (s.dimBuf.set 3 b) })

/-- R20, R61: a codec turn does what the codec's rules say whoever acts later. With the turn the codec's
and host actions `ev` still to come, the step is the codec's step with the turn taken off; and it is
the step at an empty agenda with `ev` to come afterwards, so what a statement says of a codec turn at
an empty agenda holds at every agenda. (The agenda is the model's own field, log entry 1.) -/
def Obligations.CodecTurnIgnoresLaterActions : Prop :=
  ∀ (s : State) (ev : List Event), s.agenda = .codec :: ev →
    step s = codecStep { s with agenda := ev } ∧
    match step { s with agenda := [] } with
    | .next t => step s = .next { t with agenda := ev } ∧ t.agenda = []
    | .fault f => step s = .fault f
    | .refused r => step s = .refused r

/-! ### Accepting commands -/

/-- R227, R72, R81: a word that is no legal command (no row accepts it) is accepted and raises
IllegalCommand with ERR_INFO the word and STAGE 0; it does nothing else. (For ENC words with a bit in
[15:8] this is log entry 16.) -/
def Obligations.IllegalWordRaisesIllegalCommand : Prop :=
  ∀ (s : State) (w : Word) (rest : List Event), s.Idle →
    s.agenda = .host (.write 0x00 4 w) :: rest →
    (∀ row ∈ commandRows, row.accepts w = false) →
      step s = .next (failedAfter w .illegalCommand w { s with agenda := rest })

/-- R23, R24, R26, R46, R227: the outcome of a command does not depend on the command, the results and
the error before it; after it CMD reads as its word, STATUS.ERR equals (ERR.KIND ≠ 0), and without an
error ERR_INFO and ERR.STAGE are 0. -/
def Obligations.CommandsForgetTheCommandBefore : Prop :=
  ∀ (i : Instr) (w : Word) (s : State), encode i = .command w →
    (∀ (cmd : Word) (ek : ErrKind) (es : Phase) (ei : Word) (err iv oob pm : Bool) (ri : Byte) (rc : Color8),
      exec i { s with cmd := cmd, errKind := ek, errStage := es, errInfo := ei, err := err,
                      idxValid := iv, oob := oob, palMiss := pm, resIdx := ri, resColor := rc }
        = exec i s) ∧
    (∀ t, exec i s = .next t →
      t.cmd = w ∧ (t.err = true ↔ t.errKind ≠ .none) ∧
      (t.errKind = .none → t.errInfo = 0 ∧ t.errStage = .idle))

/-! ### The immediate commands -/

/-- 40_color_model.md R108, QUANT: the index of the truncated operand color at the depth, or
UnsupportedBitDepth with ERR_INFO 3 at STAGE 0 for DC = 11; nothing else changes. -/
def Obligations.QuantGivesIndexOfOperand : Prop :=
  ∀ (s : State) (dc : BitVec 2) (w : Word), encode (.quant dc) = .command w → s.Idle →
    (∀ d, depthOf dc = some d →
      exec (.quant dc) s = .next { idleAfter w s with
        resIdx := quantize d
          ⟨s.argRG.extractLsb' 8 8, s.argRG.extractLsb' 24 8, s.argBA.extractLsb' 8 8, s.argBA.extractLsb' 24 8⟩
        idxValid := true }) ∧
    (dc = 3 → exec (.quant dc) s = .next (failedAfter w .unsupportedBitDepth 3 s))

/-- R109, PAL_RD: RES_IDX is the index, RES_COLOR the palette entry, or the sentinel with PAL_MISS when
the index is at or past PAL_LEN; nothing else changes. -/
def Obligations.PalRdLooksIndexUp : Prop :=
  ∀ (s : State) (idx : Byte) (w : Word), encode (.palRd idx) = .command w → s.busy = false →
    exec (.palRd idx) s = .next { idleAfter w s with
      resIdx := idx
      idxValid := true
      resColor := if idx.toNat < s.palLen.toNat then s.palette[idx.toNat]'idx.isLt else ⟨0, 0, 0, 0⟩
      palMiss := decide (s.palLen.toNat ≤ idx.toNat) }

/-- 42_palette_codec.md R159, PAL_WR: the entry becomes the truncated operand color; PAL_LEN, the other
entries and everything else stay. -/
def Obligations.PalWrWritesOneEntry : Prop :=
  ∀ (s : State) (idx : Byte) (w : Word), encode (.palWr idx) = .command w → s.busy = false →
    ∃ t, exec (.palWr idx) s = .next t ∧ t = { idleAfter w s with palette := t.palette } ∧
      ∀ k : Fin 256, t.palette[k] =
        if k.val = idx.toNat then
          ⟨s.argRG.extractLsb' 8 8, s.argRG.extractLsb' 24 8, s.argBA.extractLsb' 8 8, s.argBA.extractLsb' 24 8⟩
        else s.palette[k]

/-- R158, PAL_DEF: entries 0 to N-1 become the built-in palette of the depth and PAL_LEN becomes N; for
DC = 11 UnsupportedBitDepth with ERR_INFO 3 at STAGE 0 and the palette file unchanged. -/
def Obligations.PalDefLoadsBuiltinPalette : Prop :=
  ∀ (s : State) (dc : BitVec 2) (w : Word), encode (.palDef dc) = .command w → s.Idle →
    (∀ d, depthOf dc = some d →
      ∃ t, exec (.palDef dc) s = .next t ∧
        t = { idleAfter w s with palette := t.palette, palLen := BitVec.ofNat 9 d.palSize } ∧
        ∀ k : Fin 256, t.palette[k] =
          if k.val < d.palSize then rom d (BitVec.ofNat 8 k.val) else s.palette[k]) ∧
    (dc = 3 → exec (.palDef dc) s = .next (failedAfter w .unsupportedBitDepth 3 s))

/-- 43_pixel_plane.md R173, R174, PIX_RD of a coordinate outside the image: the sentinel with
STATUS.OOB, no index, no error, whatever the plane and the mode hold. -/
def Obligations.PixRdOutsideImageGivesSentinel : Prop :=
  ∀ (s : State) (w : Word), encode .pixRd = .command w → s.busy = false →
    (s.argX.toInt < 0 ∨ (s.width.toNat : Int) ≤ s.argX.toInt ∨ s.argY.toInt < 0 ∨
      (s.height.toNat : Int) ≤ s.argY.toInt) →
      exec .pixRd s = .next { idleAfter w s with oob := true }

/-- R181, PIX_RD on a captured plane given as a byte list: what `indexAt` says, with the palette color
of the index, the sentinel outside the image, and ShortPlane with the byte address past the plane. -/
def Obligations.PixRdIsClosedFormIndexAt : Prop :=
  ∀ (s : State) (d : Depth) (plane : List Byte) (w : Word), encode .pixRd = .command w → s.Idle →
    depthOf (modeDC s.mode) = some d → plane.length = s.planeLen.toNat →
    (∀ a, a < plane.length → s.plane.read a = plane[a]?) →
      match indexAt d s.width s.height plane s.argX.toInt s.argY.toInt with
      | .oob => exec .pixRd s = .next { idleAfter w s with oob := true }
      | .shortPlane a => exec .pixRd s = .next (failedAfter w .shortPlane (BitVec.ofNat 32 a) s)
      | .index i => exec .pixRd s = .next { idleAfter w s with
          resIdx := i
          idxValid := true
          resColor := if i.toNat < s.palLen.toNat then s.palette[i.toNat]'i.isLt else ⟨0, 0, 0, 0⟩
          palMiss := decide (s.palLen.toNat ≤ i.toNat) }

/-- R176 to R178, R55: the byte that holds pixel offset p and the bits of it that are the index: one
bit, two bits or the whole byte, the first pixel of a byte in its most significant bits. -/
def Obligations.UnpackedFieldsAreMsbFirst : Prop :=
  ∀ (p : Nat) (b : Byte),
    (byteAddr .d1 p = p / 8 ∧
      unpackIndex .d1 p b = (BitVec.ofBool (b.getMsbD (p % 8))).setWidth 8) ∧
    (byteAddr .d2 p = p / 4 ∧
      unpackIndex .d2 p b =
        (BitVec.ofBool (b.getMsbD (p % 4 * 2)) ++ BitVec.ofBool (b.getMsbD (p % 4 * 2 + 1))).setWidth 8) ∧
    (byteAddr .d8 p = p ∧ unpackIndex .d8 p b = b)

/-! ### The color model -/

/-- R100, R102 to R104: a 16-bit channel is truncated to its top byte, with no rounding; the OneBit
index is 1 exactly when r | g | b and a are at least 128, the TwoBit index is the top two bits of
r | g | b, or 0 for a below 128, and the EightBit index is `{ a[7:6], b[7:6], g[7:6], r[7:6] }`. -/
def Obligations.ColorModelFollowsItsRules : Prop :=
  (∀ v : BitVec 16, (channelAsByte v).toNat = v.toNat / 256) ∧
  (∀ c : Color8, quantize .d1 c = if (c.r.msb || c.g.msb || c.b.msb) && c.a.msb then 1 else 0) ∧
  (∀ c : Color8, quantize .d2 c =
    if c.a.msb then ((c.r ||| c.g ||| c.b).extractLsb' 6 2).setWidth 8 else 0) ∧
  (∀ c : Color8, quantize .d8 c =
    c.a.extractLsb' 6 2 ++ c.b.extractLsb' 6 2 ++ c.g.extractLsb' 6 2 ++ c.r.extractLsb' 6 2)

/-- R155 to R157: the built-in palettes (the spec's own choices D8, D9, D10), and the quantizer of each
depth sends each entry of its built-in palette to the entry's index. -/
def Obligations.QuantizersInvertBuiltinPalettes : Prop :=
  rom .d1 0 = ⟨0, 0, 0, 255⟩ ∧ rom .d1 1 = ⟨255, 255, 255, 255⟩ ∧
  (∀ k : Byte, k.toNat < 4 → rom .d2 k = ⟨k * 0x55, k * 0x55, k * 0x55, 255⟩) ∧
  (∀ i : Byte, rom .d8 i = ⟨(i.extractLsb' 0 2).setWidth 8 * 0x55, (i.extractLsb' 2 2).setWidth 8 * 0x55,
    (i.extractLsb' 4 2).setWidth 8 * 0x55, (i.extractLsb' 6 2).setWidth 8 * 0x55⟩) ∧
  (∀ (d : Depth) (k : Byte), k.toNat < d.palSize → quantize d (rom d k) = k)

/-! ### The decode commands and the mode byte -/

/-- 41_header_codec.md R132: the acceptance of DEC_CFG and DEC_FULL discards the configuration and
starts the HDR phase; every other register, the FIFOs and PLANE stay. -/
def Obligations.DecodeCommandsStartHeaderPhase : Prop :=
  ∀ (s : State) (i : Instr) (op : CurOp) (w : Word),
    ((i = .decCfg ∧ op = .decCfg) ∨ (i = .decFull ∧ op = .decFull)) →
    encode i = .command w → s.busy = false →
      exec i s = .next { idleAfter w s with
        curOp := op
        busy := true
        phase := .hdr
        inPos := 0
        sigMiss := 7
        dimBuf := #v[0, 0, 0, 0]
        eb := #v[0, 0, 0]
        cfgValid := false
        planeValid := false
        mode := 0
        width := 0
        height := 0
        palLen := 0
        planeLen := 0 }

/-- R134, R135: at offset 7 the mode byte of every row is taken verbatim into MODE and the DIM phase
begins, when no signature byte differed; else it ends the decode with SignatureMismatch, ERR_INFO
the offset of the first byte that differed, STAGE HDR, and no configuration. -/
def Obligations.ModeByteIsTakenOrReportsMismatch : Prop :=
  ∀ (s : State) (i : Instr) (b : Byte), encode i = .modeByte b →
    s.busy = true → s.phase = .hdr → s.inPos = 7 →
    (s.sigMiss = 7 → exec i s = .next { s with inPos := 8, mode := b, phase := .dim }) ∧
    (s.sigMiss ≠ 7 → (s.curOp = .decCfg ∨ s.curOp = .decFull) →
      exec i s = .next (decodeFailed .signatureMismatch (s.sigMiss.setWidth 32) { s with inPos := 8 }))

/-- 42_palette_codec.md R150, R151, 41_header_codec.md R140: the resolution that a mode byte selects at
the end of the DIM phase: UnsupportedBitDepth for code 11, the PAL phase with an in-file palette,
else the built-in palette with N entries, which completes DEC_CFG and starts the plane of DEC_FULL.
The point it speaks of, DIM with IN_POS = 12, lies inside the one step that consumes offset 11: that the
resolution is the meaning of the mode-byte rows there is the model's, log entry 4. -/
def Obligations.ModeByteResolvesColorModel : Prop :=
  ∀ (s : State) (i : Instr) (b : Byte), encode i = .modeByte b →
    s.busy = true → s.phase = .dim → s.inPos = 12 → s.mode = b →
    (s.curOp = .decCfg ∨ s.curOp = .decFull) →
    (b.extractLsb' 6 2 = 3 → exec i s = .next (decodeFailed .unsupportedBitDepth 3 s)) ∧
    (∀ d, depthOf (b.extractLsb' 6 2) = some d →
      (b.getLsbD 5 = true → exec i s = .next { s with phase := .pal }) ∧
      (b.getLsbD 5 = false → ∃ t, exec i s = .next t ∧
        (∀ k : Fin 256, t.palette[k] =
          if k.val < d.palSize then rom d (BitVec.ofNat 8 k.val) else s.palette[k]) ∧
        (s.curOp = .decCfg → t = { s with
          palette := t.palette, palLen := BitVec.ofNat 9 d.palSize, cfgValid := true
          curOp := .none, busy := false, phase := .idle }) ∧
        (s.curOp = .decFull → t = { s with
          palette := t.palette, palLen := BitVec.ofNat 9 d.palSize, phase := .plane })))

/-- R133: the HDR step at offset k = 0 to 6. A signature byte: a first difference is recorded in
SIG_MISS, and IN_POS advances; nothing is reported yet. An `Eos`: TruncatedInput with ERR_INFO = k at
STAGE HDR. With IN empty R133 is not enabled; that the waiting codec then takes a step that changes
nothing is the model's choice, log entry 1. -/
def Obligations.SignatureByteRecordsFirstMismatch : Prop :=
  ∀ (s : State) (rest : List InItem), s.busy = true → s.phase = .hdr →
    (s.curOp = .decCfg ∨ s.curOp = .decFull) → s.inPos.toNat < 7 → s.agenda = [] →
    (∀ b, s.inFifo = .byte b :: rest →
      step s = .next { s with
        inFifo := rest
        inPos := s.inPos + 1
        sigMiss := if ([0x49, 0x4D, 0x52, 0x45, 0x54, 0x52, 0x4F] : List Byte)[s.inPos.toNat]? ≠ some b ∧ s.sigMiss = 7
          then s.inPos.setWidth 3 else s.sigMiss }) ∧
    (s.inFifo = .eos :: rest →
      step s = .next (decodeFailed .truncatedInput (s.inPos.setWidth 32) { s with inFifo := rest })) ∧
    (s.inFifo = [] → step s = .next s)

/-- R137: a dimension byte at offset k = 8, 9 or 10 goes to DIM_BUF[k - 8]. -/
def Obligations.DimensionByteFillsDimBuf : Prop :=
  ∀ (s : State) (b : Byte) (rest : List InItem), s.busy = true → s.phase = .dim →
    8 ≤ s.inPos.toNat → s.inPos.toNat < 11 → s.inFifo = .byte b :: rest → s.agenda = [] →
      ∃ t, step s = .next t ∧
        t = { s with inFifo := rest, inPos := s.inPos + 1, dimBuf := t.dimBuf } ∧
        ∀ k : Fin 4, t.dimBuf[k] = if k.val + 8 = s.inPos.toNat then b else s.dimBuf[k]

/-- R78, R138, R194: width and height from the four dimension bytes in the instance's order, the two
bytes the encoder emits for a dimension, and that the two agree. -/
def Obligations.DimensionOrderIsShared : Prop :=
  (∀ d : Vector Byte 4,
    dimWidth .be d = d[0] ++ d[1] ∧ dimHeight .be d = d[2] ++ d[3] ∧
    dimWidth .le d = d[1] ++ d[0] ∧ dimHeight .le d = d[3] ++ d[2]) ∧
  (∀ v : BitVec 16,
    dimBytes .be v = [v.extractLsb' 8 8, v.extractLsb' 0 8] ∧
    dimBytes .le v = [v.extractLsb' 0 8, v.extractLsb' 8 8]) ∧
  (∀ (o : DimOrder) (w h : BitVec 16) (b0 b1 b2 b3 : Byte),
    dimBytes o w ++ dimBytes o h = [b0, b1, b2, b3] →
      dimWidth o #v[b0, b1, b2, b3] = w ∧ dimHeight o #v[b0, b1, b2, b3] = h)

/-- R139, R152: an `Eos` in the HDR, DIM or PAL phase ends the decode with TruncatedInput, ERR_INFO the
number of bytes received, STAGE the phase, the configuration cleared; the `Eos` is consumed and
every later item stays. -/
def Obligations.EosBeforePlaneIsTruncatedInput : Prop :=
  ∀ (s : State) (rest : List InItem), s.Inv →
    (s.phase = .hdr ∨ s.phase = .dim ∨ s.phase = .pal) → s.inFifo = .eos :: rest → s.agenda = [] →
      step s = .next (decodeFailed .truncatedInput (s.inPos.setWidth 32) { s with inFifo := rest })

/-- R152, R154: a palette byte: the first three of an entry go to EB, the fourth writes the entry, and
the last byte of the palette sets PAL_LEN and ends the configuration. -/
def Obligations.PaletteByteFillsEntries : Prop :=
  ∀ (s : State) (d : Depth) (b : Byte) (rest : List InItem) (j : Nat), s.busy = true → s.phase = .pal →
    depthOf (modeDC s.mode) = some d → s.inPos.toNat = 12 + j → j < 4 * d.palSize →
    s.inFifo = .byte b :: rest → s.agenda = [] → (s.curOp = .decCfg ∨ s.curOp = .decFull) →
      ∃ t, step s = .next t ∧
        t = { s with
          inFifo := rest, inPos := s.inPos + 1, eb := t.eb, palette := t.palette
          palLen := t.palLen, cfgValid := t.cfgValid, curOp := t.curOp, busy := t.busy, phase := t.phase } ∧
        (∀ k : Fin 3, t.eb[k] = if j % 4 = k.val then b else s.eb[k]) ∧
        (∀ k : Fin 256, t.palette[k] =
          if j % 4 = 3 ∧ k.val = j / 4 then ⟨s.eb[0], s.eb[1], s.eb[2], b⟩ else s.palette[k]) ∧
        (j + 1 < 4 * d.palSize → t.palLen = s.palLen ∧ t.cfgValid = s.cfgValid ∧ t.curOp = s.curOp ∧
          t.busy = true ∧ t.phase = .pal) ∧
        (j + 1 = 4 * d.palSize → t.palLen = BitVec.ofNat 9 d.palSize ∧
          (s.curOp = .decCfg → t.cfgValid = true ∧ t.curOp = .none ∧ t.busy = false ∧ t.phase = .idle) ∧
          (s.curOp = .decFull → t.cfgValid = s.cfgValid ∧ t.curOp = .decFull ∧ t.busy = true ∧ t.phase = .plane))

/-- 43_pixel_plane.md R170 to R172: a plane byte is appended at address PLANE_LEN; at PLANE_LEN =
PLANE_CAP it is consumed and PlaneOverflow is raised with ERR_INFO = PLANE_CAP; an `Eos` completes. -/
def Obligations.PlaneStepAppendsOverflowsOrFinishes : Prop :=
  ∀ (s : State) (rest : List InItem), s.busy = true → s.phase = .plane → s.curOp = .decFull →
    s.planeLen.toNat ≤ s.cfg.planeCap.toNat → s.agenda = [] →
    (∀ b, s.inFifo = .byte b :: rest → s.planeLen ≠ s.cfg.planeCap →
      ∃ t, step s = .next t ∧
        t = { s with inFifo := rest, inPos := s.inPos + 1, planeLen := s.planeLen + 1, plane := t.plane } ∧
        t.plane.read s.planeLen.toNat = some b ∧
        ∀ a, a ≠ s.planeLen.toNat → t.plane.read a = s.plane.read a) ∧
    (∀ b, s.inFifo = .byte b :: rest → s.planeLen = s.cfg.planeCap →
      step s = .next (decodeFailed .planeOverflow s.cfg.planeCap
        { s with inFifo := rest, inPos := s.inPos + 1 })) ∧
    (s.inFifo = .eos :: rest →
      step s = .next { s with
        inFifo := rest, cfgValid := true, planeValid := true
        curOp := .none, busy := false, phase := .idle })

/-- R221, R224, R230: a codec step of a decode that ends in an error leaves no configuration, records
the phase of the step as STAGE, keeps IN_POS at the position of the error (the bytes received, the
offending one included), and leaves PLANE, the palette file and every IN item but the one it
consumed. -/
def Obligations.DecodeErrorClearsConfiguration : Prop :=
  ∀ s t : State, s.Inv → s.curOp.isDecode = true → s.agenda = [] → step s = .next t → t.err = true →
    t.busy = false ∧ t.phase = .idle ∧ t.curOp = .none ∧ t.errStage = s.phase ∧ t.ConfigCleared ∧
    t.mode = 0 ∧ t.inFifo = s.inFifo.tail ∧ t.plane = s.plane ∧ t.palette = s.palette ∧
    (t.errKind = .truncatedInput ∧ t.inPos = s.inPos ∨
      (t.errKind = .signatureMismatch ∨ t.errKind = .unsupportedBitDepth ∨ t.errKind = .planeOverflow) ∧
        t.inPos = s.inPos + 1)

/-! ### The encoder -/

/-- 44_encoder.md R190, R191: ENC clears OUT_POS and PIX_CNT; DC = 11 raises UnsupportedBitDepth, then a
dimension above 65535 raises DimensionsTooLarge with bit 1 for the height and bit 0 for the width,
both at STAGE 0 with no byte written; else the operands are latched and the ENC_HDR phase begins.
That an ENC with a bit in IDX, the field it does not use, raises IllegalCommand is the model's reading
of R72 and R81 (log entry 16). -/
def Obligations.EncChecksThenLatchesOperands : Prop :=
  ∀ (s : State) (dc : BitVec 2) (ep ps : Bool) (idx : Byte) (w : Word), encode (.enc dc ep ps idx) = .command w → s.Idle →
    (idx ≠ 0 → exec (.enc dc ep ps idx) s = .next (failedAfter w .illegalCommand w s)) ∧
    (idx = 0 → dc = 3 → exec (.enc dc ep ps idx) s =
      .next (failedAfter w .unsupportedBitDepth 3 { s with outPos := 0, pixCnt := 0 })) ∧
    (idx = 0 → dc ≠ 3 → (65535 < s.argW.toNat ∨ 65535 < s.argH.toNat) → exec (.enc dc ep ps idx) s =
      .next (failedAfter w .dimensionsTooLarge
        (0#30 ++ BitVec.ofBool (decide (65535 < s.argH.toNat)) ++ BitVec.ofBool (decide (65535 < s.argW.toNat)))
        { s with outPos := 0, pixCnt := 0 })) ∧
    (idx = 0 → dc ≠ 3 → s.argW.toNat ≤ 65535 → s.argH.toNat ≤ 65535 → exec (.enc dc ep ps idx) s =
      .next { idleAfter w s with
        outPos := 0
        pixCnt := 0
        curOp := .enc
        eDC := dc
        eEP := ep
        ePS := ps
        eW := s.argW.extractLsb' 0 16
        eH := s.argH.extractLsb' 0 16
        acc := 0
        nfill := 0
        busy := true
        phase := .encHdr })

/-- R192 to R195: an ENC_HDR step emits header byte OUT_POS: the magic, the mode byte
`(E_DC << 6) | (E_EP << 5)`, width and height; after the twelfth the palette or the pixels follow. -/
def Obligations.EncHeaderStepEmitsHeaderByte : Prop :=
  ∀ (s : State) (b : Byte), s.busy = true → s.phase = .encHdr → s.agenda = [] →
    (([0x49, 0x4D, 0x52, 0x45, 0x54, 0x52, 0x4F] : List Byte) ++ [s.eDC ++ BitVec.ofBool s.eEP ++ 0#5]
      ++ dimBytes s.cfg.dimOrder s.eW ++ dimBytes s.cfg.dimOrder s.eH)[s.outPos.toNat]? = some b →
      step s = .next { s with
        outFifo := s.outFifo ++ [b]
        outPos := s.outPos + 1
        phase := if s.outPos.toNat = 11 then (if s.eEP then .encPal else .encPix) else .encHdr }

/-- R196: an ENC_PAL step emits byte j % 4 of palette entry j / 4, from the built-in palette or, with
E_PS, the palette file read through convert; after the last byte the pixels follow. -/
def Obligations.EncPaletteStepEmitsEntryByte : Prop :=
  ∀ (s : State) (d : Depth) (j : Nat) (k : Byte) (c : Color8), s.busy = true → s.phase = .encPal →
    s.agenda = [] → depthOf s.eDC = some d → s.outPos.toNat = 12 + j → j < 4 * d.palSize →
    k.toNat = j / 4 →
    c = (if s.ePS then (if k.toNat < s.palLen.toNat then s.palette[k.toNat]'k.isLt else ⟨0, 0, 0, 0⟩)
      else rom d k) →
      step s = .next { s with
        outFifo := s.outFifo ++ [[c.r, c.g, c.b, c.a].getD (j % 4) 0]
        outPos := s.outPos + 1
        phase := if j + 1 = 4 * d.palSize then .encPix else .encPal }

/-- R197 to R200: an ENC_PIX step consumes one pixel, quantizes its truncated color, and packs the index
MSB-first: a full byte is emitted and ACC starts again at 0. -/
def Obligations.EncPixelStepPacksOneIndex : Prop :=
  ∀ (s : State) (d : Depth) (c : Color16) (rest : List PixItem) (q : Byte), s.busy = true →
    s.phase = .encPix → s.agenda = [] → depthOf s.eDC = some d →
    s.pixCnt.toNat < s.eW.toNat * s.eH.toNat → s.pixFifo = .pix c :: rest →
    s.nfill.toNat < d.perByte →
    q = quantize d ⟨c.r.extractLsb' 8 8, c.g.extractLsb' 8 8, c.b.extractLsb' 8 8, c.a.extractLsb' 8 8⟩ →
      match d with
      | .d1 =>
        if s.nfill = 7 then
          step s = .next { s with
            pixFifo := rest, pixCnt := s.pixCnt + 1, outFifo := s.outFifo ++ [s.acc ||| q]
            outPos := s.outPos + 1, acc := 0, nfill := 0 }
        else
          step s = .next { s with
            pixFifo := rest, pixCnt := s.pixCnt + 1, nfill := s.nfill + 1
            acc := s.acc ||| (q <<< (7 - s.nfill.toNat)) }
      | .d2 =>
        if s.nfill = 3 then
          step s = .next { s with
            pixFifo := rest, pixCnt := s.pixCnt + 1, outFifo := s.outFifo ++ [s.acc ||| q]
            outPos := s.outPos + 1, acc := 0, nfill := 0 }
        else
          step s = .next { s with
            pixFifo := rest, pixCnt := s.pixCnt + 1, nfill := s.nfill + 1
            acc := s.acc ||| (q <<< (6 - 2 * s.nfill.toNat)) }
      | .d8 =>
        step s = .next { s with
          pixFifo := rest, pixCnt := s.pixCnt + 1, outFifo := s.outFifo ++ [q], outPos := s.outPos + 1 }

/-- R200, R201: when every pixel is consumed the last partial byte is flushed and ENC completes; an
`Eos` before that ends it with TruncatedInput, ERR_INFO = PIX_CNT, STAGE ENC_PIX, and the bytes
written so far stay in OUT. -/
def Obligations.EncPixelStepFinishesOrTruncates : Prop :=
  ∀ s : State, s.busy = true → s.phase = .encPix → s.curOp = .enc → s.agenda = [] →
    (s.pixCnt.toNat = s.eW.toNat * s.eH.toNat → s.nfill = 0 →
      step s = .next { s with curOp := .none, busy := false, phase := .idle }) ∧
    (s.pixCnt.toNat = s.eW.toNat * s.eH.toNat → s.nfill ≠ 0 →
      step s = .next { s with
        outFifo := s.outFifo ++ [s.acc], outPos := s.outPos + 1, acc := 0, nfill := 0
        curOp := .none, busy := false, phase := .idle }) ∧
    (∀ rest, s.pixCnt.toNat < s.eW.toNat * s.eH.toNat → s.pixFifo = .eos :: rest →
      step s = .next { s with
        pixFifo := rest, errKind := .truncatedInput, errStage := .encPix, errInfo := s.pixCnt, err := true
        curOp := .none, busy := false, phase := .idle })

/-- R205: neither the acceptance of ENC nor any codec step of a running ENC writes decode-side state.
(It holds of every operand `idx`; with `idx` not 0 the word is illegal, log entry 16, and writes none.) -/
def Obligations.EncWritesNoDecodeSideState : Prop :=
  ∀ s t : State, s.Inv →
    (∀ dc ep ps idx, exec (.enc dc ep ps idx) s = .next t → SameDecodeSide s t) ∧
    (s.curOp = .enc → s.agenda = [] → step s = .next t → SameDecodeSide s t)

/-! ### The host port -/

/-- 10_state.md section 3, R24 to R39: the fields of STATUS as the host reads it at offset 0x04, the
codes of PHASE (and STAGE) by R24 and of KIND by R220, and what a host read of each other offset of
the window returns. -/
def Obligations.RegisterWindowReads : Prop :=
  ∀ s : State,
    (∀ v, v = readOffset s 0x04 →
      v.getLsbD 0 = s.busy ∧ v.getLsbD 1 = s.err ∧ v.getLsbD 2 = s.cfgValid ∧ v.getLsbD 3 = s.planeValid ∧
      v.getLsbD 4 = s.idxValid ∧ v.getLsbD 5 = s.oob ∧ v.getLsbD 6 = s.palMiss ∧ v.getLsbD 7 = false ∧
      v.extractLsb' 8 3 = s.phase.code ∧ v.extractLsb' 11 21 = 0) ∧
    [Phase.idle, .hdr, .dim, .pal, .plane, .encHdr, .encPal, .encPix].map Phase.code = [0, 1, 2, 3, 4, 5, 6, 7] ∧
    [ErrKind.none, .signatureMismatch, .truncatedInput, .unsupportedBitDepth, .dimensionsTooLarge, .shortPlane,
      .planeOverflow, .illegalCommand].map ErrKind.code = [0, 1, 2, 3, 4, 5, 6, 7] ∧
    readOffset s 0x00 = s.cmd ∧
    readOffset s 0x08 = 0#25 ++ s.errStage.code ++ s.errKind.code ∧
    readOffset s 0x0C = s.errInfo ∧
    readOffset s 0x10 = 0#24 ++ s.mode ∧
    readOffset s 0x14 = s.height ++ s.width ∧
    readOffset s 0x18 = 0#23 ++ s.palLen ∧
    readOffset s 0x1C = s.planeLen ∧
    readOffset s 0x20 = s.argX ∧ readOffset s 0x24 = s.argY ∧
    readOffset s 0x28 = s.argW ∧ readOffset s 0x2C = s.argH ∧
    readOffset s 0x30 = s.argRG ∧ readOffset s 0x34 = s.argBA ∧
    readOffset s 0x38 = 0#24 ++ s.resIdx ∧
    readOffset s 0x3C = s.resColor.a ++ s.resColor.b ++ s.resColor.g ++ s.resColor.r ∧
    readOffset s 0x40 = s.inPos.extractLsb' 0 32 ∧ readOffset s 0x44 = s.inPos.extractLsb' 32 32 ∧
    readOffset s 0x48 = s.outPos.extractLsb' 0 32 ∧ readOffset s 0x4C = s.outPos.extractLsb' 32 32 ∧
    readOffset s 0x50 = s.pixCnt ∧
    ∀ off, 0x54 ≤ off → readOffset s off = 0

/-- R59: a host read gives the host the register's value and changes nothing of the codec. -/
def Obligations.HostReadHasNoSideEffect : Prop :=
  ∀ (s : State) (off : Nat) (rest : List Event), s.agenda = .host (.read off 4) :: rest →
    off % 4 = 0 → off < 0x100 →
      step s = .next { s with agenda := rest, hostLog := s.hostLog ++ [.reg off (readOffset s off)] }

/-- R31 to R33, R39, R59, R258: a host write stores only into the ARG registers, at any time, BUSY or
not; a write to a read-only register or a reserved offset is ignored. -/
def Obligations.HostWriteStoresOnlyArguments : Prop :=
  ∀ (s : State) (off : Nat) (v : Word) (rest : List Event), s.agenda = .host (.write off 4 v) :: rest →
    off % 4 = 0 → 4 ≤ off → off < 0x100 →
      step s = .next { s with
        agenda := rest
        argX := if off = 0x20 then v else s.argX
        argY := if off = 0x24 then v else s.argY
        argW := if off = 0x28 then v else s.argW
        argH := if off = 0x2C then v else s.argH
        argRG := if off = 0x30 then v else s.argRG
        argBA := if off = 0x34 then v else s.argBA }

/-- R45, R59: a push appends its item to its FIFO; a pop takes the head byte of OUT and gives it to the
host. (What a pop of an empty OUT does is the model's choice, log entry 7, and not stated here.) -/
def Obligations.FifoActionsKeepOrder : Prop :=
  ∀ (s : State) (rest : List Event),
    (∀ x, s.agenda = .host (.pushIn x) :: rest →
      step s = .next { s with agenda := rest, inFifo := s.inFifo ++ [x] }) ∧
    (∀ x, s.agenda = .host (.pushPix x) :: rest →
      step s = .next { s with agenda := rest, pixFifo := s.pixFifo ++ [x] }) ∧
    (∀ b out, s.agenda = .host .popOut :: rest → s.outFifo = b :: out →
      step s = .next { s with agenda := rest, outFifo := out, hostLog := s.hostLog ++ [.outByte b] })

/-- 70_reset_and_hazards.md R250: right after reset every offset of the register window reads 0, the
internal registers have their reset values, the palette file is all (0,0,0,0), the FIFOs are empty. -/
def Obligations.ResetValuesOfTheMachine : Prop :=
  (∀ off, readOffset State.reset off = 0) ∧
  State.reset.curOp = .none ∧ State.reset.sigMiss = 7 ∧
  State.reset.dimBuf = #v[0, 0, 0, 0] ∧ State.reset.eb = #v[0, 0, 0] ∧
  State.reset.eDC = 0 ∧ State.reset.eEP = false ∧ State.reset.ePS = false ∧
  State.reset.eW = 0 ∧ State.reset.eH = 0 ∧ State.reset.acc = 0 ∧ State.reset.nfill = 0 ∧
  (∀ k : Fin 256, State.reset.palette[k] = ⟨0, 0, 0, 0⟩) ∧
  State.reset.inFifo = [] ∧ State.reset.pixFifo = [] ∧ State.reset.outFifo = []

/-- R250 to R252: the host's reset puts every register and FIFO at its reset value from any state, a
running command included; DIM_ORDER and PLANE_CAP stay. That PLANE, whose contents R250 leaves
unspecified, lists nothing is log entry 5, and that the agenda and the host's record stay is log
entry 15: the model's. -/
def Obligations.ResetActionAbandonsEverything : Prop :=
  ∀ (s : State) (rest : List Event), s.agenda = .host .reset :: rest →
    step s = .next { State.reset with cfg := s.cfg, agenda := rest, hostLog := s.hostLog }

/-- R23, R39, R254: an action is refused exactly when it breaks a host duty, whatever the state; and
while BUSY = 1 no command word has a step, a word that is no command too. That a breach is a refusal
by name is log entry 9; that nothing else is refused, a pop of an empty OUT among it, rests on log
entry 7: the model's choices. -/
def Obligations.RefusalsAreExactlyBrokenDuties : Prop :=
  ∀ s : State, ((∃ r, step s = .refused r) ↔ ¬ s.DutyKept) ∧
    (∀ (w : Word) (rest : List Event), s.busy = true → s.agenda = .host (.write 0x00 4 w) :: rest →
      step s = .refused .cmdWhileBusy)

/-! ### Frames -/

/-- The frame of QUANT, PAL_RD and PIX_RD: only CMD, the error record, the results and the control state
may change; the configuration, the palette file, the FIFOs, the counters and every byte of PLANE
are unchanged. -/
def Obligations.ReadCommandsFrame : Prop :=
  ∀ (i : Instr) (s t : State), ((∃ dc, i = .quant dc) ∨ (∃ idx, i = .palRd idx) ∨ i = .pixRd) →
    s.Idle → exec i s = .next t →
      CommandFrame s t ∧ ∀ a, t.plane.read a = s.plane.read a

/-- The frame of PAL_WR and PAL_DEF: beside what every command may write, only palette entry IDX
(PAL_WR), or entries 0 to N-1 and PAL_LEN (PAL_DEF). -/
def Obligations.PaletteCommandsFrame : Prop :=
  ∀ (s t : State), s.Idle →
    (∀ idx, exec (.palWr idx) s = .next t →
      CommandFrame { s with palette := t.palette } t ∧
      (∀ k : Fin 256, k.val ≠ idx.toNat → t.palette[k] = s.palette[k]) ∧
      ∀ a, t.plane.read a = s.plane.read a) ∧
    (∀ dc, exec (.palDef dc) s = .next t →
      CommandFrame { s with palette := t.palette, palLen := t.palLen } t ∧
      (∀ k : Fin 256, (∀ d, depthOf dc = some d → d.palSize ≤ k.val) → t.palette[k] = s.palette[k]) ∧
      ∀ a, t.plane.read a = s.plane.read a)

/-- The frame of the acceptance of DEC_CFG, DEC_FULL and ENC: the decode commands also write the
configuration registers, IN_POS and the parser's buffers; ENC the encoder's counters and latches.
The palette entries, the FIFOs and every byte of PLANE are unchanged. -/
def Obligations.StreamCommandsFrame : Prop :=
  ∀ (s t : State), s.Idle →
    ((exec .decCfg s = .next t ∨ exec .decFull s = .next t) →
      CommandFrame { s with
        cfgValid := t.cfgValid, planeValid := t.planeValid, mode := t.mode, width := t.width
        height := t.height, palLen := t.palLen, planeLen := t.planeLen, inPos := t.inPos
        sigMiss := t.sigMiss, dimBuf := t.dimBuf, eb := t.eb } t ∧
      ∀ a, t.plane.read a = s.plane.read a) ∧
    (∀ dc ep ps idx, exec (.enc dc ep ps idx) s = .next t →
      CommandFrame { s with
        outPos := t.outPos, pixCnt := t.pixCnt, eDC := t.eDC, eEP := t.eEP, ePS := t.ePS
        eW := t.eW, eH := t.eH, acc := t.acc, nfill := t.nfill } t ∧
      ∀ a, t.plane.read a = s.plane.read a)

/-- The frame of the four mode-byte rows: they write MODE, IN_POS, the control state, and, in the
resolution or an error, the palette file, the configuration and the error record; CMD, the ARG
registers, the results, the encoder's registers, the FIFOs and every byte of PLANE stay. -/
def Obligations.ModeByteRowsFrame : Prop :=
  ∀ (i : Instr) (b : Byte) (s t : State), encode i = .modeByte b → exec i s = .next t →
    t = { s with
      mode := t.mode, inPos := t.inPos, phase := t.phase, busy := t.busy, curOp := t.curOp
      palette := t.palette, palLen := t.palLen, cfgValid := t.cfgValid, planeValid := t.planeValid
      width := t.width, height := t.height, planeLen := t.planeLen
      errKind := t.errKind, errStage := t.errStage, errInfo := t.errInfo, err := t.err } ∧
    ∀ a, t.plane.read a = s.plane.read a

/-! ### Invariants and whole-machine rules -/

/-- The invariant holds right after reset. -/
def Obligations.ResetMeetsInvariant : Prop := State.reset.Inv

/-- From every state of the invariant, every step that answers a next state keeps it. -/
def Obligations.EveryStepKeepsInvariant : Prop :=
  ∀ s t : State, s.Inv → step s = .next t → t.Inv

/-- From every state of the invariant, a step under kept host duties answers a next state: no stuck
phase, no undefined depth, no access outside PLANE. That a waiting codec answers a next state (the
spec says stuck, U14) is log entry 1, and that a pop of an empty OUT answers one is log entry 7: the
model's choices. -/
def Obligations.KeptDutiesNeverStop : Prop :=
  ∀ s : State, s.Inv → s.DutyKept → ∃ t, step s = .next t ∧ t.Inv

/-- R252: DIM_ORDER and PLANE_CAP never change. -/
def Obligations.InstanceParametersAreFixed : Prop :=
  ∀ s t : State, step s = .next t → t.cfg = s.cfg

/-- R180, R43: only a codec turn in the PLANE phase of a running DEC_FULL and the host's reset change
PLANE, and that codec turn changes only the byte at PLANE_LEN. -/
def Obligations.OnlyPlanePhaseWritesPlane : Prop :=
  ∀ s t : State, s.Inv → step s = .next t → (∀ rest, s.agenda ≠ .host .reset :: rest) →
    t.plane = s.plane ∨
    ((s.agenda = [] ∨ ∃ ev, s.agenda = .codec :: ev) ∧ s.phase = .plane ∧ s.curOp = .decFull ∧
      ∀ a, a ≠ s.planeLen.toNat → t.plane.read a = s.plane.read a)

/-- R41: palette entries at or past PAL_LEN are not observable: two idle states that differ only in such
entries answer every PIX_RD and PAL_RD with the same results. -/
def Obligations.PaletteTailIsUnobservable : Prop :=
  ∀ (i : Instr) (s : State) (p : Vector Color8 256), (i = .pixRd ∨ ∃ idx, i = .palRd idx) →
    (∀ k : Fin 256, k.val < s.palLen.toNat → p[k] = s.palette[k]) →
      match exec i s with
      | .next t => exec i { s with palette := p } = .next { t with palette := p }
      | .fault f => exec i { s with palette := p } = .fault f
      | .refused r => exec i { s with palette := p } = .refused r

/-- R255, R256: a waiting codec stays as it is: with no host action to come, BUSY stays 1 for ever.
That the wait is a step that changes nothing is the model's choice, log entry 1. -/
def Obligations.HungCodecStaysBusyForever : Prop :=
  ∀ s : State, s.Inv → s.Hung → ∀ k : Nat, stepsTo k s = .next s

/-- R61: a push into IN and a codec step that reads IN may come in either order, when IN holds an item
already. -/
def Obligations.PushCommutesWithDecodeStep : Prop :=
  ∀ (s : State) (x : InItem), s.curOp.isDecode = true → s.inFifo ≠ [] →
    match codecStep s with
    | .next t => codecStep { s with inFifo := s.inFifo ++ [x] } = .next { t with inFifo := t.inFifo ++ [x] }
    | .fault f => codecStep { s with inFifo := s.inFifo ++ [x] } = .fault f
    | .refused r => codecStep { s with inFifo := s.inFifo ++ [x] } = .refused r

/-! ### Whole commands: the step rules against the closed forms -/

/-- 41_header_codec.md R141: DEC_CFG, run by the step rules from acceptance, ends as `decodeConfig` says
of the items in IN: with the error it returns, or with the configuration it returns, or in a hang
(a wait that is a step changing nothing, log entry 1). -/
def Obligations.DecCfgRunsAsClosedForm : Prop :=
  ∀ s u : State, s.agenda = [] → exec .decCfg s = .next u →
    match decodeConfig s.cfg.dimOrder s.inFifo with
    | .waits => ∃ k t, stepsTo k u = .next t ∧ t.Hung
    | .error kind info stage n => ∃ k t, stepsTo k u = .next t ∧ t.busy = false ∧ t.err = true ∧
        t.errKind = kind ∧ t.errInfo = BitVec.ofNat 32 info ∧ t.errStage = stage ∧ t.ConfigCleared ∧
        t.mode = 0 ∧ t.inFifo = s.inFifo.drop n
    | .ok c => ∃ k t, stepsTo k u = .next t ∧ t.busy = false ∧ t.err = false ∧ t.cfgValid = true ∧
        t.planeValid = false ∧ t.mode = c.mode ∧ t.width = c.width ∧ t.height = c.height ∧
        t.palLen.toNat = c.colors.length ∧
        (∀ j : Fin 256, j.val < c.colors.length → c.colors[j.val]? = some t.palette[j]) ∧
        t.inPos.toNat = c.used ∧ t.planeLen = 0 ∧ t.inFifo = s.inFifo.drop c.used

/-- R141, R170 to R172: DEC_FULL, run by the step rules from acceptance, ends as `decodeFull` says:
configuration and plane, with the plane's bytes at addresses 0, 1, 2, ..., or in a hang (a wait that
is a step changing nothing, log entry 1). -/
def Obligations.DecFullRunsAsClosedForm : Prop :=
  ∀ s u : State, s.agenda = [] → exec .decFull s = .next u →
    match decodeFull s.cfg.dimOrder s.cfg.planeCap.toNat s.inFifo with
    | .waits => ∃ k t, stepsTo k u = .next t ∧ t.Hung
    | .error kind info stage n => ∃ k t, stepsTo k u = .next t ∧ t.busy = false ∧ t.err = true ∧
        t.errKind = kind ∧ t.errInfo = BitVec.ofNat 32 info ∧ t.errStage = stage ∧ t.ConfigCleared ∧
        t.mode = 0 ∧ t.inFifo = s.inFifo.drop n
    | .ok (c, p) => ∃ k t, stepsTo k u = .next t ∧ t.busy = false ∧ t.err = false ∧ t.cfgValid = true ∧
        t.planeValid = true ∧ t.mode = c.mode ∧ t.width = c.width ∧ t.height = c.height ∧
        t.palLen.toNat = c.colors.length ∧
        (∀ j : Fin 256, j.val < c.colors.length → c.colors[j.val]? = some t.palette[j]) ∧
        t.inPos.toNat = c.used + p.length ∧ t.planeLen.toNat = p.length ∧
        (∀ a, a < p.length → t.plane.read a = p[a]?) ∧
        t.inFifo = s.inFifo.drop (c.used + p.length + 1)

/-- 44_encoder.md R206: ENC, run by the step rules from acceptance with W·H pixels in PIX, completes and
appends exactly the bytes of `encodeStream` to OUT, consuming exactly W·H pixels. That it completes
with no host to drain OUT rests on the unbounded FIFO of the model, log entry 12. -/
def Obligations.EncRunsAsClosedForm : Prop :=
  ∀ (s : State) (d : Depth) (ep ps : Bool) (px : List Color16) (rest : List PixItem),
    s.agenda = [] → s.busy = false → s.argW.toNat ≤ 65535 → s.argH.toNat ≤ 65535 →
    px.length = s.argW.toNat * s.argH.toNat → s.pixFifo = px.map .pix ++ rest →
      ∃ u k t, exec (.enc d.code ep ps 0) s = .next u ∧ stepsTo k u = .next t ∧
        t.busy = false ∧ t.err = false ∧ t.pixFifo = rest ∧ t.pixCnt.toNat = px.length ∧
        t.outFifo = s.outFifo ++ encodeStream s.cfg.dimOrder d ep ps (s.argW.extractLsb' 0 16)
          (s.argH.extractLsb' 0 16) px (convert s) ∧
        t.outPos.toNat = (encodeStream s.cfg.dimOrder d ep ps (s.argW.extractLsb' 0 16)
          (s.argH.extractLsb' 0 16) px (convert s)).length

/-- R203: the length of an encode: 12 + 4·N·EP + ceil(W·H·depth / 8) bytes. -/
def Obligations.EncodedLength : Prop :=
  ∀ (o : DimOrder) (d : Depth) (ep ps : Bool) (w h : BitVec 16) (px : List Color16) (pal : Byte → Color8),
    w.toNat * h.toNat ≤ px.length →
      (encodeStream o d ep ps w h px pal).length =
        12 + (if ep then 4 * d.palSize else 0) + (w.toNat * h.toNat * d.bits + 7) / 8

/-- R176 to R178 against R197 to R200: unpacking pixel i of a packed plane gives index i back. -/
def Obligations.UnpackInvertsPack : Prop :=
  ∀ (d : Depth) (cs : List Color8) (i : Nat) (c : Color8), cs[i]? = some c →
    ∃ b, (pack d (cs.map (quantize d)))[byteAddr d i]? = some b ∧ unpackIndex d i b = quantize d c

/-- R204, round trip: decoding an encoded image on an instance with the same DIM_ORDER and room for the
plane gives back mode byte, dimensions, palette, and for every pixel the index its color was
quantized to. -/
def Obligations.EncodedImageDecodesBack : Prop :=
  ∀ (o : DimOrder) (cap : Nat) (d : Depth) (ep ps : Bool) (w h : BitVec 16) (px : List Color16)
    (pal : Byte → Color8),
    px.length = w.toNat * h.toNat → (w.toNat * h.toNat * d.bits + 7) / 8 ≤ cap →
      ∃ c p, decodeFull o cap ((encodeStream o d ep ps w h px pal).map .byte ++ [.eos]) = .ok (c, p) ∧
        c.mode = d.code ++ BitVec.ofBool ep ++ 0#5 ∧ c.width = w ∧ c.height = h ∧
        c.colors = (List.range d.palSize).map (fun k =>
          (if ep && ps then pal else rom d) (BitVec.ofNat 8 k)) ∧
        ∀ (i : Nat) (x : Color16), px[i]? = some x →
          indexAt d w h p (i % w.toNat : Nat) (i / w.toNat : Nat) = .index (quantize d (colorAsBytes x))
end

