-- ==== Sys2Proof/Laws/Encoding.lean ====
section
/-! SUPPORT. Command words by their fields (30_encoding.md R70 to R72). -/

namespace Sys2Proof

/-- The command word with the given fields, from the top down: [31:16], IDX, PS, EP, DC, OP (R70). -/
def fieldsWord (hi : BitVec 16) (idx : Byte) (ps ep : BitVec 1) (dc : BitVec 2) (op : BitVec 4) : Word :=
  (hi ++ idx ++ ps ++ ep ++ dc ++ op).cast (by decide)

/-- The word of R70 written as its fields side by side. -/
theorem commandWord_eq_fieldsWord (op : BitVec 4) (dc : BitVec 2) (ep ps : Bool) (idx : Byte) :
    commandWord op dc ep ps idx = fieldsWord 0 idx (BitVec.ofBool ps) (BitVec.ofBool ep) dc op := by
  unfold commandWord fieldsWord
  generalize BitVec.ofBool ep = e
  generalize BitVec.ofBool ps = p
  apply BitVec.eq_of_getLsbD_eq
  intro i hi
  interval_cases i <;>
    simp only [BitVec.getLsbD_cast, BitVec.getLsbD_append, Nat.reduceLT, Nat.reduceSub, if_true, if_false] <;>
    simp [-BitVec.getLsbD_eq_getElem]

/-- Every word is its six fields. -/
theorem exists_fieldsWord (w : Word) : ∃ hi idx ps ep dc op, w = fieldsWord hi idx ps ep dc op := by
  refine ⟨w.extractLsb' 16 16, w.extractLsb' 8 8, w.extractLsb' 7 1, w.extractLsb' 6 1, w.extractLsb' 4 2,
    w.extractLsb' 0 4, ?_⟩
  unfold fieldsWord
  apply BitVec.eq_of_getLsbD_eq; intro i hi
  interval_cases i <;> simp only [BitVec.getLsbD_cast, BitVec.getLsbD_append, BitVec.getLsbD_extractLsb'] <;>
    simp [-BitVec.getLsbD_eq_getElem]

/-- The value of a word from its fields. -/
theorem fieldsWord_toNat (hi idx ps ep dc op) : (fieldsWord hi idx ps ep dc op).toNat =
      op.toNat + 16 * dc.toNat + 64 * ep.toNat + 128 * ps.toNat + 256 * idx.toNat + 65536 * hi.toNat := by
  unfold fieldsWord
  simp only [BitVec.toNat_cast, BitVec.toNat_append]
  rw [← Nat.shiftLeft_add_eq_or_of_lt (BitVec.isLt op), ← Nat.shiftLeft_add_eq_or_of_lt (BitVec.isLt dc),
    ← Nat.shiftLeft_add_eq_or_of_lt (BitVec.isLt ep), ← Nat.shiftLeft_add_eq_or_of_lt (BitVec.isLt ps),
    ← Nat.shiftLeft_add_eq_or_of_lt (BitVec.isLt idx)]
  simp only [Nat.shiftLeft_eq]
  omega

/-- Words with the same fields are the same, and conversely. -/
theorem fieldsWord_inj {hi idx ps ep dc op hi' idx' ps' ep' dc' op'} (h : fieldsWord hi idx ps ep dc op =
      fieldsWord hi' idx' ps' ep' dc' op') :
   hi = hi' ∧ idx = idx' ∧ ps = ps' ∧ ep = ep' ∧ dc = dc' ∧ op = op' := by
  have h := congrArg BitVec.toNat h
  rw [fieldsWord_toNat, fieldsWord_toNat] at h
  refine ⟨?_, ?_, ?_, ?_, ?_, ?_⟩ <;> apply BitVec.eq_of_toNat_eq <;> omega

/-- A mask acts field by field. -/
theorem fieldsWord_and (hi idx ps ep dc op hi' idx' ps' ep' dc' op') : fieldsWord hi idx ps ep dc op &&& fieldsWord hi' idx' ps' ep' dc' op' =
   fieldsWord (hi &&& hi') (idx &&& idx') (ps &&& ps') (ep &&& ep') (dc &&& dc') (op &&& op') := by
  unfold fieldsWord
  apply BitVec.eq_of_getLsbD_eq; intro i hi
  interval_cases i <;> simp only [BitVec.getLsbD_and, BitVec.getLsbD_cast, BitVec.getLsbD_append] <;>
    simp [-BitVec.getLsbD_eq_getElem]

/-- The field readers read the fields. -/
theorem fieldsWord_fields (hi idx ps ep dc op) : fieldDC (fieldsWord hi idx ps ep dc op) = dc ∧ fieldEP (fieldsWord hi idx ps ep dc op) = ep.getLsbD 0 ∧
   fieldPS (fieldsWord hi idx ps ep dc op) = ps.getLsbD 0 ∧ fieldIDX (fieldsWord hi idx ps ep dc op) = idx := by
  unfold fieldsWord fieldDC fieldEP fieldPS fieldIDX
  refine ⟨?_, ?_, ?_, ?_⟩
  · apply BitVec.eq_of_getLsbD_eq; intro i hi
    interval_cases i <;> simp only [BitVec.getLsbD_cast, BitVec.getLsbD_append, BitVec.getLsbD_extractLsb'] <;> simp [-BitVec.getLsbD_eq_getElem]
  · simp only [BitVec.getLsbD_cast, BitVec.getLsbD_append] ; simp [-BitVec.getLsbD_eq_getElem]
  · simp only [BitVec.getLsbD_cast, BitVec.getLsbD_append] ; simp [-BitVec.getLsbD_eq_getElem]
  · apply BitVec.eq_of_getLsbD_eq; intro i hi
    interval_cases i <;> simp only [BitVec.getLsbD_cast, BitVec.getLsbD_append, BitVec.getLsbD_extractLsb'] <;> simp [-BitVec.getLsbD_eq_getElem]

/-- Two words are equal exactly when their fields are. -/
theorem fieldsWord_iff {hi idx ps ep dc op hi' idx' ps' ep' dc' op'} : (fieldsWord hi idx ps ep dc op = fieldsWord hi' idx' ps' ep' dc' op') ↔
   hi = hi' ∧ idx = idx' ∧ ps = ps' ∧ ep = ep' ∧ dc = dc' ∧ op = op' :=
  ⟨fieldsWord_inj, by rintro ⟨rfl,rfl,rfl,rfl,rfl,rfl⟩; rfl⟩

/-- A mask of all ones keeps a field. -/
theorem and_ones16 : ∀ x : BitVec 16, x &&& 0xFFFF = x := fun x => BitVec.and_allOnes (x := x)

/-- A mask of all ones keeps a field. -/
theorem and_ones8 : ∀ x : BitVec 8, x &&& 0xFF = x := fun x => BitVec.and_allOnes (x := x)

/-- A mask of all ones keeps a field. -/
theorem and_ones4 : ∀ x : BitVec 4, x &&& 0xF = x := fun x => BitVec.and_allOnes (x := x)

/-- A mask of all ones keeps a field. -/
theorem and_ones2 : ∀ x : BitVec 2, x &&& 3 = x := fun x => BitVec.and_allOnes (x := x)

/-- A mask of all ones keeps a field. -/
theorem and_ones1 : ∀ x : BitVec 1, x &&& 1 = x := fun x => BitVec.and_allOnes (x := x)

/-- A mask of zeros clears a field. -/
theorem and_zeros8 : ∀ x : BitVec 8, x &&& 0 = 0 := fun _ => BitVec.and_zero

/-- A mask of zeros clears a field. -/
theorem and_zeros2 : ∀ x : BitVec 2, x &&& 0 = 0 := fun _ => BitVec.and_zero

/-- A mask of zeros clears a field. -/
theorem and_zeros1 : ∀ x : BitVec 1, x &&& 0 = 0 := fun _ => BitVec.and_zero

/-- The rows with mask 0xFFFFFFFF (R72). -/
theorem select_exact (hi idx ps ep dc op o) : fieldsWord hi idx ps ep dc op &&& 0xFFFFFFFF = fieldsWord 0 0 0 0 0 o ↔
      hi = 0 ∧ idx = 0 ∧ ps = 0 ∧ ep = 0 ∧ dc = 0 ∧ op = o := by
  rw [show (0xFFFFFFFF : Word) = fieldsWord 0xFFFF 0xFF 1 1 3 0xF by decide,
    fieldsWord_and, fieldsWord_iff, and_ones16, and_ones8, and_ones1, and_ones1, and_ones2, and_ones4]

/-- The row of ENC, mask 0xFFFF000F (R72). -/
theorem select_encMask (hi idx ps ep dc op o) : fieldsWord hi idx ps ep dc op &&& 0xFFFF000F = fieldsWord 0 0 0 0 0 o ↔
      hi = 0 ∧ op = o := by
  rw [show (0xFFFF000F : Word) = fieldsWord 0xFFFF 0 0 0 0 0xF by decide,
    fieldsWord_and, fieldsWord_iff, and_ones16, and_zeros8, and_zeros1, and_zeros1, and_zeros2, and_ones4]
  simp

/-- The legal words of ENC: its row, with IDX 0 (R72; log entry 16). -/
theorem select_enc (hi idx ps ep dc op o) : fieldsWord hi idx ps ep dc op &&& 0xFFFFFF0F = fieldsWord 0 0 0 0 0 o ↔
      hi = 0 ∧ idx = 0 ∧ op = o := by
  rw [show (0xFFFFFF0F : Word) = fieldsWord 0xFFFF 0xFF 0 0 0 0xF by decide,
    fieldsWord_and, fieldsWord_iff, and_ones16, and_ones8, and_zeros1, and_zeros1, and_zeros2, and_ones4]
  simp

/-- The rows of PAL_RD and PAL_WR, mask 0xFFFF00FF (R72). -/
theorem select_palEntry (hi idx ps ep dc op o) : fieldsWord hi idx ps ep dc op &&& 0xFFFF00FF = fieldsWord 0 0 0 0 0 o ↔
      hi = 0 ∧ ps = 0 ∧ ep = 0 ∧ dc = 0 ∧ op = o := by
  rw [show (0xFFFF00FF : Word) = fieldsWord 0xFFFF 0 1 1 3 0xF by decide,
    fieldsWord_and, fieldsWord_iff, and_ones16, and_zeros8, and_ones1, and_ones1, and_ones2, and_ones4]
  simp

/-- The rows of PAL_DEF and QUANT, mask 0xFFFFFFCF (R72). -/
theorem select_depth (hi idx ps ep dc op o) : fieldsWord hi idx ps ep dc op &&& 0xFFFFFFCF = fieldsWord 0 0 0 0 0 o ↔
      hi = 0 ∧ idx = 0 ∧ ps = 0 ∧ ep = 0 ∧ op = o := by
  rw [show (0xFFFFFFCF : Word) = fieldsWord 0xFFFF 0xFF 1 1 0 0xF by decide,
    fieldsWord_and, fieldsWord_iff, and_ones16, and_ones8, and_ones1, and_ones1, and_zeros2, and_ones4]
  simp

/-- The command decoder, by the fields of the word (R71, R72). -/
theorem decodeCommand_fieldsWord (hi idx ps ep dc op) : decodeCommand (fieldsWord hi idx ps ep dc op) =
     if hi = 0 ∧ idx = 0 ∧ ps = 0 ∧ ep = 0 ∧ dc = 0 ∧ op = 1 then some .decCfg
     else if hi = 0 ∧ idx = 0 ∧ ps = 0 ∧ ep = 0 ∧ dc = 0 ∧ op = 2 then some .decFull
     else if hi = 0 ∧ idx = 0 ∧ op = 3 then some (.enc dc (ep.getLsbD 0) (ps.getLsbD 0) idx)
     else if hi = 0 ∧ idx = 0 ∧ ps = 0 ∧ ep = 0 ∧ dc = 0 ∧ op = 4 then some .pixRd
     else if hi = 0 ∧ ps = 0 ∧ ep = 0 ∧ dc = 0 ∧ op = 5 then some (.palRd idx)
     else if hi = 0 ∧ ps = 0 ∧ ep = 0 ∧ dc = 0 ∧ op = 6 then some (.palWr idx)
     else if hi = 0 ∧ idx = 0 ∧ ps = 0 ∧ ep = 0 ∧ op = 7 then some (.palDef dc)
     else if hi = 0 ∧ idx = 0 ∧ ps = 0 ∧ ep = 0 ∧ op = 8 then some (.quant dc)
     else none := by
  obtain ⟨f1,f2,f3,f4⟩ := fieldsWord_fields hi idx ps ep dc op
  unfold decodeCommand
  rw [f1,f2,f3,f4]
  rw [show (1 : Word) = fieldsWord 0 0 0 0 0 1 by decide, show (2 : Word) = fieldsWord 0 0 0 0 0 2 by decide,
    show (3 : Word) = fieldsWord 0 0 0 0 0 3 by decide, show (4 : Word) = fieldsWord 0 0 0 0 0 4 by decide,
    show (5 : Word) = fieldsWord 0 0 0 0 0 5 by decide, show (6 : Word) = fieldsWord 0 0 0 0 0 6 by decide,
    show (7 : Word) = fieldsWord 0 0 0 0 0 7 by decide, show (8 : Word) = fieldsWord 0 0 0 0 0 8 by decide]
  simp only [select_exact, select_enc, select_palEntry, select_depth]

/-- A one-bit field is the bit it holds. -/
theorem ofBool_getLsbD_zero (x : BitVec 1) : BitVec.ofBool (x.getLsbD 0) = x := by
  revert x; decide

/-- The decoded row of a mode byte built from its fields (R73, R74). -/
theorem decodeModeByte_modeByteOf (dc : BitVec 2) (pf : Bool) (rsv : BitVec 5) :
    decodeModeByte (modeByteOf dc pf rsv) =
      if dc = 0 then .modeD1 pf rsv else if dc = 1 then .modeD2 pf rsv
      else if dc = 2 then .modeD8 pf rsv else .modeBad pf rsv := by
  revert dc pf rsv; decide +kernel

end Sys2Proof
end

