-- ==== Sys2Proof/Laws/Memory.lean ====
section
/-! SUPPORT. The laws of the pixel-plane memory: a read after a write, and the canonical form. -/

namespace Sys2Proof.Machine

/-- A store keeps every address that bounds the whole list a bound. -/
theorem Memory.write_keys (m : Memory) (a : Nat) (v : Byte) (c : Host.Cell)
    (h : c ∈ Memory.write m a v) : c = (a, v) ∨ c ∈ m := by
  induction m with
  | nil => simpa [Memory.write] using h
  | cons e m ih =>
    unfold Memory.write at h
    split at h
    · simpa using h
    · split at h
      · rcases List.mem_cons.1 h with h | h
        · exact .inl h
        · exact .inr (List.mem_cons_of_mem _ h)
      · rcases List.mem_cons.1 h with h | h
        · exact .inr (h ▸ List.mem_cons_self)
        · exact (ih h).imp id (List.mem_cons_of_mem _)

/-- A store keeps the canonical form. -/
theorem Memory.write_wf (m : Memory) (a : Nat) (v : Byte) (h : m.wf) : (Memory.write m a v).wf := by
  induction m with
  | nil => simp [Memory.write, Memory.wf]
  | cons e m ih =>
    obtain ⟨he, hm⟩ := List.pairwise_cons.1 h
    unfold Memory.write
    split
    case isTrue hlt =>
      refine List.pairwise_cons.2 ⟨fun c hc => ?_, h⟩
      rcases List.mem_cons.1 hc with rfl | hc
      · exact hlt
      · exact hlt.trans (he c hc)
    case isFalse hge =>
      split
      case isTrue heq => exact List.pairwise_cons.2 ⟨fun c hc => heq ▸ he c hc, hm⟩
      case isFalse hne =>
        refine List.pairwise_cons.2 ⟨fun c hc => ?_, ih hm⟩
        rcases Memory.write_keys m a v c hc with rfl | hc
        · show e.1 < a
          omega
        · exact he c hc

/-- A byte stored is the byte read at its address. -/
@[simp] theorem Memory.read_write_same (m : Memory) (a : Nat) (v : Byte) :
    (Memory.write m a v).read a = some v := by
  induction m with
  | nil => simp [Memory.write, Memory.read]
  | cons e m ih =>
    unfold Memory.write
    split
    · simp [Memory.read]
    · split
      · simp [Memory.read]
      · next h => simpa [Memory.read, Ne.symm h] using ih

/-- A store leaves every other address alone. -/
theorem Memory.read_write_other (m : Memory) (a b : Nat) (v : Byte) (hab : b ≠ a) :
    (Memory.write m a v).read b = m.read b := by
  induction m with
  | nil => simp [Memory.write, Memory.read, Ne.symm hab]
  | cons e m ih =>
    unfold Memory.write
    split
    · simp [Memory.read, Ne.symm hab]
    · split
      · next h => simp [Memory.read, ← h, Ne.symm hab]
      · simp [Memory.read, ih]

/-- What a read of PLANE is (20_memory.md R51). -/
theorem memRead_below (s : State) (a : Nat) (h : a < s.planeLen.toNat) : memRead s a = s.plane.read a := by
  simp [memRead, h]

/-- What a store to PLANE is (R51). -/
theorem memWrite_below (s : State) (a : Nat) (v : Byte) (h : a < s.cfg.planeCap.toNat) :
    memWrite s a v = some { s with plane := s.plane.write a v } := by
  simp [memWrite, h]

/-- A store to PLANE happens below PLANE_CAP, and changes PLANE alone. -/
theorem memWrite_some {s t : State} {a : Nat} {v : Byte} (h : memWrite s a v = some t) :
    a < s.cfg.planeCap.toNat ∧ t = { s with plane := s.plane.write a v } := by
  unfold memWrite at h
  split at h
  · next hlt => exact ⟨hlt, (Option.some.inj h).symm⟩
  · cases h

end Sys2Proof.Machine
end

