-- ==== Sys2Proof/Laws/State.lean ====
section
/-! SUPPORT. What each shared operation leaves in each field of State: one lemma per field per
operation, so that no later proof unfolds a record update. -/

namespace Sys2Proof.Machine

variable (s : State)

/-! ### `clearResults` -/

@[simp] theorem clearResults_cfg : (clearResults s).cfg = s.cfg := rfl
@[simp] theorem clearResults_cmd : (clearResults s).cmd = s.cmd := rfl
@[simp] theorem clearResults_busy : (clearResults s).busy = s.busy := rfl
@[simp] theorem clearResults_err : (clearResults s).err = s.err := rfl
@[simp] theorem clearResults_cfgValid : (clearResults s).cfgValid = s.cfgValid := rfl
@[simp] theorem clearResults_planeValid : (clearResults s).planeValid = s.planeValid := rfl
@[simp] theorem clearResults_idxValid : (clearResults s).idxValid = false := rfl
@[simp] theorem clearResults_oob : (clearResults s).oob = false := rfl
@[simp] theorem clearResults_palMiss : (clearResults s).palMiss = false := rfl
@[simp] theorem clearResults_phase : (clearResults s).phase = s.phase := rfl
@[simp] theorem clearResults_errKind : (clearResults s).errKind = s.errKind := rfl
@[simp] theorem clearResults_errStage : (clearResults s).errStage = s.errStage := rfl
@[simp] theorem clearResults_errInfo : (clearResults s).errInfo = s.errInfo := rfl
@[simp] theorem clearResults_mode : (clearResults s).mode = s.mode := rfl
@[simp] theorem clearResults_width : (clearResults s).width = s.width := rfl
@[simp] theorem clearResults_height : (clearResults s).height = s.height := rfl
@[simp] theorem clearResults_palLen : (clearResults s).palLen = s.palLen := rfl
@[simp] theorem clearResults_planeLen : (clearResults s).planeLen = s.planeLen := rfl
@[simp] theorem clearResults_argX : (clearResults s).argX = s.argX := rfl
@[simp] theorem clearResults_argY : (clearResults s).argY = s.argY := rfl
@[simp] theorem clearResults_argW : (clearResults s).argW = s.argW := rfl
@[simp] theorem clearResults_argH : (clearResults s).argH = s.argH := rfl
@[simp] theorem clearResults_argRG : (clearResults s).argRG = s.argRG := rfl
@[simp] theorem clearResults_argBA : (clearResults s).argBA = s.argBA := rfl
@[simp] theorem clearResults_resIdx : (clearResults s).resIdx = 0 := rfl
@[simp] theorem clearResults_resColor : (clearResults s).resColor = ⟨0, 0, 0, 0⟩ := rfl
@[simp] theorem clearResults_inPos : (clearResults s).inPos = s.inPos := rfl
@[simp] theorem clearResults_outPos : (clearResults s).outPos = s.outPos := rfl
@[simp] theorem clearResults_pixCnt : (clearResults s).pixCnt = s.pixCnt := rfl
@[simp] theorem clearResults_curOp : (clearResults s).curOp = s.curOp := rfl
@[simp] theorem clearResults_sigMiss : (clearResults s).sigMiss = s.sigMiss := rfl
@[simp] theorem clearResults_dimBuf : (clearResults s).dimBuf = s.dimBuf := rfl
@[simp] theorem clearResults_eb : (clearResults s).eb = s.eb := rfl
@[simp] theorem clearResults_eDC : (clearResults s).eDC = s.eDC := rfl
@[simp] theorem clearResults_eEP : (clearResults s).eEP = s.eEP := rfl
@[simp] theorem clearResults_ePS : (clearResults s).ePS = s.ePS := rfl
@[simp] theorem clearResults_eW : (clearResults s).eW = s.eW := rfl
@[simp] theorem clearResults_eH : (clearResults s).eH = s.eH := rfl
@[simp] theorem clearResults_acc : (clearResults s).acc = s.acc := rfl
@[simp] theorem clearResults_nfill : (clearResults s).nfill = s.nfill := rfl
@[simp] theorem clearResults_palette : (clearResults s).palette = s.palette := rfl
@[simp] theorem clearResults_plane : (clearResults s).plane = s.plane := rfl
@[simp] theorem clearResults_inFifo : (clearResults s).inFifo = s.inFifo := rfl
@[simp] theorem clearResults_pixFifo : (clearResults s).pixFifo = s.pixFifo := rfl
@[simp] theorem clearResults_outFifo : (clearResults s).outFifo = s.outFifo := rfl
@[simp] theorem clearResults_agenda : (clearResults s).agenda = s.agenda := rfl
@[simp] theorem clearResults_hostLog : (clearResults s).hostLog = s.hostLog := rfl

/-! ### `clearError` -/

@[simp] theorem clearError_cfg : (clearError s).cfg = s.cfg := rfl
@[simp] theorem clearError_cmd : (clearError s).cmd = s.cmd := rfl
@[simp] theorem clearError_busy : (clearError s).busy = s.busy := rfl
@[simp] theorem clearError_err : (clearError s).err = false := rfl
@[simp] theorem clearError_cfgValid : (clearError s).cfgValid = s.cfgValid := rfl
@[simp] theorem clearError_planeValid : (clearError s).planeValid = s.planeValid := rfl
@[simp] theorem clearError_idxValid : (clearError s).idxValid = s.idxValid := rfl
@[simp] theorem clearError_oob : (clearError s).oob = s.oob := rfl
@[simp] theorem clearError_palMiss : (clearError s).palMiss = s.palMiss := rfl
@[simp] theorem clearError_phase : (clearError s).phase = s.phase := rfl
@[simp] theorem clearError_errKind : (clearError s).errKind = .none := rfl
@[simp] theorem clearError_errStage : (clearError s).errStage = .idle := rfl
@[simp] theorem clearError_errInfo : (clearError s).errInfo = 0 := rfl
@[simp] theorem clearError_mode : (clearError s).mode = s.mode := rfl
@[simp] theorem clearError_width : (clearError s).width = s.width := rfl
@[simp] theorem clearError_height : (clearError s).height = s.height := rfl
@[simp] theorem clearError_palLen : (clearError s).palLen = s.palLen := rfl
@[simp] theorem clearError_planeLen : (clearError s).planeLen = s.planeLen := rfl
@[simp] theorem clearError_argX : (clearError s).argX = s.argX := rfl
@[simp] theorem clearError_argY : (clearError s).argY = s.argY := rfl
@[simp] theorem clearError_argW : (clearError s).argW = s.argW := rfl
@[simp] theorem clearError_argH : (clearError s).argH = s.argH := rfl
@[simp] theorem clearError_argRG : (clearError s).argRG = s.argRG := rfl
@[simp] theorem clearError_argBA : (clearError s).argBA = s.argBA := rfl
@[simp] theorem clearError_resIdx : (clearError s).resIdx = s.resIdx := rfl
@[simp] theorem clearError_resColor : (clearError s).resColor = s.resColor := rfl
@[simp] theorem clearError_inPos : (clearError s).inPos = s.inPos := rfl
@[simp] theorem clearError_outPos : (clearError s).outPos = s.outPos := rfl
@[simp] theorem clearError_pixCnt : (clearError s).pixCnt = s.pixCnt := rfl
@[simp] theorem clearError_curOp : (clearError s).curOp = s.curOp := rfl
@[simp] theorem clearError_sigMiss : (clearError s).sigMiss = s.sigMiss := rfl
@[simp] theorem clearError_dimBuf : (clearError s).dimBuf = s.dimBuf := rfl
@[simp] theorem clearError_eb : (clearError s).eb = s.eb := rfl
@[simp] theorem clearError_eDC : (clearError s).eDC = s.eDC := rfl
@[simp] theorem clearError_eEP : (clearError s).eEP = s.eEP := rfl
@[simp] theorem clearError_ePS : (clearError s).ePS = s.ePS := rfl
@[simp] theorem clearError_eW : (clearError s).eW = s.eW := rfl
@[simp] theorem clearError_eH : (clearError s).eH = s.eH := rfl
@[simp] theorem clearError_acc : (clearError s).acc = s.acc := rfl
@[simp] theorem clearError_nfill : (clearError s).nfill = s.nfill := rfl
@[simp] theorem clearError_palette : (clearError s).palette = s.palette := rfl
@[simp] theorem clearError_plane : (clearError s).plane = s.plane := rfl
@[simp] theorem clearError_inFifo : (clearError s).inFifo = s.inFifo := rfl
@[simp] theorem clearError_pixFifo : (clearError s).pixFifo = s.pixFifo := rfl
@[simp] theorem clearError_outFifo : (clearError s).outFifo = s.outFifo := rfl
@[simp] theorem clearError_agenda : (clearError s).agenda = s.agenda := rfl
@[simp] theorem clearError_hostLog : (clearError s).hostLog = s.hostLog := rfl

/-! ### `accept` -/

@[simp] theorem accept_cfg (w : Word) : (accept w s).cfg = s.cfg := rfl
@[simp] theorem accept_cmd (w : Word) : (accept w s).cmd = w := rfl
@[simp] theorem accept_busy (w : Word) : (accept w s).busy = s.busy := rfl
@[simp] theorem accept_err (w : Word) : (accept w s).err = false := rfl
@[simp] theorem accept_cfgValid (w : Word) : (accept w s).cfgValid = s.cfgValid := rfl
@[simp] theorem accept_planeValid (w : Word) : (accept w s).planeValid = s.planeValid := rfl
@[simp] theorem accept_idxValid (w : Word) : (accept w s).idxValid = false := rfl
@[simp] theorem accept_oob (w : Word) : (accept w s).oob = false := rfl
@[simp] theorem accept_palMiss (w : Word) : (accept w s).palMiss = false := rfl
@[simp] theorem accept_phase (w : Word) : (accept w s).phase = s.phase := rfl
@[simp] theorem accept_errKind (w : Word) : (accept w s).errKind = .none := rfl
@[simp] theorem accept_errStage (w : Word) : (accept w s).errStage = .idle := rfl
@[simp] theorem accept_errInfo (w : Word) : (accept w s).errInfo = 0 := rfl
@[simp] theorem accept_mode (w : Word) : (accept w s).mode = s.mode := rfl
@[simp] theorem accept_width (w : Word) : (accept w s).width = s.width := rfl
@[simp] theorem accept_height (w : Word) : (accept w s).height = s.height := rfl
@[simp] theorem accept_palLen (w : Word) : (accept w s).palLen = s.palLen := rfl
@[simp] theorem accept_planeLen (w : Word) : (accept w s).planeLen = s.planeLen := rfl
@[simp] theorem accept_argX (w : Word) : (accept w s).argX = s.argX := rfl
@[simp] theorem accept_argY (w : Word) : (accept w s).argY = s.argY := rfl
@[simp] theorem accept_argW (w : Word) : (accept w s).argW = s.argW := rfl
@[simp] theorem accept_argH (w : Word) : (accept w s).argH = s.argH := rfl
@[simp] theorem accept_argRG (w : Word) : (accept w s).argRG = s.argRG := rfl
@[simp] theorem accept_argBA (w : Word) : (accept w s).argBA = s.argBA := rfl
@[simp] theorem accept_resIdx (w : Word) : (accept w s).resIdx = 0 := rfl
@[simp] theorem accept_resColor (w : Word) : (accept w s).resColor = ⟨0, 0, 0, 0⟩ := rfl
@[simp] theorem accept_inPos (w : Word) : (accept w s).inPos = s.inPos := rfl
@[simp] theorem accept_outPos (w : Word) : (accept w s).outPos = s.outPos := rfl
@[simp] theorem accept_pixCnt (w : Word) : (accept w s).pixCnt = s.pixCnt := rfl
@[simp] theorem accept_curOp (w : Word) : (accept w s).curOp = s.curOp := rfl
@[simp] theorem accept_sigMiss (w : Word) : (accept w s).sigMiss = s.sigMiss := rfl
@[simp] theorem accept_dimBuf (w : Word) : (accept w s).dimBuf = s.dimBuf := rfl
@[simp] theorem accept_eb (w : Word) : (accept w s).eb = s.eb := rfl
@[simp] theorem accept_eDC (w : Word) : (accept w s).eDC = s.eDC := rfl
@[simp] theorem accept_eEP (w : Word) : (accept w s).eEP = s.eEP := rfl
@[simp] theorem accept_ePS (w : Word) : (accept w s).ePS = s.ePS := rfl
@[simp] theorem accept_eW (w : Word) : (accept w s).eW = s.eW := rfl
@[simp] theorem accept_eH (w : Word) : (accept w s).eH = s.eH := rfl
@[simp] theorem accept_acc (w : Word) : (accept w s).acc = s.acc := rfl
@[simp] theorem accept_nfill (w : Word) : (accept w s).nfill = s.nfill := rfl
@[simp] theorem accept_palette (w : Word) : (accept w s).palette = s.palette := rfl
@[simp] theorem accept_plane (w : Word) : (accept w s).plane = s.plane := rfl
@[simp] theorem accept_inFifo (w : Word) : (accept w s).inFifo = s.inFifo := rfl
@[simp] theorem accept_pixFifo (w : Word) : (accept w s).pixFifo = s.pixFifo := rfl
@[simp] theorem accept_outFifo (w : Word) : (accept w s).outFifo = s.outFifo := rfl
@[simp] theorem accept_agenda (w : Word) : (accept w s).agenda = s.agenda := rfl
@[simp] theorem accept_hostLog (w : Word) : (accept w s).hostLog = s.hostLog := rfl

/-! ### `complete` -/

@[simp] theorem complete_cfg : (complete s).cfg = s.cfg := rfl
@[simp] theorem complete_cmd : (complete s).cmd = s.cmd := rfl
@[simp] theorem complete_busy : (complete s).busy = false := rfl
@[simp] theorem complete_err : (complete s).err = s.err := rfl
@[simp] theorem complete_cfgValid : (complete s).cfgValid = s.cfgValid := rfl
@[simp] theorem complete_planeValid : (complete s).planeValid = s.planeValid := rfl
@[simp] theorem complete_idxValid : (complete s).idxValid = s.idxValid := rfl
@[simp] theorem complete_oob : (complete s).oob = s.oob := rfl
@[simp] theorem complete_palMiss : (complete s).palMiss = s.palMiss := rfl
@[simp] theorem complete_phase : (complete s).phase = .idle := rfl
@[simp] theorem complete_errKind : (complete s).errKind = s.errKind := rfl
@[simp] theorem complete_errStage : (complete s).errStage = s.errStage := rfl
@[simp] theorem complete_errInfo : (complete s).errInfo = s.errInfo := rfl
@[simp] theorem complete_mode : (complete s).mode = s.mode := rfl
@[simp] theorem complete_width : (complete s).width = s.width := rfl
@[simp] theorem complete_height : (complete s).height = s.height := rfl
@[simp] theorem complete_palLen : (complete s).palLen = s.palLen := rfl
@[simp] theorem complete_planeLen : (complete s).planeLen = s.planeLen := rfl
@[simp] theorem complete_argX : (complete s).argX = s.argX := rfl
@[simp] theorem complete_argY : (complete s).argY = s.argY := rfl
@[simp] theorem complete_argW : (complete s).argW = s.argW := rfl
@[simp] theorem complete_argH : (complete s).argH = s.argH := rfl
@[simp] theorem complete_argRG : (complete s).argRG = s.argRG := rfl
@[simp] theorem complete_argBA : (complete s).argBA = s.argBA := rfl
@[simp] theorem complete_resIdx : (complete s).resIdx = s.resIdx := rfl
@[simp] theorem complete_resColor : (complete s).resColor = s.resColor := rfl
@[simp] theorem complete_inPos : (complete s).inPos = s.inPos := rfl
@[simp] theorem complete_outPos : (complete s).outPos = s.outPos := rfl
@[simp] theorem complete_pixCnt : (complete s).pixCnt = s.pixCnt := rfl
@[simp] theorem complete_curOp : (complete s).curOp = .none := rfl
@[simp] theorem complete_sigMiss : (complete s).sigMiss = s.sigMiss := rfl
@[simp] theorem complete_dimBuf : (complete s).dimBuf = s.dimBuf := rfl
@[simp] theorem complete_eb : (complete s).eb = s.eb := rfl
@[simp] theorem complete_eDC : (complete s).eDC = s.eDC := rfl
@[simp] theorem complete_eEP : (complete s).eEP = s.eEP := rfl
@[simp] theorem complete_ePS : (complete s).ePS = s.ePS := rfl
@[simp] theorem complete_eW : (complete s).eW = s.eW := rfl
@[simp] theorem complete_eH : (complete s).eH = s.eH := rfl
@[simp] theorem complete_acc : (complete s).acc = s.acc := rfl
@[simp] theorem complete_nfill : (complete s).nfill = s.nfill := rfl
@[simp] theorem complete_palette : (complete s).palette = s.palette := rfl
@[simp] theorem complete_plane : (complete s).plane = s.plane := rfl
@[simp] theorem complete_inFifo : (complete s).inFifo = s.inFifo := rfl
@[simp] theorem complete_pixFifo : (complete s).pixFifo = s.pixFifo := rfl
@[simp] theorem complete_outFifo : (complete s).outFifo = s.outFifo := rfl
@[simp] theorem complete_agenda : (complete s).agenda = s.agenda := rfl
@[simp] theorem complete_hostLog : (complete s).hostLog = s.hostLog := rfl

/-! ### `clearConfig` -/

@[simp] theorem clearConfig_cfg : (clearConfig s).cfg = s.cfg := rfl
@[simp] theorem clearConfig_cmd : (clearConfig s).cmd = s.cmd := rfl
@[simp] theorem clearConfig_busy : (clearConfig s).busy = s.busy := rfl
@[simp] theorem clearConfig_err : (clearConfig s).err = s.err := rfl
@[simp] theorem clearConfig_cfgValid : (clearConfig s).cfgValid = false := rfl
@[simp] theorem clearConfig_planeValid : (clearConfig s).planeValid = false := rfl
@[simp] theorem clearConfig_idxValid : (clearConfig s).idxValid = s.idxValid := rfl
@[simp] theorem clearConfig_oob : (clearConfig s).oob = s.oob := rfl
@[simp] theorem clearConfig_palMiss : (clearConfig s).palMiss = s.palMiss := rfl
@[simp] theorem clearConfig_phase : (clearConfig s).phase = s.phase := rfl
@[simp] theorem clearConfig_errKind : (clearConfig s).errKind = s.errKind := rfl
@[simp] theorem clearConfig_errStage : (clearConfig s).errStage = s.errStage := rfl
@[simp] theorem clearConfig_errInfo : (clearConfig s).errInfo = s.errInfo := rfl
@[simp] theorem clearConfig_mode : (clearConfig s).mode = 0 := rfl
@[simp] theorem clearConfig_width : (clearConfig s).width = 0 := rfl
@[simp] theorem clearConfig_height : (clearConfig s).height = 0 := rfl
@[simp] theorem clearConfig_palLen : (clearConfig s).palLen = 0 := rfl
@[simp] theorem clearConfig_planeLen : (clearConfig s).planeLen = 0 := rfl
@[simp] theorem clearConfig_argX : (clearConfig s).argX = s.argX := rfl
@[simp] theorem clearConfig_argY : (clearConfig s).argY = s.argY := rfl
@[simp] theorem clearConfig_argW : (clearConfig s).argW = s.argW := rfl
@[simp] theorem clearConfig_argH : (clearConfig s).argH = s.argH := rfl
@[simp] theorem clearConfig_argRG : (clearConfig s).argRG = s.argRG := rfl
@[simp] theorem clearConfig_argBA : (clearConfig s).argBA = s.argBA := rfl
@[simp] theorem clearConfig_resIdx : (clearConfig s).resIdx = s.resIdx := rfl
@[simp] theorem clearConfig_resColor : (clearConfig s).resColor = s.resColor := rfl
@[simp] theorem clearConfig_inPos : (clearConfig s).inPos = s.inPos := rfl
@[simp] theorem clearConfig_outPos : (clearConfig s).outPos = s.outPos := rfl
@[simp] theorem clearConfig_pixCnt : (clearConfig s).pixCnt = s.pixCnt := rfl
@[simp] theorem clearConfig_curOp : (clearConfig s).curOp = s.curOp := rfl
@[simp] theorem clearConfig_sigMiss : (clearConfig s).sigMiss = s.sigMiss := rfl
@[simp] theorem clearConfig_dimBuf : (clearConfig s).dimBuf = s.dimBuf := rfl
@[simp] theorem clearConfig_eb : (clearConfig s).eb = s.eb := rfl
@[simp] theorem clearConfig_eDC : (clearConfig s).eDC = s.eDC := rfl
@[simp] theorem clearConfig_eEP : (clearConfig s).eEP = s.eEP := rfl
@[simp] theorem clearConfig_ePS : (clearConfig s).ePS = s.ePS := rfl
@[simp] theorem clearConfig_eW : (clearConfig s).eW = s.eW := rfl
@[simp] theorem clearConfig_eH : (clearConfig s).eH = s.eH := rfl
@[simp] theorem clearConfig_acc : (clearConfig s).acc = s.acc := rfl
@[simp] theorem clearConfig_nfill : (clearConfig s).nfill = s.nfill := rfl
@[simp] theorem clearConfig_palette : (clearConfig s).palette = s.palette := rfl
@[simp] theorem clearConfig_plane : (clearConfig s).plane = s.plane := rfl
@[simp] theorem clearConfig_inFifo : (clearConfig s).inFifo = s.inFifo := rfl
@[simp] theorem clearConfig_pixFifo : (clearConfig s).pixFifo = s.pixFifo := rfl
@[simp] theorem clearConfig_outFifo : (clearConfig s).outFifo = s.outFifo := rfl
@[simp] theorem clearConfig_agenda : (clearConfig s).agenda = s.agenda := rfl
@[simp] theorem clearConfig_hostLog : (clearConfig s).hostLog = s.hostLog := rfl

/-! ### `recordError` -/

@[simp] theorem recordError_cfg (k : ErrKind) (i : Word) : (recordError k i s).cfg = s.cfg := rfl
@[simp] theorem recordError_cmd (k : ErrKind) (i : Word) : (recordError k i s).cmd = s.cmd := rfl
@[simp] theorem recordError_busy (k : ErrKind) (i : Word) : (recordError k i s).busy = s.busy := rfl
@[simp] theorem recordError_err (k : ErrKind) (i : Word) : (recordError k i s).err = true := rfl
@[simp] theorem recordError_cfgValid (k : ErrKind) (i : Word) : (recordError k i s).cfgValid = s.cfgValid := rfl
@[simp] theorem recordError_planeValid (k : ErrKind) (i : Word) : (recordError k i s).planeValid = s.planeValid := rfl
@[simp] theorem recordError_idxValid (k : ErrKind) (i : Word) : (recordError k i s).idxValid = s.idxValid := rfl
@[simp] theorem recordError_oob (k : ErrKind) (i : Word) : (recordError k i s).oob = s.oob := rfl
@[simp] theorem recordError_palMiss (k : ErrKind) (i : Word) : (recordError k i s).palMiss = s.palMiss := rfl
@[simp] theorem recordError_phase (k : ErrKind) (i : Word) : (recordError k i s).phase = s.phase := rfl
@[simp] theorem recordError_errKind (k : ErrKind) (i : Word) : (recordError k i s).errKind = k := rfl
@[simp] theorem recordError_errStage (k : ErrKind) (i : Word) : (recordError k i s).errStage = s.phase := rfl
@[simp] theorem recordError_errInfo (k : ErrKind) (i : Word) : (recordError k i s).errInfo = i := rfl
@[simp] theorem recordError_mode (k : ErrKind) (i : Word) : (recordError k i s).mode = s.mode := rfl
@[simp] theorem recordError_width (k : ErrKind) (i : Word) : (recordError k i s).width = s.width := rfl
@[simp] theorem recordError_height (k : ErrKind) (i : Word) : (recordError k i s).height = s.height := rfl
@[simp] theorem recordError_palLen (k : ErrKind) (i : Word) : (recordError k i s).palLen = s.palLen := rfl
@[simp] theorem recordError_planeLen (k : ErrKind) (i : Word) : (recordError k i s).planeLen = s.planeLen := rfl
@[simp] theorem recordError_argX (k : ErrKind) (i : Word) : (recordError k i s).argX = s.argX := rfl
@[simp] theorem recordError_argY (k : ErrKind) (i : Word) : (recordError k i s).argY = s.argY := rfl
@[simp] theorem recordError_argW (k : ErrKind) (i : Word) : (recordError k i s).argW = s.argW := rfl
@[simp] theorem recordError_argH (k : ErrKind) (i : Word) : (recordError k i s).argH = s.argH := rfl
@[simp] theorem recordError_argRG (k : ErrKind) (i : Word) : (recordError k i s).argRG = s.argRG := rfl
@[simp] theorem recordError_argBA (k : ErrKind) (i : Word) : (recordError k i s).argBA = s.argBA := rfl
@[simp] theorem recordError_resIdx (k : ErrKind) (i : Word) : (recordError k i s).resIdx = s.resIdx := rfl
@[simp] theorem recordError_resColor (k : ErrKind) (i : Word) : (recordError k i s).resColor = s.resColor := rfl
@[simp] theorem recordError_inPos (k : ErrKind) (i : Word) : (recordError k i s).inPos = s.inPos := rfl
@[simp] theorem recordError_outPos (k : ErrKind) (i : Word) : (recordError k i s).outPos = s.outPos := rfl
@[simp] theorem recordError_pixCnt (k : ErrKind) (i : Word) : (recordError k i s).pixCnt = s.pixCnt := rfl
@[simp] theorem recordError_curOp (k : ErrKind) (i : Word) : (recordError k i s).curOp = s.curOp := rfl
@[simp] theorem recordError_sigMiss (k : ErrKind) (i : Word) : (recordError k i s).sigMiss = s.sigMiss := rfl
@[simp] theorem recordError_dimBuf (k : ErrKind) (i : Word) : (recordError k i s).dimBuf = s.dimBuf := rfl
@[simp] theorem recordError_eb (k : ErrKind) (i : Word) : (recordError k i s).eb = s.eb := rfl
@[simp] theorem recordError_eDC (k : ErrKind) (i : Word) : (recordError k i s).eDC = s.eDC := rfl
@[simp] theorem recordError_eEP (k : ErrKind) (i : Word) : (recordError k i s).eEP = s.eEP := rfl
@[simp] theorem recordError_ePS (k : ErrKind) (i : Word) : (recordError k i s).ePS = s.ePS := rfl
@[simp] theorem recordError_eW (k : ErrKind) (i : Word) : (recordError k i s).eW = s.eW := rfl
@[simp] theorem recordError_eH (k : ErrKind) (i : Word) : (recordError k i s).eH = s.eH := rfl
@[simp] theorem recordError_acc (k : ErrKind) (i : Word) : (recordError k i s).acc = s.acc := rfl
@[simp] theorem recordError_nfill (k : ErrKind) (i : Word) : (recordError k i s).nfill = s.nfill := rfl
@[simp] theorem recordError_palette (k : ErrKind) (i : Word) : (recordError k i s).palette = s.palette := rfl
@[simp] theorem recordError_plane (k : ErrKind) (i : Word) : (recordError k i s).plane = s.plane := rfl
@[simp] theorem recordError_inFifo (k : ErrKind) (i : Word) : (recordError k i s).inFifo = s.inFifo := rfl
@[simp] theorem recordError_pixFifo (k : ErrKind) (i : Word) : (recordError k i s).pixFifo = s.pixFifo := rfl
@[simp] theorem recordError_outFifo (k : ErrKind) (i : Word) : (recordError k i s).outFifo = s.outFifo := rfl
@[simp] theorem recordError_agenda (k : ErrKind) (i : Word) : (recordError k i s).agenda = s.agenda := rfl
@[simp] theorem recordError_hostLog (k : ErrKind) (i : Word) : (recordError k i s).hostLog = s.hostLog := rfl

/-! ### `raise` -/

@[simp] theorem raise_cfg (k : ErrKind) (i : Word) : (raise k i s).cfg = s.cfg := by unfold raise; split <;> rfl
@[simp] theorem raise_cmd (k : ErrKind) (i : Word) : (raise k i s).cmd = s.cmd := by unfold raise; split <;> rfl
@[simp] theorem raise_busy (k : ErrKind) (i : Word) : (raise k i s).busy = false := by unfold raise; split <;> rfl
@[simp] theorem raise_err (k : ErrKind) (i : Word) : (raise k i s).err = true := by unfold raise; split <;> rfl
@[simp] theorem raise_cfgValid (k : ErrKind) (i : Word) : (raise k i s).cfgValid = if s.curOp.isDecode then false else s.cfgValid := by unfold raise; split <;> rfl
@[simp] theorem raise_planeValid (k : ErrKind) (i : Word) : (raise k i s).planeValid = if s.curOp.isDecode then false else s.planeValid := by unfold raise; split <;> rfl
@[simp] theorem raise_idxValid (k : ErrKind) (i : Word) : (raise k i s).idxValid = s.idxValid := by unfold raise; split <;> rfl
@[simp] theorem raise_oob (k : ErrKind) (i : Word) : (raise k i s).oob = s.oob := by unfold raise; split <;> rfl
@[simp] theorem raise_palMiss (k : ErrKind) (i : Word) : (raise k i s).palMiss = s.palMiss := by unfold raise; split <;> rfl
@[simp] theorem raise_phase (k : ErrKind) (i : Word) : (raise k i s).phase = .idle := by unfold raise; split <;> rfl
@[simp] theorem raise_errKind (k : ErrKind) (i : Word) : (raise k i s).errKind = k := by unfold raise; split <;> rfl
@[simp] theorem raise_errStage (k : ErrKind) (i : Word) : (raise k i s).errStage = s.phase := by unfold raise; split <;> rfl
@[simp] theorem raise_errInfo (k : ErrKind) (i : Word) : (raise k i s).errInfo = i := by unfold raise; split <;> rfl
@[simp] theorem raise_mode (k : ErrKind) (i : Word) : (raise k i s).mode = if s.curOp.isDecode then 0 else s.mode := by unfold raise; split <;> rfl
@[simp] theorem raise_width (k : ErrKind) (i : Word) : (raise k i s).width = if s.curOp.isDecode then 0 else s.width := by unfold raise; split <;> rfl
@[simp] theorem raise_height (k : ErrKind) (i : Word) : (raise k i s).height = if s.curOp.isDecode then 0 else s.height := by unfold raise; split <;> rfl
@[simp] theorem raise_palLen (k : ErrKind) (i : Word) : (raise k i s).palLen = if s.curOp.isDecode then 0 else s.palLen := by unfold raise; split <;> rfl
@[simp] theorem raise_planeLen (k : ErrKind) (i : Word) : (raise k i s).planeLen = if s.curOp.isDecode then 0 else s.planeLen := by unfold raise; split <;> rfl
@[simp] theorem raise_argX (k : ErrKind) (i : Word) : (raise k i s).argX = s.argX := by unfold raise; split <;> rfl
@[simp] theorem raise_argY (k : ErrKind) (i : Word) : (raise k i s).argY = s.argY := by unfold raise; split <;> rfl
@[simp] theorem raise_argW (k : ErrKind) (i : Word) : (raise k i s).argW = s.argW := by unfold raise; split <;> rfl
@[simp] theorem raise_argH (k : ErrKind) (i : Word) : (raise k i s).argH = s.argH := by unfold raise; split <;> rfl
@[simp] theorem raise_argRG (k : ErrKind) (i : Word) : (raise k i s).argRG = s.argRG := by unfold raise; split <;> rfl
@[simp] theorem raise_argBA (k : ErrKind) (i : Word) : (raise k i s).argBA = s.argBA := by unfold raise; split <;> rfl
@[simp] theorem raise_resIdx (k : ErrKind) (i : Word) : (raise k i s).resIdx = s.resIdx := by unfold raise; split <;> rfl
@[simp] theorem raise_resColor (k : ErrKind) (i : Word) : (raise k i s).resColor = s.resColor := by unfold raise; split <;> rfl
@[simp] theorem raise_inPos (k : ErrKind) (i : Word) : (raise k i s).inPos = s.inPos := by unfold raise; split <;> rfl
@[simp] theorem raise_outPos (k : ErrKind) (i : Word) : (raise k i s).outPos = s.outPos := by unfold raise; split <;> rfl
@[simp] theorem raise_pixCnt (k : ErrKind) (i : Word) : (raise k i s).pixCnt = s.pixCnt := by unfold raise; split <;> rfl
@[simp] theorem raise_curOp (k : ErrKind) (i : Word) : (raise k i s).curOp = .none := by unfold raise; split <;> rfl
@[simp] theorem raise_sigMiss (k : ErrKind) (i : Word) : (raise k i s).sigMiss = s.sigMiss := by unfold raise; split <;> rfl
@[simp] theorem raise_dimBuf (k : ErrKind) (i : Word) : (raise k i s).dimBuf = s.dimBuf := by unfold raise; split <;> rfl
@[simp] theorem raise_eb (k : ErrKind) (i : Word) : (raise k i s).eb = s.eb := by unfold raise; split <;> rfl
@[simp] theorem raise_eDC (k : ErrKind) (i : Word) : (raise k i s).eDC = s.eDC := by unfold raise; split <;> rfl
@[simp] theorem raise_eEP (k : ErrKind) (i : Word) : (raise k i s).eEP = s.eEP := by unfold raise; split <;> rfl
@[simp] theorem raise_ePS (k : ErrKind) (i : Word) : (raise k i s).ePS = s.ePS := by unfold raise; split <;> rfl
@[simp] theorem raise_eW (k : ErrKind) (i : Word) : (raise k i s).eW = s.eW := by unfold raise; split <;> rfl
@[simp] theorem raise_eH (k : ErrKind) (i : Word) : (raise k i s).eH = s.eH := by unfold raise; split <;> rfl
@[simp] theorem raise_acc (k : ErrKind) (i : Word) : (raise k i s).acc = s.acc := by unfold raise; split <;> rfl
@[simp] theorem raise_nfill (k : ErrKind) (i : Word) : (raise k i s).nfill = s.nfill := by unfold raise; split <;> rfl
@[simp] theorem raise_palette (k : ErrKind) (i : Word) : (raise k i s).palette = s.palette := by unfold raise; split <;> rfl
@[simp] theorem raise_plane (k : ErrKind) (i : Word) : (raise k i s).plane = s.plane := by unfold raise; split <;> rfl
@[simp] theorem raise_inFifo (k : ErrKind) (i : Word) : (raise k i s).inFifo = s.inFifo := by unfold raise; split <;> rfl
@[simp] theorem raise_pixFifo (k : ErrKind) (i : Word) : (raise k i s).pixFifo = s.pixFifo := by unfold raise; split <;> rfl
@[simp] theorem raise_outFifo (k : ErrKind) (i : Word) : (raise k i s).outFifo = s.outFifo := by unfold raise; split <;> rfl
@[simp] theorem raise_agenda (k : ErrKind) (i : Word) : (raise k i s).agenda = s.agenda := by unfold raise; split <;> rfl
@[simp] theorem raise_hostLog (k : ErrKind) (i : Word) : (raise k i s).hostLog = s.hostLog := by unfold raise; split <;> rfl

/-! ### `setIndex` -/

@[simp] theorem setIndex_cfg (b : Byte) : (setIndex b s).cfg = s.cfg := rfl
@[simp] theorem setIndex_cmd (b : Byte) : (setIndex b s).cmd = s.cmd := rfl
@[simp] theorem setIndex_busy (b : Byte) : (setIndex b s).busy = s.busy := rfl
@[simp] theorem setIndex_err (b : Byte) : (setIndex b s).err = s.err := rfl
@[simp] theorem setIndex_cfgValid (b : Byte) : (setIndex b s).cfgValid = s.cfgValid := rfl
@[simp] theorem setIndex_planeValid (b : Byte) : (setIndex b s).planeValid = s.planeValid := rfl
@[simp] theorem setIndex_idxValid (b : Byte) : (setIndex b s).idxValid = true := rfl
@[simp] theorem setIndex_oob (b : Byte) : (setIndex b s).oob = s.oob := rfl
@[simp] theorem setIndex_palMiss (b : Byte) : (setIndex b s).palMiss = s.palMiss := rfl
@[simp] theorem setIndex_phase (b : Byte) : (setIndex b s).phase = s.phase := rfl
@[simp] theorem setIndex_errKind (b : Byte) : (setIndex b s).errKind = s.errKind := rfl
@[simp] theorem setIndex_errStage (b : Byte) : (setIndex b s).errStage = s.errStage := rfl
@[simp] theorem setIndex_errInfo (b : Byte) : (setIndex b s).errInfo = s.errInfo := rfl
@[simp] theorem setIndex_mode (b : Byte) : (setIndex b s).mode = s.mode := rfl
@[simp] theorem setIndex_width (b : Byte) : (setIndex b s).width = s.width := rfl
@[simp] theorem setIndex_height (b : Byte) : (setIndex b s).height = s.height := rfl
@[simp] theorem setIndex_palLen (b : Byte) : (setIndex b s).palLen = s.palLen := rfl
@[simp] theorem setIndex_planeLen (b : Byte) : (setIndex b s).planeLen = s.planeLen := rfl
@[simp] theorem setIndex_argX (b : Byte) : (setIndex b s).argX = s.argX := rfl
@[simp] theorem setIndex_argY (b : Byte) : (setIndex b s).argY = s.argY := rfl
@[simp] theorem setIndex_argW (b : Byte) : (setIndex b s).argW = s.argW := rfl
@[simp] theorem setIndex_argH (b : Byte) : (setIndex b s).argH = s.argH := rfl
@[simp] theorem setIndex_argRG (b : Byte) : (setIndex b s).argRG = s.argRG := rfl
@[simp] theorem setIndex_argBA (b : Byte) : (setIndex b s).argBA = s.argBA := rfl
@[simp] theorem setIndex_resIdx (b : Byte) : (setIndex b s).resIdx = b := rfl
@[simp] theorem setIndex_resColor (b : Byte) : (setIndex b s).resColor = s.resColor := rfl
@[simp] theorem setIndex_inPos (b : Byte) : (setIndex b s).inPos = s.inPos := rfl
@[simp] theorem setIndex_outPos (b : Byte) : (setIndex b s).outPos = s.outPos := rfl
@[simp] theorem setIndex_pixCnt (b : Byte) : (setIndex b s).pixCnt = s.pixCnt := rfl
@[simp] theorem setIndex_curOp (b : Byte) : (setIndex b s).curOp = s.curOp := rfl
@[simp] theorem setIndex_sigMiss (b : Byte) : (setIndex b s).sigMiss = s.sigMiss := rfl
@[simp] theorem setIndex_dimBuf (b : Byte) : (setIndex b s).dimBuf = s.dimBuf := rfl
@[simp] theorem setIndex_eb (b : Byte) : (setIndex b s).eb = s.eb := rfl
@[simp] theorem setIndex_eDC (b : Byte) : (setIndex b s).eDC = s.eDC := rfl
@[simp] theorem setIndex_eEP (b : Byte) : (setIndex b s).eEP = s.eEP := rfl
@[simp] theorem setIndex_ePS (b : Byte) : (setIndex b s).ePS = s.ePS := rfl
@[simp] theorem setIndex_eW (b : Byte) : (setIndex b s).eW = s.eW := rfl
@[simp] theorem setIndex_eH (b : Byte) : (setIndex b s).eH = s.eH := rfl
@[simp] theorem setIndex_acc (b : Byte) : (setIndex b s).acc = s.acc := rfl
@[simp] theorem setIndex_nfill (b : Byte) : (setIndex b s).nfill = s.nfill := rfl
@[simp] theorem setIndex_palette (b : Byte) : (setIndex b s).palette = s.palette := rfl
@[simp] theorem setIndex_plane (b : Byte) : (setIndex b s).plane = s.plane := rfl
@[simp] theorem setIndex_inFifo (b : Byte) : (setIndex b s).inFifo = s.inFifo := rfl
@[simp] theorem setIndex_pixFifo (b : Byte) : (setIndex b s).pixFifo = s.pixFifo := rfl
@[simp] theorem setIndex_outFifo (b : Byte) : (setIndex b s).outFifo = s.outFifo := rfl
@[simp] theorem setIndex_agenda (b : Byte) : (setIndex b s).agenda = s.agenda := rfl
@[simp] theorem setIndex_hostLog (b : Byte) : (setIndex b s).hostLog = s.hostLog := rfl

/-! ### `setConverted` -/

@[simp] theorem setConverted_cfg (b : Byte) : (setConverted b s).cfg = s.cfg := rfl
@[simp] theorem setConverted_cmd (b : Byte) : (setConverted b s).cmd = s.cmd := rfl
@[simp] theorem setConverted_busy (b : Byte) : (setConverted b s).busy = s.busy := rfl
@[simp] theorem setConverted_err (b : Byte) : (setConverted b s).err = s.err := rfl
@[simp] theorem setConverted_cfgValid (b : Byte) : (setConverted b s).cfgValid = s.cfgValid := rfl
@[simp] theorem setConverted_planeValid (b : Byte) : (setConverted b s).planeValid = s.planeValid := rfl
@[simp] theorem setConverted_idxValid (b : Byte) : (setConverted b s).idxValid = s.idxValid := rfl
@[simp] theorem setConverted_oob (b : Byte) : (setConverted b s).oob = s.oob := rfl
@[simp] theorem setConverted_palMiss (b : Byte) : (setConverted b s).palMiss = if b.toNat < s.palLen.toNat then s.palMiss else true := rfl
@[simp] theorem setConverted_phase (b : Byte) : (setConverted b s).phase = s.phase := rfl
@[simp] theorem setConverted_errKind (b : Byte) : (setConverted b s).errKind = s.errKind := rfl
@[simp] theorem setConverted_errStage (b : Byte) : (setConverted b s).errStage = s.errStage := rfl
@[simp] theorem setConverted_errInfo (b : Byte) : (setConverted b s).errInfo = s.errInfo := rfl
@[simp] theorem setConverted_mode (b : Byte) : (setConverted b s).mode = s.mode := rfl
@[simp] theorem setConverted_width (b : Byte) : (setConverted b s).width = s.width := rfl
@[simp] theorem setConverted_height (b : Byte) : (setConverted b s).height = s.height := rfl
@[simp] theorem setConverted_palLen (b : Byte) : (setConverted b s).palLen = s.palLen := rfl
@[simp] theorem setConverted_planeLen (b : Byte) : (setConverted b s).planeLen = s.planeLen := rfl
@[simp] theorem setConverted_argX (b : Byte) : (setConverted b s).argX = s.argX := rfl
@[simp] theorem setConverted_argY (b : Byte) : (setConverted b s).argY = s.argY := rfl
@[simp] theorem setConverted_argW (b : Byte) : (setConverted b s).argW = s.argW := rfl
@[simp] theorem setConverted_argH (b : Byte) : (setConverted b s).argH = s.argH := rfl
@[simp] theorem setConverted_argRG (b : Byte) : (setConverted b s).argRG = s.argRG := rfl
@[simp] theorem setConverted_argBA (b : Byte) : (setConverted b s).argBA = s.argBA := rfl
@[simp] theorem setConverted_resIdx (b : Byte) : (setConverted b s).resIdx = s.resIdx := rfl
@[simp] theorem setConverted_resColor (b : Byte) : (setConverted b s).resColor = convert s b := rfl
@[simp] theorem setConverted_inPos (b : Byte) : (setConverted b s).inPos = s.inPos := rfl
@[simp] theorem setConverted_outPos (b : Byte) : (setConverted b s).outPos = s.outPos := rfl
@[simp] theorem setConverted_pixCnt (b : Byte) : (setConverted b s).pixCnt = s.pixCnt := rfl
@[simp] theorem setConverted_curOp (b : Byte) : (setConverted b s).curOp = s.curOp := rfl
@[simp] theorem setConverted_sigMiss (b : Byte) : (setConverted b s).sigMiss = s.sigMiss := rfl
@[simp] theorem setConverted_dimBuf (b : Byte) : (setConverted b s).dimBuf = s.dimBuf := rfl
@[simp] theorem setConverted_eb (b : Byte) : (setConverted b s).eb = s.eb := rfl
@[simp] theorem setConverted_eDC (b : Byte) : (setConverted b s).eDC = s.eDC := rfl
@[simp] theorem setConverted_eEP (b : Byte) : (setConverted b s).eEP = s.eEP := rfl
@[simp] theorem setConverted_ePS (b : Byte) : (setConverted b s).ePS = s.ePS := rfl
@[simp] theorem setConverted_eW (b : Byte) : (setConverted b s).eW = s.eW := rfl
@[simp] theorem setConverted_eH (b : Byte) : (setConverted b s).eH = s.eH := rfl
@[simp] theorem setConverted_acc (b : Byte) : (setConverted b s).acc = s.acc := rfl
@[simp] theorem setConverted_nfill (b : Byte) : (setConverted b s).nfill = s.nfill := rfl
@[simp] theorem setConverted_palette (b : Byte) : (setConverted b s).palette = s.palette := rfl
@[simp] theorem setConverted_plane (b : Byte) : (setConverted b s).plane = s.plane := rfl
@[simp] theorem setConverted_inFifo (b : Byte) : (setConverted b s).inFifo = s.inFifo := rfl
@[simp] theorem setConverted_pixFifo (b : Byte) : (setConverted b s).pixFifo = s.pixFifo := rfl
@[simp] theorem setConverted_outFifo (b : Byte) : (setConverted b s).outFifo = s.outFifo := rfl
@[simp] theorem setConverted_agenda (b : Byte) : (setConverted b s).agenda = s.agenda := rfl
@[simp] theorem setConverted_hostLog (b : Byte) : (setConverted b s).hostLog = s.hostLog := rfl

/-! ### `loadBuiltin` -/

@[simp] theorem loadBuiltin_cfg (d : Depth) : (loadBuiltin d s).cfg = s.cfg := rfl
@[simp] theorem loadBuiltin_cmd (d : Depth) : (loadBuiltin d s).cmd = s.cmd := rfl
@[simp] theorem loadBuiltin_busy (d : Depth) : (loadBuiltin d s).busy = s.busy := rfl
@[simp] theorem loadBuiltin_err (d : Depth) : (loadBuiltin d s).err = s.err := rfl
@[simp] theorem loadBuiltin_cfgValid (d : Depth) : (loadBuiltin d s).cfgValid = s.cfgValid := rfl
@[simp] theorem loadBuiltin_planeValid (d : Depth) : (loadBuiltin d s).planeValid = s.planeValid := rfl
@[simp] theorem loadBuiltin_idxValid (d : Depth) : (loadBuiltin d s).idxValid = s.idxValid := rfl
@[simp] theorem loadBuiltin_oob (d : Depth) : (loadBuiltin d s).oob = s.oob := rfl
@[simp] theorem loadBuiltin_palMiss (d : Depth) : (loadBuiltin d s).palMiss = s.palMiss := rfl
@[simp] theorem loadBuiltin_phase (d : Depth) : (loadBuiltin d s).phase = s.phase := rfl
@[simp] theorem loadBuiltin_errKind (d : Depth) : (loadBuiltin d s).errKind = s.errKind := rfl
@[simp] theorem loadBuiltin_errStage (d : Depth) : (loadBuiltin d s).errStage = s.errStage := rfl
@[simp] theorem loadBuiltin_errInfo (d : Depth) : (loadBuiltin d s).errInfo = s.errInfo := rfl
@[simp] theorem loadBuiltin_mode (d : Depth) : (loadBuiltin d s).mode = s.mode := rfl
@[simp] theorem loadBuiltin_width (d : Depth) : (loadBuiltin d s).width = s.width := rfl
@[simp] theorem loadBuiltin_height (d : Depth) : (loadBuiltin d s).height = s.height := rfl
@[simp] theorem loadBuiltin_palLen (d : Depth) : (loadBuiltin d s).palLen = BitVec.ofNat 9 d.palSize := rfl
@[simp] theorem loadBuiltin_planeLen (d : Depth) : (loadBuiltin d s).planeLen = s.planeLen := rfl
@[simp] theorem loadBuiltin_argX (d : Depth) : (loadBuiltin d s).argX = s.argX := rfl
@[simp] theorem loadBuiltin_argY (d : Depth) : (loadBuiltin d s).argY = s.argY := rfl
@[simp] theorem loadBuiltin_argW (d : Depth) : (loadBuiltin d s).argW = s.argW := rfl
@[simp] theorem loadBuiltin_argH (d : Depth) : (loadBuiltin d s).argH = s.argH := rfl
@[simp] theorem loadBuiltin_argRG (d : Depth) : (loadBuiltin d s).argRG = s.argRG := rfl
@[simp] theorem loadBuiltin_argBA (d : Depth) : (loadBuiltin d s).argBA = s.argBA := rfl
@[simp] theorem loadBuiltin_resIdx (d : Depth) : (loadBuiltin d s).resIdx = s.resIdx := rfl
@[simp] theorem loadBuiltin_resColor (d : Depth) : (loadBuiltin d s).resColor = s.resColor := rfl
@[simp] theorem loadBuiltin_inPos (d : Depth) : (loadBuiltin d s).inPos = s.inPos := rfl
@[simp] theorem loadBuiltin_outPos (d : Depth) : (loadBuiltin d s).outPos = s.outPos := rfl
@[simp] theorem loadBuiltin_pixCnt (d : Depth) : (loadBuiltin d s).pixCnt = s.pixCnt := rfl
@[simp] theorem loadBuiltin_curOp (d : Depth) : (loadBuiltin d s).curOp = s.curOp := rfl
@[simp] theorem loadBuiltin_sigMiss (d : Depth) : (loadBuiltin d s).sigMiss = s.sigMiss := rfl
@[simp] theorem loadBuiltin_dimBuf (d : Depth) : (loadBuiltin d s).dimBuf = s.dimBuf := rfl
@[simp] theorem loadBuiltin_eb (d : Depth) : (loadBuiltin d s).eb = s.eb := rfl
@[simp] theorem loadBuiltin_eDC (d : Depth) : (loadBuiltin d s).eDC = s.eDC := rfl
@[simp] theorem loadBuiltin_eEP (d : Depth) : (loadBuiltin d s).eEP = s.eEP := rfl
@[simp] theorem loadBuiltin_ePS (d : Depth) : (loadBuiltin d s).ePS = s.ePS := rfl
@[simp] theorem loadBuiltin_eW (d : Depth) : (loadBuiltin d s).eW = s.eW := rfl
@[simp] theorem loadBuiltin_eH (d : Depth) : (loadBuiltin d s).eH = s.eH := rfl
@[simp] theorem loadBuiltin_acc (d : Depth) : (loadBuiltin d s).acc = s.acc := rfl
@[simp] theorem loadBuiltin_nfill (d : Depth) : (loadBuiltin d s).nfill = s.nfill := rfl
@[simp] theorem loadBuiltin_palette (d : Depth) : (loadBuiltin d s).palette = builtinInto d s.palette := rfl
@[simp] theorem loadBuiltin_plane (d : Depth) : (loadBuiltin d s).plane = s.plane := rfl
@[simp] theorem loadBuiltin_inFifo (d : Depth) : (loadBuiltin d s).inFifo = s.inFifo := rfl
@[simp] theorem loadBuiltin_pixFifo (d : Depth) : (loadBuiltin d s).pixFifo = s.pixFifo := rfl
@[simp] theorem loadBuiltin_outFifo (d : Depth) : (loadBuiltin d s).outFifo = s.outFifo := rfl
@[simp] theorem loadBuiltin_agenda (d : Depth) : (loadBuiltin d s).agenda = s.agenda := rfl
@[simp] theorem loadBuiltin_hostLog (d : Depth) : (loadBuiltin d s).hostLog = s.hostLog := rfl

/-! ### `setEntry` -/

@[simp] theorem setEntry_cfg (b : Byte) (c : Color8) : (setEntry b c s).cfg = s.cfg := rfl
@[simp] theorem setEntry_cmd (b : Byte) (c : Color8) : (setEntry b c s).cmd = s.cmd := rfl
@[simp] theorem setEntry_busy (b : Byte) (c : Color8) : (setEntry b c s).busy = s.busy := rfl
@[simp] theorem setEntry_err (b : Byte) (c : Color8) : (setEntry b c s).err = s.err := rfl
@[simp] theorem setEntry_cfgValid (b : Byte) (c : Color8) : (setEntry b c s).cfgValid = s.cfgValid := rfl
@[simp] theorem setEntry_planeValid (b : Byte) (c : Color8) : (setEntry b c s).planeValid = s.planeValid := rfl
@[simp] theorem setEntry_idxValid (b : Byte) (c : Color8) : (setEntry b c s).idxValid = s.idxValid := rfl
@[simp] theorem setEntry_oob (b : Byte) (c : Color8) : (setEntry b c s).oob = s.oob := rfl
@[simp] theorem setEntry_palMiss (b : Byte) (c : Color8) : (setEntry b c s).palMiss = s.palMiss := rfl
@[simp] theorem setEntry_phase (b : Byte) (c : Color8) : (setEntry b c s).phase = s.phase := rfl
@[simp] theorem setEntry_errKind (b : Byte) (c : Color8) : (setEntry b c s).errKind = s.errKind := rfl
@[simp] theorem setEntry_errStage (b : Byte) (c : Color8) : (setEntry b c s).errStage = s.errStage := rfl
@[simp] theorem setEntry_errInfo (b : Byte) (c : Color8) : (setEntry b c s).errInfo = s.errInfo := rfl
@[simp] theorem setEntry_mode (b : Byte) (c : Color8) : (setEntry b c s).mode = s.mode := rfl
@[simp] theorem setEntry_width (b : Byte) (c : Color8) : (setEntry b c s).width = s.width := rfl
@[simp] theorem setEntry_height (b : Byte) (c : Color8) : (setEntry b c s).height = s.height := rfl
@[simp] theorem setEntry_palLen (b : Byte) (c : Color8) : (setEntry b c s).palLen = s.palLen := rfl
@[simp] theorem setEntry_planeLen (b : Byte) (c : Color8) : (setEntry b c s).planeLen = s.planeLen := rfl
@[simp] theorem setEntry_argX (b : Byte) (c : Color8) : (setEntry b c s).argX = s.argX := rfl
@[simp] theorem setEntry_argY (b : Byte) (c : Color8) : (setEntry b c s).argY = s.argY := rfl
@[simp] theorem setEntry_argW (b : Byte) (c : Color8) : (setEntry b c s).argW = s.argW := rfl
@[simp] theorem setEntry_argH (b : Byte) (c : Color8) : (setEntry b c s).argH = s.argH := rfl
@[simp] theorem setEntry_argRG (b : Byte) (c : Color8) : (setEntry b c s).argRG = s.argRG := rfl
@[simp] theorem setEntry_argBA (b : Byte) (c : Color8) : (setEntry b c s).argBA = s.argBA := rfl
@[simp] theorem setEntry_resIdx (b : Byte) (c : Color8) : (setEntry b c s).resIdx = s.resIdx := rfl
@[simp] theorem setEntry_resColor (b : Byte) (c : Color8) : (setEntry b c s).resColor = s.resColor := rfl
@[simp] theorem setEntry_inPos (b : Byte) (c : Color8) : (setEntry b c s).inPos = s.inPos := rfl
@[simp] theorem setEntry_outPos (b : Byte) (c : Color8) : (setEntry b c s).outPos = s.outPos := rfl
@[simp] theorem setEntry_pixCnt (b : Byte) (c : Color8) : (setEntry b c s).pixCnt = s.pixCnt := rfl
@[simp] theorem setEntry_curOp (b : Byte) (c : Color8) : (setEntry b c s).curOp = s.curOp := rfl
@[simp] theorem setEntry_sigMiss (b : Byte) (c : Color8) : (setEntry b c s).sigMiss = s.sigMiss := rfl
@[simp] theorem setEntry_dimBuf (b : Byte) (c : Color8) : (setEntry b c s).dimBuf = s.dimBuf := rfl
@[simp] theorem setEntry_eb (b : Byte) (c : Color8) : (setEntry b c s).eb = s.eb := rfl
@[simp] theorem setEntry_eDC (b : Byte) (c : Color8) : (setEntry b c s).eDC = s.eDC := rfl
@[simp] theorem setEntry_eEP (b : Byte) (c : Color8) : (setEntry b c s).eEP = s.eEP := rfl
@[simp] theorem setEntry_ePS (b : Byte) (c : Color8) : (setEntry b c s).ePS = s.ePS := rfl
@[simp] theorem setEntry_eW (b : Byte) (c : Color8) : (setEntry b c s).eW = s.eW := rfl
@[simp] theorem setEntry_eH (b : Byte) (c : Color8) : (setEntry b c s).eH = s.eH := rfl
@[simp] theorem setEntry_acc (b : Byte) (c : Color8) : (setEntry b c s).acc = s.acc := rfl
@[simp] theorem setEntry_nfill (b : Byte) (c : Color8) : (setEntry b c s).nfill = s.nfill := rfl
@[simp] theorem setEntry_palette (b : Byte) (c : Color8) : (setEntry b c s).palette = s.palette.set b.toNat c b.isLt := rfl
@[simp] theorem setEntry_plane (b : Byte) (c : Color8) : (setEntry b c s).plane = s.plane := rfl
@[simp] theorem setEntry_inFifo (b : Byte) (c : Color8) : (setEntry b c s).inFifo = s.inFifo := rfl
@[simp] theorem setEntry_pixFifo (b : Byte) (c : Color8) : (setEntry b c s).pixFifo = s.pixFifo := rfl
@[simp] theorem setEntry_outFifo (b : Byte) (c : Color8) : (setEntry b c s).outFifo = s.outFifo := rfl
@[simp] theorem setEntry_agenda (b : Byte) (c : Color8) : (setEntry b c s).agenda = s.agenda := rfl
@[simp] theorem setEntry_hostLog (b : Byte) (c : Color8) : (setEntry b c s).hostLog = s.hostLog := rfl

/-! ### `outWrite` -/

@[simp] theorem outWrite_cfg (b : Byte) : (outWrite b s).cfg = s.cfg := rfl
@[simp] theorem outWrite_cmd (b : Byte) : (outWrite b s).cmd = s.cmd := rfl
@[simp] theorem outWrite_busy (b : Byte) : (outWrite b s).busy = s.busy := rfl
@[simp] theorem outWrite_err (b : Byte) : (outWrite b s).err = s.err := rfl
@[simp] theorem outWrite_cfgValid (b : Byte) : (outWrite b s).cfgValid = s.cfgValid := rfl
@[simp] theorem outWrite_planeValid (b : Byte) : (outWrite b s).planeValid = s.planeValid := rfl
@[simp] theorem outWrite_idxValid (b : Byte) : (outWrite b s).idxValid = s.idxValid := rfl
@[simp] theorem outWrite_oob (b : Byte) : (outWrite b s).oob = s.oob := rfl
@[simp] theorem outWrite_palMiss (b : Byte) : (outWrite b s).palMiss = s.palMiss := rfl
@[simp] theorem outWrite_phase (b : Byte) : (outWrite b s).phase = s.phase := rfl
@[simp] theorem outWrite_errKind (b : Byte) : (outWrite b s).errKind = s.errKind := rfl
@[simp] theorem outWrite_errStage (b : Byte) : (outWrite b s).errStage = s.errStage := rfl
@[simp] theorem outWrite_errInfo (b : Byte) : (outWrite b s).errInfo = s.errInfo := rfl
@[simp] theorem outWrite_mode (b : Byte) : (outWrite b s).mode = s.mode := rfl
@[simp] theorem outWrite_width (b : Byte) : (outWrite b s).width = s.width := rfl
@[simp] theorem outWrite_height (b : Byte) : (outWrite b s).height = s.height := rfl
@[simp] theorem outWrite_palLen (b : Byte) : (outWrite b s).palLen = s.palLen := rfl
@[simp] theorem outWrite_planeLen (b : Byte) : (outWrite b s).planeLen = s.planeLen := rfl
@[simp] theorem outWrite_argX (b : Byte) : (outWrite b s).argX = s.argX := rfl
@[simp] theorem outWrite_argY (b : Byte) : (outWrite b s).argY = s.argY := rfl
@[simp] theorem outWrite_argW (b : Byte) : (outWrite b s).argW = s.argW := rfl
@[simp] theorem outWrite_argH (b : Byte) : (outWrite b s).argH = s.argH := rfl
@[simp] theorem outWrite_argRG (b : Byte) : (outWrite b s).argRG = s.argRG := rfl
@[simp] theorem outWrite_argBA (b : Byte) : (outWrite b s).argBA = s.argBA := rfl
@[simp] theorem outWrite_resIdx (b : Byte) : (outWrite b s).resIdx = s.resIdx := rfl
@[simp] theorem outWrite_resColor (b : Byte) : (outWrite b s).resColor = s.resColor := rfl
@[simp] theorem outWrite_inPos (b : Byte) : (outWrite b s).inPos = s.inPos := rfl
@[simp] theorem outWrite_outPos (b : Byte) : (outWrite b s).outPos = s.outPos + 1 := rfl
@[simp] theorem outWrite_pixCnt (b : Byte) : (outWrite b s).pixCnt = s.pixCnt := rfl
@[simp] theorem outWrite_curOp (b : Byte) : (outWrite b s).curOp = s.curOp := rfl
@[simp] theorem outWrite_sigMiss (b : Byte) : (outWrite b s).sigMiss = s.sigMiss := rfl
@[simp] theorem outWrite_dimBuf (b : Byte) : (outWrite b s).dimBuf = s.dimBuf := rfl
@[simp] theorem outWrite_eb (b : Byte) : (outWrite b s).eb = s.eb := rfl
@[simp] theorem outWrite_eDC (b : Byte) : (outWrite b s).eDC = s.eDC := rfl
@[simp] theorem outWrite_eEP (b : Byte) : (outWrite b s).eEP = s.eEP := rfl
@[simp] theorem outWrite_ePS (b : Byte) : (outWrite b s).ePS = s.ePS := rfl
@[simp] theorem outWrite_eW (b : Byte) : (outWrite b s).eW = s.eW := rfl
@[simp] theorem outWrite_eH (b : Byte) : (outWrite b s).eH = s.eH := rfl
@[simp] theorem outWrite_acc (b : Byte) : (outWrite b s).acc = s.acc := rfl
@[simp] theorem outWrite_nfill (b : Byte) : (outWrite b s).nfill = s.nfill := rfl
@[simp] theorem outWrite_palette (b : Byte) : (outWrite b s).palette = s.palette := rfl
@[simp] theorem outWrite_plane (b : Byte) : (outWrite b s).plane = s.plane := rfl
@[simp] theorem outWrite_inFifo (b : Byte) : (outWrite b s).inFifo = s.inFifo := rfl
@[simp] theorem outWrite_pixFifo (b : Byte) : (outWrite b s).pixFifo = s.pixFifo := rfl
@[simp] theorem outWrite_outFifo (b : Byte) : (outWrite b s).outFifo = s.outFifo ++ [b] := rfl
@[simp] theorem outWrite_agenda (b : Byte) : (outWrite b s).agenda = s.agenda := rfl
@[simp] theorem outWrite_hostLog (b : Byte) : (outWrite b s).hostLog = s.hostLog := rfl

/-! ### `emitAcc` -/

@[simp] theorem emitAcc_cfg : (emitAcc s).cfg = s.cfg := rfl
@[simp] theorem emitAcc_cmd : (emitAcc s).cmd = s.cmd := rfl
@[simp] theorem emitAcc_busy : (emitAcc s).busy = s.busy := rfl
@[simp] theorem emitAcc_err : (emitAcc s).err = s.err := rfl
@[simp] theorem emitAcc_cfgValid : (emitAcc s).cfgValid = s.cfgValid := rfl
@[simp] theorem emitAcc_planeValid : (emitAcc s).planeValid = s.planeValid := rfl
@[simp] theorem emitAcc_idxValid : (emitAcc s).idxValid = s.idxValid := rfl
@[simp] theorem emitAcc_oob : (emitAcc s).oob = s.oob := rfl
@[simp] theorem emitAcc_palMiss : (emitAcc s).palMiss = s.palMiss := rfl
@[simp] theorem emitAcc_phase : (emitAcc s).phase = s.phase := rfl
@[simp] theorem emitAcc_errKind : (emitAcc s).errKind = s.errKind := rfl
@[simp] theorem emitAcc_errStage : (emitAcc s).errStage = s.errStage := rfl
@[simp] theorem emitAcc_errInfo : (emitAcc s).errInfo = s.errInfo := rfl
@[simp] theorem emitAcc_mode : (emitAcc s).mode = s.mode := rfl
@[simp] theorem emitAcc_width : (emitAcc s).width = s.width := rfl
@[simp] theorem emitAcc_height : (emitAcc s).height = s.height := rfl
@[simp] theorem emitAcc_palLen : (emitAcc s).palLen = s.palLen := rfl
@[simp] theorem emitAcc_planeLen : (emitAcc s).planeLen = s.planeLen := rfl
@[simp] theorem emitAcc_argX : (emitAcc s).argX = s.argX := rfl
@[simp] theorem emitAcc_argY : (emitAcc s).argY = s.argY := rfl
@[simp] theorem emitAcc_argW : (emitAcc s).argW = s.argW := rfl
@[simp] theorem emitAcc_argH : (emitAcc s).argH = s.argH := rfl
@[simp] theorem emitAcc_argRG : (emitAcc s).argRG = s.argRG := rfl
@[simp] theorem emitAcc_argBA : (emitAcc s).argBA = s.argBA := rfl
@[simp] theorem emitAcc_resIdx : (emitAcc s).resIdx = s.resIdx := rfl
@[simp] theorem emitAcc_resColor : (emitAcc s).resColor = s.resColor := rfl
@[simp] theorem emitAcc_inPos : (emitAcc s).inPos = s.inPos := rfl
@[simp] theorem emitAcc_outPos : (emitAcc s).outPos = s.outPos + 1 := rfl
@[simp] theorem emitAcc_pixCnt : (emitAcc s).pixCnt = s.pixCnt := rfl
@[simp] theorem emitAcc_curOp : (emitAcc s).curOp = s.curOp := rfl
@[simp] theorem emitAcc_sigMiss : (emitAcc s).sigMiss = s.sigMiss := rfl
@[simp] theorem emitAcc_dimBuf : (emitAcc s).dimBuf = s.dimBuf := rfl
@[simp] theorem emitAcc_eb : (emitAcc s).eb = s.eb := rfl
@[simp] theorem emitAcc_eDC : (emitAcc s).eDC = s.eDC := rfl
@[simp] theorem emitAcc_eEP : (emitAcc s).eEP = s.eEP := rfl
@[simp] theorem emitAcc_ePS : (emitAcc s).ePS = s.ePS := rfl
@[simp] theorem emitAcc_eW : (emitAcc s).eW = s.eW := rfl
@[simp] theorem emitAcc_eH : (emitAcc s).eH = s.eH := rfl
@[simp] theorem emitAcc_acc : (emitAcc s).acc = 0 := rfl
@[simp] theorem emitAcc_nfill : (emitAcc s).nfill = 0 := rfl
@[simp] theorem emitAcc_palette : (emitAcc s).palette = s.palette := rfl
@[simp] theorem emitAcc_plane : (emitAcc s).plane = s.plane := rfl
@[simp] theorem emitAcc_inFifo : (emitAcc s).inFifo = s.inFifo := rfl
@[simp] theorem emitAcc_pixFifo : (emitAcc s).pixFifo = s.pixFifo := rfl
@[simp] theorem emitAcc_outFifo : (emitAcc s).outFifo = s.outFifo ++ [s.acc] := rfl
@[simp] theorem emitAcc_agenda : (emitAcc s).agenda = s.agenda := rfl
@[simp] theorem emitAcc_hostLog : (emitAcc s).hostLog = s.hostLog := rfl

/-! ### `startDecode` -/

@[simp] theorem startDecode_cfg (op : CurOp) : (startDecode op s).cfg = s.cfg := rfl
@[simp] theorem startDecode_cmd (op : CurOp) : (startDecode op s).cmd = s.cmd := rfl
@[simp] theorem startDecode_busy (op : CurOp) : (startDecode op s).busy = true := rfl
@[simp] theorem startDecode_err (op : CurOp) : (startDecode op s).err = s.err := rfl
@[simp] theorem startDecode_cfgValid (op : CurOp) : (startDecode op s).cfgValid = false := rfl
@[simp] theorem startDecode_planeValid (op : CurOp) : (startDecode op s).planeValid = false := rfl
@[simp] theorem startDecode_idxValid (op : CurOp) : (startDecode op s).idxValid = s.idxValid := rfl
@[simp] theorem startDecode_oob (op : CurOp) : (startDecode op s).oob = s.oob := rfl
@[simp] theorem startDecode_palMiss (op : CurOp) : (startDecode op s).palMiss = s.palMiss := rfl
@[simp] theorem startDecode_phase (op : CurOp) : (startDecode op s).phase = .hdr := rfl
@[simp] theorem startDecode_errKind (op : CurOp) : (startDecode op s).errKind = s.errKind := rfl
@[simp] theorem startDecode_errStage (op : CurOp) : (startDecode op s).errStage = s.errStage := rfl
@[simp] theorem startDecode_errInfo (op : CurOp) : (startDecode op s).errInfo = s.errInfo := rfl
@[simp] theorem startDecode_mode (op : CurOp) : (startDecode op s).mode = 0 := rfl
@[simp] theorem startDecode_width (op : CurOp) : (startDecode op s).width = 0 := rfl
@[simp] theorem startDecode_height (op : CurOp) : (startDecode op s).height = 0 := rfl
@[simp] theorem startDecode_palLen (op : CurOp) : (startDecode op s).palLen = 0 := rfl
@[simp] theorem startDecode_planeLen (op : CurOp) : (startDecode op s).planeLen = 0 := rfl
@[simp] theorem startDecode_argX (op : CurOp) : (startDecode op s).argX = s.argX := rfl
@[simp] theorem startDecode_argY (op : CurOp) : (startDecode op s).argY = s.argY := rfl
@[simp] theorem startDecode_argW (op : CurOp) : (startDecode op s).argW = s.argW := rfl
@[simp] theorem startDecode_argH (op : CurOp) : (startDecode op s).argH = s.argH := rfl
@[simp] theorem startDecode_argRG (op : CurOp) : (startDecode op s).argRG = s.argRG := rfl
@[simp] theorem startDecode_argBA (op : CurOp) : (startDecode op s).argBA = s.argBA := rfl
@[simp] theorem startDecode_resIdx (op : CurOp) : (startDecode op s).resIdx = s.resIdx := rfl
@[simp] theorem startDecode_resColor (op : CurOp) : (startDecode op s).resColor = s.resColor := rfl
@[simp] theorem startDecode_inPos (op : CurOp) : (startDecode op s).inPos = 0 := rfl
@[simp] theorem startDecode_outPos (op : CurOp) : (startDecode op s).outPos = s.outPos := rfl
@[simp] theorem startDecode_pixCnt (op : CurOp) : (startDecode op s).pixCnt = s.pixCnt := rfl
@[simp] theorem startDecode_curOp (op : CurOp) : (startDecode op s).curOp = op := rfl
@[simp] theorem startDecode_sigMiss (op : CurOp) : (startDecode op s).sigMiss = 7 := rfl
@[simp] theorem startDecode_dimBuf (op : CurOp) : (startDecode op s).dimBuf = Vector.replicate 4 0 := rfl
@[simp] theorem startDecode_eb (op : CurOp) : (startDecode op s).eb = Vector.replicate 3 0 := rfl
@[simp] theorem startDecode_eDC (op : CurOp) : (startDecode op s).eDC = s.eDC := rfl
@[simp] theorem startDecode_eEP (op : CurOp) : (startDecode op s).eEP = s.eEP := rfl
@[simp] theorem startDecode_ePS (op : CurOp) : (startDecode op s).ePS = s.ePS := rfl
@[simp] theorem startDecode_eW (op : CurOp) : (startDecode op s).eW = s.eW := rfl
@[simp] theorem startDecode_eH (op : CurOp) : (startDecode op s).eH = s.eH := rfl
@[simp] theorem startDecode_acc (op : CurOp) : (startDecode op s).acc = s.acc := rfl
@[simp] theorem startDecode_nfill (op : CurOp) : (startDecode op s).nfill = s.nfill := rfl
@[simp] theorem startDecode_palette (op : CurOp) : (startDecode op s).palette = s.palette := rfl
@[simp] theorem startDecode_plane (op : CurOp) : (startDecode op s).plane = s.plane := rfl
@[simp] theorem startDecode_inFifo (op : CurOp) : (startDecode op s).inFifo = s.inFifo := rfl
@[simp] theorem startDecode_pixFifo (op : CurOp) : (startDecode op s).pixFifo = s.pixFifo := rfl
@[simp] theorem startDecode_outFifo (op : CurOp) : (startDecode op s).outFifo = s.outFifo := rfl
@[simp] theorem startDecode_agenda (op : CurOp) : (startDecode op s).agenda = s.agenda := rfl
@[simp] theorem startDecode_hostLog (op : CurOp) : (startDecode op s).hostLog = s.hostLog := rfl

/-! ### `clearCounts` -/

@[simp] theorem clearCounts_cfg : (clearCounts s).cfg = s.cfg := rfl
@[simp] theorem clearCounts_cmd : (clearCounts s).cmd = s.cmd := rfl
@[simp] theorem clearCounts_busy : (clearCounts s).busy = s.busy := rfl
@[simp] theorem clearCounts_err : (clearCounts s).err = s.err := rfl
@[simp] theorem clearCounts_cfgValid : (clearCounts s).cfgValid = s.cfgValid := rfl
@[simp] theorem clearCounts_planeValid : (clearCounts s).planeValid = s.planeValid := rfl
@[simp] theorem clearCounts_idxValid : (clearCounts s).idxValid = s.idxValid := rfl
@[simp] theorem clearCounts_oob : (clearCounts s).oob = s.oob := rfl
@[simp] theorem clearCounts_palMiss : (clearCounts s).palMiss = s.palMiss := rfl
@[simp] theorem clearCounts_phase : (clearCounts s).phase = s.phase := rfl
@[simp] theorem clearCounts_errKind : (clearCounts s).errKind = s.errKind := rfl
@[simp] theorem clearCounts_errStage : (clearCounts s).errStage = s.errStage := rfl
@[simp] theorem clearCounts_errInfo : (clearCounts s).errInfo = s.errInfo := rfl
@[simp] theorem clearCounts_mode : (clearCounts s).mode = s.mode := rfl
@[simp] theorem clearCounts_width : (clearCounts s).width = s.width := rfl
@[simp] theorem clearCounts_height : (clearCounts s).height = s.height := rfl
@[simp] theorem clearCounts_palLen : (clearCounts s).palLen = s.palLen := rfl
@[simp] theorem clearCounts_planeLen : (clearCounts s).planeLen = s.planeLen := rfl
@[simp] theorem clearCounts_argX : (clearCounts s).argX = s.argX := rfl
@[simp] theorem clearCounts_argY : (clearCounts s).argY = s.argY := rfl
@[simp] theorem clearCounts_argW : (clearCounts s).argW = s.argW := rfl
@[simp] theorem clearCounts_argH : (clearCounts s).argH = s.argH := rfl
@[simp] theorem clearCounts_argRG : (clearCounts s).argRG = s.argRG := rfl
@[simp] theorem clearCounts_argBA : (clearCounts s).argBA = s.argBA := rfl
@[simp] theorem clearCounts_resIdx : (clearCounts s).resIdx = s.resIdx := rfl
@[simp] theorem clearCounts_resColor : (clearCounts s).resColor = s.resColor := rfl
@[simp] theorem clearCounts_inPos : (clearCounts s).inPos = s.inPos := rfl
@[simp] theorem clearCounts_outPos : (clearCounts s).outPos = 0 := rfl
@[simp] theorem clearCounts_pixCnt : (clearCounts s).pixCnt = 0 := rfl
@[simp] theorem clearCounts_curOp : (clearCounts s).curOp = s.curOp := rfl
@[simp] theorem clearCounts_sigMiss : (clearCounts s).sigMiss = s.sigMiss := rfl
@[simp] theorem clearCounts_dimBuf : (clearCounts s).dimBuf = s.dimBuf := rfl
@[simp] theorem clearCounts_eb : (clearCounts s).eb = s.eb := rfl
@[simp] theorem clearCounts_eDC : (clearCounts s).eDC = s.eDC := rfl
@[simp] theorem clearCounts_eEP : (clearCounts s).eEP = s.eEP := rfl
@[simp] theorem clearCounts_ePS : (clearCounts s).ePS = s.ePS := rfl
@[simp] theorem clearCounts_eW : (clearCounts s).eW = s.eW := rfl
@[simp] theorem clearCounts_eH : (clearCounts s).eH = s.eH := rfl
@[simp] theorem clearCounts_acc : (clearCounts s).acc = s.acc := rfl
@[simp] theorem clearCounts_nfill : (clearCounts s).nfill = s.nfill := rfl
@[simp] theorem clearCounts_palette : (clearCounts s).palette = s.palette := rfl
@[simp] theorem clearCounts_plane : (clearCounts s).plane = s.plane := rfl
@[simp] theorem clearCounts_inFifo : (clearCounts s).inFifo = s.inFifo := rfl
@[simp] theorem clearCounts_pixFifo : (clearCounts s).pixFifo = s.pixFifo := rfl
@[simp] theorem clearCounts_outFifo : (clearCounts s).outFifo = s.outFifo := rfl
@[simp] theorem clearCounts_agenda : (clearCounts s).agenda = s.agenda := rfl
@[simp] theorem clearCounts_hostLog : (clearCounts s).hostLog = s.hostLog := rfl

/-! ### `startEncode` -/

@[simp] theorem startEncode_cfg (dc : BitVec 2) (ep ps : Bool) : (startEncode dc ep ps s).cfg = s.cfg := rfl
@[simp] theorem startEncode_cmd (dc : BitVec 2) (ep ps : Bool) : (startEncode dc ep ps s).cmd = s.cmd := rfl
@[simp] theorem startEncode_busy (dc : BitVec 2) (ep ps : Bool) : (startEncode dc ep ps s).busy = true := rfl
@[simp] theorem startEncode_err (dc : BitVec 2) (ep ps : Bool) : (startEncode dc ep ps s).err = s.err := rfl
@[simp] theorem startEncode_cfgValid (dc : BitVec 2) (ep ps : Bool) : (startEncode dc ep ps s).cfgValid = s.cfgValid := rfl
@[simp] theorem startEncode_planeValid (dc : BitVec 2) (ep ps : Bool) : (startEncode dc ep ps s).planeValid = s.planeValid := rfl
@[simp] theorem startEncode_idxValid (dc : BitVec 2) (ep ps : Bool) : (startEncode dc ep ps s).idxValid = s.idxValid := rfl
@[simp] theorem startEncode_oob (dc : BitVec 2) (ep ps : Bool) : (startEncode dc ep ps s).oob = s.oob := rfl
@[simp] theorem startEncode_palMiss (dc : BitVec 2) (ep ps : Bool) : (startEncode dc ep ps s).palMiss = s.palMiss := rfl
@[simp] theorem startEncode_phase (dc : BitVec 2) (ep ps : Bool) : (startEncode dc ep ps s).phase = .encHdr := rfl
@[simp] theorem startEncode_errKind (dc : BitVec 2) (ep ps : Bool) : (startEncode dc ep ps s).errKind = s.errKind := rfl
@[simp] theorem startEncode_errStage (dc : BitVec 2) (ep ps : Bool) : (startEncode dc ep ps s).errStage = s.errStage := rfl
@[simp] theorem startEncode_errInfo (dc : BitVec 2) (ep ps : Bool) : (startEncode dc ep ps s).errInfo = s.errInfo := rfl
@[simp] theorem startEncode_mode (dc : BitVec 2) (ep ps : Bool) : (startEncode dc ep ps s).mode = s.mode := rfl
@[simp] theorem startEncode_width (dc : BitVec 2) (ep ps : Bool) : (startEncode dc ep ps s).width = s.width := rfl
@[simp] theorem startEncode_height (dc : BitVec 2) (ep ps : Bool) : (startEncode dc ep ps s).height = s.height := rfl
@[simp] theorem startEncode_palLen (dc : BitVec 2) (ep ps : Bool) : (startEncode dc ep ps s).palLen = s.palLen := rfl
@[simp] theorem startEncode_planeLen (dc : BitVec 2) (ep ps : Bool) : (startEncode dc ep ps s).planeLen = s.planeLen := rfl
@[simp] theorem startEncode_argX (dc : BitVec 2) (ep ps : Bool) : (startEncode dc ep ps s).argX = s.argX := rfl
@[simp] theorem startEncode_argY (dc : BitVec 2) (ep ps : Bool) : (startEncode dc ep ps s).argY = s.argY := rfl
@[simp] theorem startEncode_argW (dc : BitVec 2) (ep ps : Bool) : (startEncode dc ep ps s).argW = s.argW := rfl
@[simp] theorem startEncode_argH (dc : BitVec 2) (ep ps : Bool) : (startEncode dc ep ps s).argH = s.argH := rfl
@[simp] theorem startEncode_argRG (dc : BitVec 2) (ep ps : Bool) : (startEncode dc ep ps s).argRG = s.argRG := rfl
@[simp] theorem startEncode_argBA (dc : BitVec 2) (ep ps : Bool) : (startEncode dc ep ps s).argBA = s.argBA := rfl
@[simp] theorem startEncode_resIdx (dc : BitVec 2) (ep ps : Bool) : (startEncode dc ep ps s).resIdx = s.resIdx := rfl
@[simp] theorem startEncode_resColor (dc : BitVec 2) (ep ps : Bool) : (startEncode dc ep ps s).resColor = s.resColor := rfl
@[simp] theorem startEncode_inPos (dc : BitVec 2) (ep ps : Bool) : (startEncode dc ep ps s).inPos = s.inPos := rfl
@[simp] theorem startEncode_outPos (dc : BitVec 2) (ep ps : Bool) : (startEncode dc ep ps s).outPos = s.outPos := rfl
@[simp] theorem startEncode_pixCnt (dc : BitVec 2) (ep ps : Bool) : (startEncode dc ep ps s).pixCnt = s.pixCnt := rfl
@[simp] theorem startEncode_curOp (dc : BitVec 2) (ep ps : Bool) : (startEncode dc ep ps s).curOp = .enc := rfl
@[simp] theorem startEncode_sigMiss (dc : BitVec 2) (ep ps : Bool) : (startEncode dc ep ps s).sigMiss = s.sigMiss := rfl
@[simp] theorem startEncode_dimBuf (dc : BitVec 2) (ep ps : Bool) : (startEncode dc ep ps s).dimBuf = s.dimBuf := rfl
@[simp] theorem startEncode_eb (dc : BitVec 2) (ep ps : Bool) : (startEncode dc ep ps s).eb = s.eb := rfl
@[simp] theorem startEncode_eDC (dc : BitVec 2) (ep ps : Bool) : (startEncode dc ep ps s).eDC = dc := rfl
@[simp] theorem startEncode_eEP (dc : BitVec 2) (ep ps : Bool) : (startEncode dc ep ps s).eEP = ep := rfl
@[simp] theorem startEncode_ePS (dc : BitVec 2) (ep ps : Bool) : (startEncode dc ep ps s).ePS = ps := rfl
@[simp] theorem startEncode_eW (dc : BitVec 2) (ep ps : Bool) : (startEncode dc ep ps s).eW = s.argW.setWidth 16 := rfl
@[simp] theorem startEncode_eH (dc : BitVec 2) (ep ps : Bool) : (startEncode dc ep ps s).eH = s.argH.setWidth 16 := rfl
@[simp] theorem startEncode_acc (dc : BitVec 2) (ep ps : Bool) : (startEncode dc ep ps s).acc = 0 := rfl
@[simp] theorem startEncode_nfill (dc : BitVec 2) (ep ps : Bool) : (startEncode dc ep ps s).nfill = 0 := rfl
@[simp] theorem startEncode_palette (dc : BitVec 2) (ep ps : Bool) : (startEncode dc ep ps s).palette = s.palette := rfl
@[simp] theorem startEncode_plane (dc : BitVec 2) (ep ps : Bool) : (startEncode dc ep ps s).plane = s.plane := rfl
@[simp] theorem startEncode_inFifo (dc : BitVec 2) (ep ps : Bool) : (startEncode dc ep ps s).inFifo = s.inFifo := rfl
@[simp] theorem startEncode_pixFifo (dc : BitVec 2) (ep ps : Bool) : (startEncode dc ep ps s).pixFifo = s.pixFifo := rfl
@[simp] theorem startEncode_outFifo (dc : BitVec 2) (ep ps : Bool) : (startEncode dc ep ps s).outFifo = s.outFifo := rfl
@[simp] theorem startEncode_agenda (dc : BitVec 2) (ep ps : Bool) : (startEncode dc ep ps s).agenda = s.agenda := rfl
@[simp] theorem startEncode_hostLog (dc : BitVec 2) (ep ps : Bool) : (startEncode dc ep ps s).hostLog = s.hostLog := rfl

/-! ### `received` -/

@[simp] theorem received_cfg (x : HostData) : (received x s).cfg = s.cfg := rfl
@[simp] theorem received_cmd (x : HostData) : (received x s).cmd = s.cmd := rfl
@[simp] theorem received_busy (x : HostData) : (received x s).busy = s.busy := rfl
@[simp] theorem received_err (x : HostData) : (received x s).err = s.err := rfl
@[simp] theorem received_cfgValid (x : HostData) : (received x s).cfgValid = s.cfgValid := rfl
@[simp] theorem received_planeValid (x : HostData) : (received x s).planeValid = s.planeValid := rfl
@[simp] theorem received_idxValid (x : HostData) : (received x s).idxValid = s.idxValid := rfl
@[simp] theorem received_oob (x : HostData) : (received x s).oob = s.oob := rfl
@[simp] theorem received_palMiss (x : HostData) : (received x s).palMiss = s.palMiss := rfl
@[simp] theorem received_phase (x : HostData) : (received x s).phase = s.phase := rfl
@[simp] theorem received_errKind (x : HostData) : (received x s).errKind = s.errKind := rfl
@[simp] theorem received_errStage (x : HostData) : (received x s).errStage = s.errStage := rfl
@[simp] theorem received_errInfo (x : HostData) : (received x s).errInfo = s.errInfo := rfl
@[simp] theorem received_mode (x : HostData) : (received x s).mode = s.mode := rfl
@[simp] theorem received_width (x : HostData) : (received x s).width = s.width := rfl
@[simp] theorem received_height (x : HostData) : (received x s).height = s.height := rfl
@[simp] theorem received_palLen (x : HostData) : (received x s).palLen = s.palLen := rfl
@[simp] theorem received_planeLen (x : HostData) : (received x s).planeLen = s.planeLen := rfl
@[simp] theorem received_argX (x : HostData) : (received x s).argX = s.argX := rfl
@[simp] theorem received_argY (x : HostData) : (received x s).argY = s.argY := rfl
@[simp] theorem received_argW (x : HostData) : (received x s).argW = s.argW := rfl
@[simp] theorem received_argH (x : HostData) : (received x s).argH = s.argH := rfl
@[simp] theorem received_argRG (x : HostData) : (received x s).argRG = s.argRG := rfl
@[simp] theorem received_argBA (x : HostData) : (received x s).argBA = s.argBA := rfl
@[simp] theorem received_resIdx (x : HostData) : (received x s).resIdx = s.resIdx := rfl
@[simp] theorem received_resColor (x : HostData) : (received x s).resColor = s.resColor := rfl
@[simp] theorem received_inPos (x : HostData) : (received x s).inPos = s.inPos := rfl
@[simp] theorem received_outPos (x : HostData) : (received x s).outPos = s.outPos := rfl
@[simp] theorem received_pixCnt (x : HostData) : (received x s).pixCnt = s.pixCnt := rfl
@[simp] theorem received_curOp (x : HostData) : (received x s).curOp = s.curOp := rfl
@[simp] theorem received_sigMiss (x : HostData) : (received x s).sigMiss = s.sigMiss := rfl
@[simp] theorem received_dimBuf (x : HostData) : (received x s).dimBuf = s.dimBuf := rfl
@[simp] theorem received_eb (x : HostData) : (received x s).eb = s.eb := rfl
@[simp] theorem received_eDC (x : HostData) : (received x s).eDC = s.eDC := rfl
@[simp] theorem received_eEP (x : HostData) : (received x s).eEP = s.eEP := rfl
@[simp] theorem received_ePS (x : HostData) : (received x s).ePS = s.ePS := rfl
@[simp] theorem received_eW (x : HostData) : (received x s).eW = s.eW := rfl
@[simp] theorem received_eH (x : HostData) : (received x s).eH = s.eH := rfl
@[simp] theorem received_acc (x : HostData) : (received x s).acc = s.acc := rfl
@[simp] theorem received_nfill (x : HostData) : (received x s).nfill = s.nfill := rfl
@[simp] theorem received_palette (x : HostData) : (received x s).palette = s.palette := rfl
@[simp] theorem received_plane (x : HostData) : (received x s).plane = s.plane := rfl
@[simp] theorem received_inFifo (x : HostData) : (received x s).inFifo = s.inFifo := rfl
@[simp] theorem received_pixFifo (x : HostData) : (received x s).pixFifo = s.pixFifo := rfl
@[simp] theorem received_outFifo (x : HostData) : (received x s).outFifo = s.outFifo := rfl
@[simp] theorem received_agenda (x : HostData) : (received x s).agenda = s.agenda := rfl
@[simp] theorem received_hostLog (x : HostData) : (received x s).hostLog = s.hostLog ++ [x] := rfl

end Sys2Proof.Machine
end

