-- ==== Sys2Proof/Laws/Ops.lean ====
section
/-! SUPPORT. What each shared operation and each agent's step can do, said once: later proofs cite
these and do not unfold the definitions. -/

namespace Sys2Proof.Machine

/-! ### Commands -/

/-- A command runs on the accepted state while the codec is idle (60_exceptions.md R227). -/
theorem issue_idle {w : Word} {body : State → Result} {s : State} (h : s.busy = false) :
    issue w body s = body (accept w s) := by
  simp [issue, h]

/-- A command has no step while BUSY = 1 (R23). -/
theorem issue_busy {w : Word} {body : State → Result} {s : State} (h : s.busy = true) :
    issue w body s = .refused .cmdWhileBusy := by
  simp [issue, h]

/-- When a command answers a next state, the codec was idle and the command's own part gave it. -/
theorem issue_next {w : Word} {body : State → Result} {s t : State} :
    issue w body s = .next t ↔ s.busy = false ∧ body (accept w s) = .next t := by
  unfold issue
  cases s.busy <;> simp

/-- `cfg_done` (41_header_codec.md R140) either completes DEC_CFG or enters the PLANE phase. -/
theorem cfgDone_cases (s : State) :
    (s.curOp = .decCfg ∧ cfgDone s = complete { s with cfgValid := true }) ∨
    (s.curOp ≠ .decCfg ∧ cfgDone s = { s with phase := .plane }) := by
  unfold cfgDone
  by_cases h : s.curOp = .decCfg <;> simp [h]

/-! ### How a command ends -/

/-- An immediate command that completes leaves the state `idleAfter` (60_exceptions.md R227). -/
theorem complete_accept (w : Word) (s : State) : complete (accept w s) = idleAfter w s := rfl

/-- An error raised while a decode runs discards its configuration (R221, R224). -/
theorem raise_decoding {kind : ErrKind} {info : Word} {s : State} (h : s.curOp.isDecode = true) :
    raise kind info s = decodeFailed kind info s := by
  simp [raise, h, decodeFailed, complete, clearConfig, recordError]

/-- An error raised while no decode runs keeps the configuration (R221). -/
theorem raise_not_decoding {kind : ErrKind} {info : Word} {s : State} (h : s.curOp.isDecode = false) :
    raise kind info s = { s with
      errKind := kind, errStage := s.phase, errInfo := info, err := true
      curOp := .none, busy := false, phase := .idle } := by
  simp [raise, h, complete, recordError]

/-- An error raised at the acceptance of a command has STAGE 0 (R223). -/
theorem raise_accept {kind : ErrKind} {info w : Word} {s : State} (h : s.Idle) :
    raise kind info (accept w s) = failedAfter w kind info s := by
  obtain ⟨h1, h2, h3⟩ := h
  simp [raise, h1, h2, h3, complete, recordError, accept, clearResults, clearError, CurOp.isDecode,
    failedAfter, idleAfter]

/-! ### The meaning of each command as an issued command -/

theorem exec_decCfg (s : State) : exec .decCfg s =
    issue (commandWord 0x1 0 false false 0) (fun t => .next (startDecode .decCfg t)) s := rfl

theorem exec_decFull (s : State) : exec .decFull s =
    issue (commandWord 0x2 0 false false 0) (fun t => .next (startDecode .decFull t)) s := rfl

theorem exec_enc (dc : BitVec 2) (ep ps : Bool) (idx : Byte) (s : State) : exec (.enc dc ep ps idx) s =
    issue (commandWord 0x3 dc ep ps idx) (fun t => .next (
      if idx = 0 then encBody dc ep ps t else raise .illegalCommand (commandWord 0x3 dc ep ps idx) t)) s := rfl

/-- A well-formed ENC is accepted and run. -/
theorem exec_enc_zero (dc : BitVec 2) (ep ps : Bool) (s : State) : exec (.enc dc ep ps 0) s =
    issue (commandWord 0x3 dc ep ps 0) (fun t => .next (encBody dc ep ps t)) s := rfl

theorem exec_pixRd (s : State) : exec .pixRd s =
    issue (commandWord 0x4 0 false false 0) pixRdBody s := rfl

theorem exec_palRd (idx : Byte) (s : State) : exec (.palRd idx) s =
    issue (commandWord 0x5 0 false false idx) (fun t => .next (palRdBody idx t)) s := rfl

theorem exec_palWr (idx : Byte) (s : State) : exec (.palWr idx) s =
    issue (commandWord 0x6 0 false false idx) (fun t => .next (palWrBody idx t)) s := rfl

theorem exec_palDef (dc : BitVec 2) (s : State) : exec (.palDef dc) s =
    issue (commandWord 0x7 dc false false 0) (fun t => .next (palDefBody dc t)) s := rfl

theorem exec_quant (dc : BitVec 2) (s : State) : exec (.quant dc) s =
    issue (commandWord 0x8 dc false false 0) (fun t => .next (quantBody dc t)) s := rfl

/-! ### The mode byte -/

/-- The fields of a byte make the byte (30_encoding.md R73). -/
theorem modeByteOf_fields (b : Byte) : modeByteOf (modeDC b) (modePF b) (modeRSV b) = b := by
  revert b; decide +kernel

/-- The depth code is the field [7:6] of the mode byte built from it. -/
@[simp] theorem modeDC_modeByteOf (dc : BitVec 2) (pf : Bool) (rsv : BitVec 5) :
    modeDC (modeByteOf dc pf rsv) = dc := by
  revert dc pf rsv; decide +kernel

/-- The palette flag is bit [5] of the mode byte built from it. -/
@[simp] theorem modePF_modeByteOf (dc : BitVec 2) (pf : Bool) (rsv : BitVec 5) :
    modePF (modeByteOf dc pf rsv) = pf := by
  revert dc pf rsv; decide +kernel

/-- The color-model resolution a mode byte selects (42_palette_codec.md R150). -/
def resolutionOf (b : Byte) (s : State) : State :=
  match depthOf (modeDC b) with
  | some d => resolveKnown d (modePF b) s
  | none => resolveBad s

/-- The four mode-byte rows in one: the byte acts, and its depth code selects the resolution. -/
theorem exec_decodeModeByte (b : Byte) (s : State) :
    exec (decodeModeByte b) s = actModeByte b (resolutionOf b) s := by
  have hb := modeByteOf_fields b
  have h4 : modeDC b = 0 ∨ modeDC b = 1 ∨ modeDC b = 2 ∨ modeDC b = 3 := by
    generalize modeDC b = dc
    revert dc; decide
  have known : ∀ d, depthOf (modeDC b) = some d → resolveKnown d (modePF b) = resolutionOf b :=
    fun d hd => by funext t; simp [resolutionOf, hd]
  have bad : depthOf (modeDC b) = none → resolveBad = resolutionOf b :=
    fun hd => by funext t; simp [resolutionOf, hd]
  rcases h4 with h | h | h | h
  · rw [← known .d1 (by rw [h]; rfl)]
    rw [h] at hb
    simp only [decodeModeByte, h]
    exact congrArg (actModeByte · (resolveKnown .d1 (modePF b)) s) hb
  · rw [← known .d2 (by rw [h]; rfl)]
    rw [h] at hb
    simp only [decodeModeByte, h]
    exact congrArg (actModeByte · (resolveKnown .d2 (modePF b)) s) hb
  · rw [← known .d8 (by rw [h]; rfl)]
    rw [h] at hb
    simp only [decodeModeByte, h]
    exact congrArg (actModeByte · (resolveKnown .d8 (modePF b)) s) hb
  · rw [← bad (by rw [h]; rfl)]
    rw [h] at hb
    simp only [decodeModeByte, h]
    exact congrArg (actModeByte · resolveBad s) hb

/-- At offset 7 a mode byte is taken (41_header_codec.md R134). -/
theorem actModeByte_take {b : Byte} {res : State → State} {s : State} (h : s.atModeByte = true) :
    actModeByte b res s = .next (takeModeByte b s) := by
  simp [actModeByte, h]

/-- At the resolution a mode byte resolves the color model (R150). -/
theorem actModeByte_resolve {b : Byte} {res : State → State} {s : State}
    (h : s.atResolution b = true) : actModeByte b res s = .next (res s) := by
  have hne : s.atModeByte = false := by
    simp only [State.atResolution, Bool.and_eq_true, beq_iff_eq] at h
    simp [State.atModeByte, h.1.1.2]
  simp [actModeByte, h, hne]

/-! ### The steps of the codec -/

/-- What an HDR step can do (41_header_codec.md R133, R134). -/
theorem hdrStep_cases {s t : State} (hb : s.busy = true) (hp : s.phase = .hdr)
    (h : hdrStep s = .next t) :
    s.inPos.toNat ≤ 7 ∧
    ((s.inFifo = [] ∧ t = s) ∨
     (∃ rest, s.inFifo = .eos :: rest ∧
        t = raise .truncatedInput (posInfo s.inPos) { s with inFifo := rest }) ∨
     (∃ b rest, s.inFifo = .byte b :: rest ∧ s.inPos = 7 ∧ t = takeModeByte b { s with inFifo := rest }) ∨
     (∃ b rest, s.inFifo = .byte b :: rest ∧ s.inPos ≠ 7 ∧
        t = takeSigByte s.inPos.toNat b { s with inFifo := rest })) := by
  unfold hdrStep at h
  split at h
  · cases h
  · refine ⟨by omega, ?_⟩
    split at h
    · next hf => exact .inl ⟨hf, (Host.Outcome.next.inj h).symm⟩
    · next rest hf => exact .inr (.inl ⟨rest, hf, (Host.Outcome.next.inj h).symm⟩)
    · next b rest hf =>
      split at h
      · next h7 =>
        rw [exec_decodeModeByte, actModeByte_take (by simp [State.atModeByte, hb, hp, h7])] at h
        exact .inr (.inr (.inl ⟨b, rest, hf, h7, (Host.Outcome.next.inj h).symm⟩))
      · next h7 => exact .inr (.inr (.inr ⟨b, rest, hf, h7, (Host.Outcome.next.inj h).symm⟩))

/-- What a DIM step can do (R137, R138, R150). -/
theorem dimStep_cases {s t : State} (hb : s.busy = true) (hp : s.phase = .dim)
    (h : dimStep s = .next t) :
    8 ≤ s.inPos.toNat ∧ s.inPos.toNat ≤ 11 ∧
    ((s.inFifo = [] ∧ t = s) ∨
     (∃ rest, s.inFifo = .eos :: rest ∧
        t = raise .truncatedInput (posInfo s.inPos) { s with inFifo := rest }) ∨
     (∃ b rest, s.inFifo = .byte b :: rest ∧ s.inPos = 11 ∧
        t = resolutionOf s.mode (assembleDims (takeDimByte 11 b { s with inFifo := rest }))) ∨
     (∃ b rest, s.inFifo = .byte b :: rest ∧ s.inPos ≠ 11 ∧
        t = takeDimByte s.inPos.toNat b { s with inFifo := rest })) := by
  unfold dimStep at h
  split at h
  · cases h
  · refine ⟨by omega, by omega, ?_⟩
    split at h
    · next hf => exact .inl ⟨hf, (Host.Outcome.next.inj h).symm⟩
    · next rest hf => exact .inr (.inl ⟨rest, hf, (Host.Outcome.next.inj h).symm⟩)
    · next b rest hf =>
      dsimp only at h
      split at h
      · next h11 =>
        rw [exec_decodeModeByte, actModeByte_resolve (by
          simp [State.atResolution, assembleDims, takeDimByte, hb, hp, h11])] at h
        refine .inr (.inr (.inl ⟨b, rest, hf, h11, ?_⟩))
        have h11' : s.inPos.toNat = 11 := by rw [h11]; rfl
        rw [h11'] at h
        exact (Host.Outcome.next.inj h).symm
      · next h11 => exact .inr (.inr (.inr ⟨b, rest, hf, h11, (Host.Outcome.next.inj h).symm⟩))

/-- What a PAL step can do (42_palette_codec.md R152, R154). -/
theorem palStep_cases {s t : State} (h : palStep s = .next t) :
    ∃ d, depthOf (modeDC s.mode) = some d ∧ 12 ≤ s.inPos.toNat ∧ s.inPos.toNat - 12 < 4 * d.palSize ∧
    ((s.inFifo = [] ∧ t = s) ∨
     (∃ rest, s.inFifo = .eos :: rest ∧
        t = raise .truncatedInput (posInfo s.inPos) { s with inFifo := rest }) ∨
     (∃ b rest, s.inFifo = .byte b :: rest ∧ s.inPos.toNat - 12 + 1 = 4 * d.palSize ∧
        t = cfgDone { takePalByte (s.inPos.toNat - 12) b { s with inFifo := rest } with
              palLen := BitVec.ofNat 9 d.palSize }) ∨
     (∃ b rest, s.inFifo = .byte b :: rest ∧ s.inPos.toNat - 12 + 1 ≠ 4 * d.palSize ∧
        t = takePalByte (s.inPos.toNat - 12) b { s with inFifo := rest })) := by
  unfold palStep at h
  split at h
  · cases h
  · next d hd =>
    refine ⟨d, hd, ?_⟩
    dsimp only at h
    split at h
    · cases h
    · refine ⟨by omega, by omega, ?_⟩
      split at h
      · next hf => exact .inl ⟨hf, (Host.Outcome.next.inj h).symm⟩
      · next rest hf => exact .inr (.inl ⟨rest, hf, (Host.Outcome.next.inj h).symm⟩)
      · next b rest hf =>
        split at h
        · next hj => exact .inr (.inr (.inl ⟨b, rest, hf, hj, (Host.Outcome.next.inj h).symm⟩))
        · next hj => exact .inr (.inr (.inr ⟨b, rest, hf, hj, (Host.Outcome.next.inj h).symm⟩))

/-- What a PLANE step can do (43_pixel_plane.md R170 to R172). -/
theorem planeStep_cases {s t : State} (h : planeStep s = .next t) :
    (s.inFifo = [] ∧ t = s) ∨
    (∃ rest, s.inFifo = .eos :: rest ∧ t = planeFinish { s with inFifo := rest }) ∨
    (∃ b rest, s.inFifo = .byte b :: rest ∧ s.planeLen = s.cfg.planeCap ∧
       t = raise .planeOverflow s.cfg.planeCap { s with inFifo := rest, inPos := s.inPos + 1 }) ∨
    (∃ b rest, s.inFifo = .byte b :: rest ∧ s.planeLen.toNat < s.cfg.planeCap.toNat ∧
       t = { s with
             inFifo := rest
             inPos := s.inPos + 1
             plane := s.plane.write s.planeLen.toNat b
             planeLen := s.planeLen + 1 }) := by
  unfold planeStep at h
  split at h
  · next hf => exact .inl ⟨hf, (Host.Outcome.next.inj h).symm⟩
  · next rest hf => exact .inr (.inl ⟨rest, hf, (Host.Outcome.next.inj h).symm⟩)
  · next b rest hf =>
    dsimp only at h
    split at h
    · next hc => exact .inr (.inr (.inl ⟨b, rest, hf, hc, (Host.Outcome.next.inj h).symm⟩))
    · split at h
      · cases h
      · next u hu =>
        obtain ⟨hlt, rfl⟩ := memWrite_some hu
        exact .inr (.inr (.inr ⟨b, rest, hf, hlt, (Host.Outcome.next.inj h).symm⟩))

/-- What an ENC_HDR step can do (44_encoder.md R195). -/
theorem encHdrStep_cases {s t : State} (h : encHdrStep s = .next t) :
    ∃ b, (headerBytes s.cfg.dimOrder s.eDC s.eEP s.eW s.eH)[s.outPos.toNat]? = some b ∧
      ((s.outPos + 1 = 12 ∧ t = { outWrite b s with phase := if s.eEP then .encPal else .encPix }) ∨
       (s.outPos + 1 ≠ 12 ∧ t = outWrite b s)) := by
  unfold encHdrStep at h
  split at h
  · cases h
  · next b hb =>
    refine ⟨b, hb, ?_⟩
    dsimp only at h
    split at h
    · next h12 => exact .inl ⟨h12, (Host.Outcome.next.inj h).symm⟩
    · next h12 => exact .inr ⟨h12, (Host.Outcome.next.inj h).symm⟩

/-- What an ENC_PAL step can do (R196). -/
theorem encPalStep_cases {s t : State} (h : encPalStep s = .next t) :
    ∃ d, depthOf s.eDC = some d ∧ 12 ≤ s.outPos.toNat ∧ s.outPos.toNat - 12 < 4 * d.palSize ∧
      ∃ u, u = outWrite (channelOf (emittedEntry d s (BitVec.ofNat 8 ((s.outPos.toNat - 12) / 4)))
            ((s.outPos.toNat - 12) % 4)) s ∧
        ((s.outPos.toNat - 12 + 1 = 4 * d.palSize ∧ t = { u with phase := .encPix }) ∨
         (s.outPos.toNat - 12 + 1 ≠ 4 * d.palSize ∧ t = u)) := by
  unfold encPalStep at h
  split at h
  · cases h
  · next d hd =>
    refine ⟨d, hd, ?_⟩
    dsimp only at h
    split at h
    · cases h
    · refine ⟨by omega, by omega, _, rfl, ?_⟩
      split at h
      · next hj => exact .inl ⟨hj, (Host.Outcome.next.inj h).symm⟩
      · next hj => exact .inr ⟨hj, (Host.Outcome.next.inj h).symm⟩

/-- What an ENC_PIX step can do (R200, R201). -/
theorem encPixStep_cases {s t : State} (h : encPixStep s = .next t) :
    (s.pixCnt.toNat = totalPixels s ∧ t = finishEncode s) ∨
    (s.pixCnt.toNat < totalPixels s ∧
     ((s.pixFifo = [] ∧ t = s) ∨
      (∃ rest, s.pixFifo = .eos :: rest ∧ t = raise .truncatedInput s.pixCnt { s with pixFifo := rest }) ∨
      (∃ c rest d, s.pixFifo = .pix c :: rest ∧ depthOf s.eDC = some d ∧ s.nfill.toNat < d.perByte ∧
         t = { packIndex d (quantize d (colorAsBytes c)) { s with pixFifo := rest } with
               pixCnt := s.pixCnt + 1 }))) := by
  unfold encPixStep at h
  split at h
  · next he => exact .inl ⟨he, (Host.Outcome.next.inj h).symm⟩
  · split at h
    · cases h
    · refine .inr ⟨by omega, ?_⟩
      split at h
      · next hf => exact .inl ⟨hf, (Host.Outcome.next.inj h).symm⟩
      · next rest hf => exact .inr (.inl ⟨rest, hf, (Host.Outcome.next.inj h).symm⟩)
      · next c rest hf =>
        split at h
        · cases h
        · next d hd =>
          split at h
          · cases h
          · exact .inr (.inr ⟨c, rest, d, hf, hd, by omega, (Host.Outcome.next.inj h).symm⟩)

/-- The codec's turn: it has nothing to do while BUSY = 0, else the step of its phase runs (R20). -/
theorem codecStep_cases {s t : State} (h : codecStep s = .next t) :
    (s.busy = false ∧ t = s) ∨
    (s.busy = true ∧
     ((s.phase = .hdr ∧ hdrStep s = .next t) ∨ (s.phase = .dim ∧ dimStep s = .next t) ∨
      (s.phase = .pal ∧ palStep s = .next t) ∨ (s.phase = .plane ∧ planeStep s = .next t) ∨
      (s.phase = .encHdr ∧ encHdrStep s = .next t) ∨ (s.phase = .encPal ∧ encPalStep s = .next t) ∨
      (s.phase = .encPix ∧ encPixStep s = .next t))) := by
  unfold codecStep at h
  cases hb : s.busy with
  | false => simp [hb] at h; simp [h]
  | true => cases hp : s.phase <;> simp_all

end Sys2Proof.Machine
end

