-- ==== Sys2Proof/Laws/InvariantCommands.lean ====
section
/-! SUPPORT. The commands keep the invariant of Sys2Proof/Safety.lean, part by part. -/

namespace Sys2Proof.Machine

/-- An error keeps the invariant, from any state that meets what an error does not reset (R221, R224). -/
theorem raise_inv (k : ErrKind) (i : Word) (s : State) (hk : k ≠ .none)
   (idxClear : s.idxValid = false → s.resIdx = 0)
   (oobResult : s.oob = true → s.idxValid = false ∧ s.resColor = sentinel)
   (palLenLegal : s.palLen = 0 ∨ s.palLen = 2 ∨ s.palLen = 4 ∨ s.palLen = 256)
   (planeFits : s.planeLen.toNat ≤ s.cfg.planeCap.toNat)
   (planeWf : Memory.wf s.plane)
   (planeHeld : ∀ a, a < s.planeLen.toNat → (s.plane.read a).isSome = true)
   (planeCfg : s.curOp.isDecode = false → s.planeValid = true → s.cfgValid = true)
   (cfgDepth : s.curOp.isDecode = false → s.cfgValid = true → depthOf (modeDC s.mode) ≠ none ∧ s.palLen ≠ 0)
   (noCfg : s.cfgValid = false → s.curOp.isDecode = false →
    s.mode = 0 ∧ s.width = 0 ∧ s.height = 0 ∧ s.planeLen = 0 ∧ s.planeValid = false)
   (inPosBound : s.inPos.toNat ≤ 12 + 1024 + s.cfg.planeCap.toNat + 1)
   (outPosBound : s.outPos.toNat ≤ 12 + 1024 + 4294836225)
   (pixCntBound : s.pixCnt.toNat ≤ 4294836225) : State.Inv (raise k i s) := by
  cases hd : s.curOp.isDecode <;> constructor <;> simp_all [State.OpMatchesPhase, State.PositionOk, CurOp.isDecode]

/-- Acceptance keeps the invariant (R227). -/
theorem accept_inv (w : Word) (s : State) (h : s.Inv) : (accept w s).Inv := by
  obtain ⟨h1,h2,h3,h4,h5,h6,h7,h8,h9,h10,h11,h12,h13,h14,h15,h16,h17,h18⟩ := h
  constructor <;> simp_all [State.OpMatchesPhase, State.PositionOk, State.ConfigCleared, totalPixels, sentinel]

/-- An error raised in a state of the invariant keeps it. -/
theorem raise_inv' (k : ErrKind) (i : Word) (s : State) (hk : k ≠ .none) (h : s.Inv) : (raise k i s).Inv := by
  obtain ⟨h1,h2,h3,h4,h5,h6,h7,h8,h9,h10,h11,h12,h13,h14,h15,h16,h17,h18⟩ := h
  apply raise_inv <;> simp_all

/-- With BUSY = 0 no phase and no stream command runs (R24). -/
theorem idle_op {s : State} (h : s.Inv) (hb : s.busy = false) : s.phase = .idle ∧ s.curOp = .none := by
  have hp : s.phase = .idle := by
    by_contra hp; simp [h.busyPhase.2 hp] at hb
  have := h.opPhase
  simp [State.OpMatchesPhase, hp] at this
  exact ⟨hp, this⟩

/-- The acceptance of a decode keeps the invariant (R132). -/
theorem startDecode_inv (op : CurOp) (ho : op = .decCfg ∨ op = .decFull) (s : State) (h : s.Inv) (hc : s.err = false ∧ s.idxValid = false ∧ s.oob = false ∧ s.palMiss = false ∧ s.resColor = sentinel) : (startDecode op s).Inv := by
  obtain ⟨h1,h2,h3,h4,h5,h6,h7,h8,h9,h10,h11,h12,h13,h14,h15,h16,h17,h18⟩ := h
  constructor <;> simp_all [State.OpMatchesPhase, State.PositionOk, State.ConfigCleared, totalPixels, CurOp.isDecode]

/-- Completion with no decode running keeps the invariant. -/
theorem complete_inv {s : State} (h : s.Inv) (hd : s.curOp.isDecode = false) : (complete s).Inv := by
  obtain ⟨h1,h2,h3,h4,h5,h6,h7,h8,h9,h10,h11,h12,h13,h14,h15,h16,h17,h18⟩ := h
  constructor <;> simp_all [State.OpMatchesPhase, State.PositionOk, State.ConfigCleared, totalPixels]

/-- N as the 9-bit PAL_LEN is 2, 4 or 256 (R29, R160). -/
theorem depthOf_palSize (d : Depth) : (BitVec.ofNat 9 d.palSize = 2 ∨ BitVec.ofNat 9 d.palSize = 4 ∨ BitVec.ofNat 9 d.palSize = 256) ∧ BitVec.ofNat 9 d.palSize ≠ 0 := by cases d <;> decide

/-- PAL_DEF's load keeps the invariant (R158). -/
theorem loadBuiltin_inv {s : State} (d : Depth) (h : s.Inv) (hp : s.phase = .idle) : (loadBuiltin d s).Inv := by
  obtain ⟨h1,h2,h3,h4,h5,h6,h7,h8,h9,h10,h11,h12,h13,h14,h15,h16,h17,h18⟩ := h
  have := depthOf_palSize d
  constructor <;> simp_all [State.OpMatchesPhase, State.PositionOk]

/-- PAL_WR's write keeps the invariant (R159). -/
theorem setEntry_inv {s : State} (i c) (h : s.Inv) : (setEntry i c s).Inv := by
  obtain ⟨h1,h2,h3,h4,h5,h6,h7,h8,h9,h10,h11,h12,h13,h14,h15,h16,h17,h18⟩ := h
  constructor <;> simp_all [State.OpMatchesPhase, State.PositionOk, State.ConfigCleared, totalPixels]

/-- An index result keeps the invariant (R34). -/
theorem setIndex_inv {s : State} (i) (h : s.Inv) (hb : s.busy = false) (ho : s.oob = false) : (setIndex i s).Inv := by
  obtain ⟨h1,h2,h3,h4,h5,h6,h7,h8,h9,h10,h11,h12,h13,h14,h15,h16,h17,h18⟩ := h
  constructor <;> simp_all [State.OpMatchesPhase, State.PositionOk]

/-- A color result keeps the invariant (R109). -/
theorem setConverted_inv {s : State} (i) (h : s.Inv) (hb : s.busy = false) (ho : s.oob = false) : (setConverted i s).Inv := by
  obtain ⟨h1,h2,h3,h4,h5,h6,h7,h8,h9,h10,h11,h12,h13,h14,h15,h16,h17,h18⟩ := h
  constructor <;> simp_all [State.OpMatchesPhase, State.PositionOk]

/-- PIX_RD outside the image keeps the invariant (R173). -/
theorem pixRdOutside_inv {s : State} (h : s.Inv) (hi : s.idxValid = false) (hd : s.phase = .idle) : (pixRdOutside s).Inv := by
  obtain ⟨h1,h2,h3,h4,h5,h6,h7,h8,h9,h10,h11,h12,h13,h14,h15,h16,h17,h18⟩ := h
  unfold pixRdOutside
  constructor <;> simp_all [State.OpMatchesPhase, State.PositionOk, CurOp.isDecode]

/-- ENC at acceptance keeps the invariant (R190, R191). -/
theorem encBody_inv {s : State} (dc ep ps) (h : s.Inv) (hd : s.phase = .idle) (hc : s.err = false ∧ s.idxValid = false ∧ s.oob = false ∧ s.palMiss = false ∧ s.resColor = sentinel) : (encBody dc ep ps s).Inv := by
  have ho : s.curOp = .none := by have := h.opPhase; simpa [State.OpMatchesPhase, hd] using this
  have ht : (clearCounts s).Inv := by
    obtain ⟨h1,h2,h3,h4,h5,h6,h7,h8,h9,h10,h11,h12,h13,h14,h15,h16,h17,h18⟩ := h
    constructor <;> simp_all [State.OpMatchesPhase, State.PositionOk, CurOp.isDecode]
  unfold encBody
  split
  · exact raise_inv' _ _ _ (by simp) ht
  · next h3 =>
    split
    · exact raise_inv' _ _ _ (by simp) ht
    · have hdep : ∃ d, depthOf dc = some d := by
        have : ∀ dc : BitVec 2, dc ≠ 3 → (depthOf dc).isSome = true := by decide
        exact Option.isSome_iff_exists.1 (this dc h3)
      obtain ⟨h1,h2,h3,h4,h5,h6,h7,h8,h9,h10,h11,h12,h13,h14,h15,h16,h17,h18⟩ := ht
      constructor <;> simp_all [State.OpMatchesPhase, State.PositionOk, CurOp.isDecode]

/-- Every command keeps the invariant when it answers a next state. -/
theorem exec_command_inv {s t : State} (i : Instr) (w : Word) (hi : encode i = .command w) (h : s.Inv) (he : exec i s = .next t) : t.Inv := by
  have key : ∀ (w : Word) (body : State → Result), issue w body s = .next t →
      (∀ u : State, u.Inv → u.phase = .idle → u.curOp = .none → u.busy = false → u.oob = false → u.idxValid = false → (u.err = false ∧ u.idxValid = false ∧ u.oob = false ∧ u.palMiss = false ∧ u.resColor = sentinel) → body u = .next t → t.Inv) → t.Inv := by
    intro w body hs hb
    obtain ⟨hbusy, hn⟩ := issue_next.1 hs
    obtain ⟨hp, ho⟩ := idle_op h hbusy
    exact hb _ (accept_inv w s h) (by simpa) (by simpa) (by simpa) (by simp) (by simp) (by simp [sentinel]) hn
  cases i with
  | decCfg =>
    exact key _ _ ((exec_decCfg  s).symm.trans he) fun u hu hp ho hbz hoo hix hcl hn => by
      cases hn; exact startDecode_inv _ (.inl rfl) u hu hcl
  | decFull =>
    exact key _ _ ((exec_decFull  s).symm.trans he) fun u hu hp ho hbz hoo hix hcl hn => by
      cases hn; exact startDecode_inv _ (.inr rfl) u hu hcl
  | enc dc ep ps idx =>
    exact key _ _ ((exec_enc dc ep ps idx s).symm.trans he) fun u hu hp ho hbz hoo hix hcl hn => by
      cases hn
      split
      · exact encBody_inv _ _ _ hu hp hcl
      · exact raise_inv' _ _ _ (by simp) hu
  | pixRd =>
    exact key _ _ ((exec_pixRd  s).symm.trans he) fun u hu hp ho hbz hoo hix hcl hn => by
      unfold pixRdBody at hn
      split at hn
      · split at hn
        · cases hn
        · unfold pixRdInside at hn
          split at hn
          · cases hn; exact raise_inv' _ _ _ (by simp) hu
          · split at hn
            · cases hn
            · cases hn
              exact complete_inv (setConverted_inv _ (setIndex_inv _ hu hbz hoo) (by simpa) (by simpa)) (by simp [ho, CurOp.isDecode])
      · cases hn; exact pixRdOutside_inv hu hix hp
  | palRd idx =>
    exact key _ _ ((exec_palRd idx s).symm.trans he) fun u hu hp ho hbz hoo hix hcl hn => by
      cases hn
      exact complete_inv (setConverted_inv _ (setIndex_inv _ hu hbz hoo) (by simpa) (by simpa)) (by simp [ho, CurOp.isDecode])
  | palWr idx =>
    exact key _ _ ((exec_palWr idx s).symm.trans he) fun u hu hp ho hbz hoo hix hcl hn => by
      cases hn
      exact complete_inv (setEntry_inv _ _ hu) (by simp [ho, CurOp.isDecode])
  | palDef dc =>
    exact key _ _ ((exec_palDef dc s).symm.trans he) fun u hu hp ho hbz hoo hix hcl hn => by
      cases hn
      unfold palDefBody
      split
      · exact raise_inv' _ _ _ (by simp) hu
      · exact complete_inv (loadBuiltin_inv _ hu hp) (by simp [ho, CurOp.isDecode])
  | quant dc =>
    exact key _ _ ((exec_quant dc s).symm.trans he) fun u hu hp ho hbz hoo hix hcl hn => by
      cases hn
      unfold quantBody
      split
      · exact raise_inv' _ _ _ (by simp) hu
      · exact complete_inv (setIndex_inv _ hu hbz hoo) (by simp [ho, CurOp.isDecode])
  | modeD1 pf rsv => simp [encode] at hi
  | modeD2 pf rsv => simp [encode] at hi
  | modeD8 pf rsv => simp [encode] at hi
  | modeBad pf rsv => simp [encode] at hi

/-- The HDR step keeps the invariant (R133, R134). -/
theorem hdr_inv {s t : State} (h : s.Inv) (hp : s.phase = .hdr) (hb : s.busy = true) (ht : hdrStep s = .next t) : t.Inv := by
  obtain ⟨hle, hc⟩ := hdrStep_cases hb hp ht
  rcases hc with ⟨_, rfl⟩ | ⟨rest, hf, rfl⟩ | ⟨b, rest, hf, h7, rfl⟩ | ⟨b, rest, hf, h7, rfl⟩
  · exact h
  · obtain ⟨h1,h2,h3,h4,h5,h6,h7,h8,h9,h10,h11,h12,h13,h14,h15,h16,h17,h18⟩ := h
    apply raise_inv <;> simp_all
  · obtain ⟨h1,h2,h3,h4,h5,h6,h7',h8,h9,h10,h11,h12,h13,h14,h15,h16,h17,h18⟩ := h
    unfold takeModeByte
    split
    · apply raise_inv <;> simp_all
      omega
    · have h8' : (8#64).toNat = 8 := rfl
      constructor <;> simp_all [State.OpMatchesPhase, State.PositionOk, State.ConfigCleared]
      · rcases h2 with h2 | h2 <;> simp [h2, CurOp.isDecode]
      · omega
  · have hne : s.inPos.toNat ≠ 7 := fun hh => h7 (BitVec.eq_of_toNat_eq hh)
    have hadd : (s.inPos + 1).toNat = s.inPos.toNat + 1 := by
      rw [BitVec.toNat_add]; simp; omega
    obtain ⟨h1,h2,h3,h4,h5,h6,h7',h8,h9,h10,h11,h12,h13,h14,h15,h16,h17,h18⟩ := h
    unfold takeSigByte
    constructor <;> simp_all [State.OpMatchesPhase, State.PositionOk, State.ConfigCleared]
    · omega
    · omega

end Sys2Proof.Machine
end

