-- ==== Sys2Proof/Laws/InvariantDecode.lean ====
section
/-! SUPPORT. The steps of a decode keep the invariant of Sys2Proof/Safety.lean. -/

namespace Sys2Proof.Machine

/-- DEC_CFG and DEC_FULL are the decodes (R221). -/
theorem isDecode_of {o : CurOp} (h : o = .decCfg ∨ o = .decFull) : o.isDecode = true := by
  rcases h with rfl | rfl <;> rfl

/-- N fits in PAL_LEN. -/
theorem palSize_toNat (d : Depth) : (BitVec.ofNat 9 d.palSize).toNat = d.palSize := by cases d <;> rfl

/-- `cfg_done` gives the invariant, from a decode with its palette loaded (R140). -/
theorem cfgDone_inv {s : State} (d : Depth) (hop : s.curOp = .decCfg ∨ s.curOp = .decFull) (hbusy : s.busy = true)
   (hd : depthOf (modeDC s.mode) = some d) (hpl : s.palLen = BitVec.ofNat 9 d.palSize) (hpn : s.planeLen = 0)
   (hcv : s.cfgValid = false) (hpv : s.planeValid = false)
   (hpos : s.inPos.toNat = headerLen d (modePF s.mode))
   (h3 : s.err = true ↔ s.errKind ≠ .none) (h4 : s.errKind = .none → s.errInfo = 0 ∧ s.errStage = .idle)
   (h5 : s.idxValid = false → s.resIdx = 0)
   (_h6 : s.oob = true → s.idxValid = false ∧ s.resColor = sentinel)
   (planeWf : Memory.wf s.plane)
   (outPosBound : s.outPos.toNat ≤ 12 + 1024 + 4294836225)
   (pixCntBound : s.pixCnt.toNat ≤ 4294836225)
   (h18 : s.busy = true → s.err = false ∧ s.idxValid = false ∧ s.oob = false ∧ s.palMiss = false ∧ s.resColor = sentinel) : (cfgDone s).Inv := by
  have hsz := depthOf_palSize d
  have hin : s.inPos.toNat ≤ 1036 := by
    rw [hpos]; unfold headerLen; cases d <;> cases modePF s.mode <;> simp [Depth.palSize]
  rcases cfgDone_cases s with ⟨ho, e⟩ | ⟨ho, e⟩ <;> rw [e]
  · constructor <;> simp_all [State.OpMatchesPhase, State.PositionOk]
    omega
  · have ho' : s.curOp = .decFull := by simp_all
    have hN : s.palLen.toNat = d.palSize := by rw [hpl, palSize_toNat]
    have h0 : (0#32).toNat = 0 := rfl
    have hl : s.palLen = 0 ∨ s.palLen = 2 ∨ s.palLen = 4 ∨ s.palLen = 256 := by rw [hpl]; exact .inr hsz.1
    clear hpl
    constructor <;> simp_all [State.OpMatchesPhase, State.PositionOk, CurOp.isDecode]
    all_goals omega

/-- The DIM step keeps the invariant (R137, R138, R150). -/
theorem dim_inv {s t : State} (h : s.Inv) (hp : s.phase = .dim) (hb : s.busy = true) (ht : dimStep s = .next t) : t.Inv := by
  obtain ⟨hge, hle, hc⟩ := dimStep_cases hb hp ht
  have hop : s.curOp = .decCfg ∨ s.curOp = .decFull := by simpa [State.OpMatchesPhase, hp] using h.opPhase
  obtain ⟨-, -, hcv, hpv, hw, hh, hpl, hpn⟩ : _ ∧ _ ∧ s.ConfigCleared := by simpa [State.PositionOk, hp] using h.position
  obtain ⟨h1,h2,h3,h4,h5,h6,h7,h8,h9,h10,h11,h12,h13,h14,h15,h16,h17,h18⟩ := h
  rcases hc with ⟨_, rfl⟩ | ⟨rest, hf, rfl⟩ | ⟨b, rest, hf, h7', rfl⟩ | ⟨b, rest, hf, h7', rfl⟩
  · constructor <;> assumption
  · apply raise_inv <;> simp_all
  · unfold resolutionOf
    split
    · next d hd =>
      unfold resolveKnown
      split
      · next hpf =>
        have : (12#64).toNat = 12 := rfl
        constructor <;> simp_all [State.OpMatchesPhase, State.PositionOk, State.ConfigCleared, assembleDims, takeDimByte, isDecode_of]
        · cases d <;> simp [Depth.palSize]
        · exact Nat.le_trans (show 11 ≤ 1036 by norm_num) (Nat.le_add_right _ _)
      · apply cfgDone_inv d <;> simp_all [assembleDims, takeDimByte]
        simp [headerLen]
    · unfold resolveBad
      apply raise_inv <;> simp_all [assembleDims, takeDimByte]
      · intro hh; simp [isDecode_of hop] at hh
      · exact Nat.le_trans (show 11 ≤ 1036 by norm_num) (Nat.le_add_right _ _)
  · have hne : s.inPos.toNat ≠ 11 := fun hh => h7' (BitVec.eq_of_toNat_eq hh)
    have hadd : (s.inPos + 1).toNat = s.inPos.toNat + 1 := by
      rw [BitVec.toNat_add]; simp; omega
    unfold takeDimByte
    constructor <;> simp_all [State.OpMatchesPhase, State.PositionOk, State.ConfigCleared]
    · omega
    · omega

/-- The PAL step keeps the invariant (R152, R154). -/
theorem pal_inv {s t : State} (h : s.Inv) (hp : s.phase = .pal) (hb : s.busy = true) (ht : palStep s = .next t) : t.Inv := by
  obtain ⟨d, hd, hge, hlt, hc⟩ := palStep_cases ht
  have hop : s.curOp = .decCfg ∨ s.curOp = .decFull := by simpa [State.OpMatchesPhase, hp] using h.opPhase
  obtain ⟨d', hd', hpf, -, -, hcv, hpv, hpl, hpn⟩ : ∃ d, depthOf (modeDC s.mode) = some d ∧ modePF s.mode = true ∧ 12 ≤ s.inPos.toNat ∧
      s.inPos.toNat < 12 + 4 * d.palSize ∧ s.cfgValid = false ∧ s.planeValid = false ∧
      s.palLen = 0 ∧ s.planeLen = 0 := by simpa [State.PositionOk, hp] using h.position
  have hadd : (s.inPos + 1).toNat = s.inPos.toNat + 1 := by
      rw [BitVec.toNat_add]; simp; have := h.inPosBound; omega
  have h1024 : 4 * d.palSize ≤ 1024 := by cases d <;> simp [Depth.palSize]
  obtain ⟨h1,h2,h3,h4,h5,h6,h7,h8,h9,h10,h11,h12,h13,h14,h15,h16,h17,h18⟩ := h
  rcases hc with ⟨_, rfl⟩ | ⟨rest, hf, rfl⟩ | ⟨b, rest, hf, h7', rfl⟩ | ⟨b, rest, hf, h7', rfl⟩
  · constructor <;> assumption
  · apply raise_inv <;> simp_all
  · unfold takePalByte
    dsimp only
    apply cfgDone_inv d <;> (split <;> simp_all [headerLen])
    all_goals omega
  · have hdec := isDecode_of hop
    have h0 : (0#32).toNat = 0 := rfl
    clear ht
    unfold takePalByte
    dsimp only
    split
    · constructor
      case position => simp_all [State.PositionOk]; omega
      case opPhase => simpa [State.OpMatchesPhase, hp] using hop
      case inPosBound => simp_all; omega
      all_goals simp_all
    · constructor
      case position => simp_all [State.PositionOk]; omega
      case opPhase => simpa [State.OpMatchesPhase, hp] using hop
      case inPosBound => simp_all; omega
      all_goals simp_all

/-- The PLANE step keeps the invariant (R170 to R172). -/
theorem plane_inv {s t : State} (h : s.Inv) (hp : s.phase = .plane) (hb : s.busy = true) (ht : planeStep s = .next t) : t.Inv := by
  have hc := planeStep_cases ht
  have hop : s.curOp = .decFull := by simpa [State.OpMatchesPhase, hp] using h.opPhase
  obtain ⟨d, hd, hpos, hcv, hpv, hpl⟩ : ∃ d, depthOf (modeDC s.mode) = some d ∧
      s.inPos.toNat = headerLen d (modePF s.mode) + s.planeLen.toNat ∧ s.cfgValid = false ∧
      s.planeValid = false ∧ s.palLen.toNat = d.palSize := by simpa [State.PositionOk, hp] using h.position
  have hhl : headerLen d (modePF s.mode) ≤ 1036 := by unfold headerLen; cases d <;> cases modePF s.mode <;> simp [Depth.palSize]
  have hadd : (s.inPos + 1).toNat = s.inPos.toNat + 1 := by
      rw [BitVec.toNat_add]; simp; have := h.inPosBound; omega
  obtain ⟨h1,h2,h3,h4,h5,h6,h7,h8,h9,h10,h11,h12,h13,h14,h15,h16,h17,h18⟩ := h
  rcases hc with ⟨_, rfl⟩ | ⟨rest, hf, rfl⟩ | ⟨b, rest, hf, h7', rfl⟩ | ⟨b, rest, hf, h7', rfl⟩
  · constructor <;> assumption
  · unfold planeFinish
    have hne : s.palLen ≠ 0 := by intro hh; rw [hh] at hpl; cases d <;> simp [Depth.palSize] at hpl
    constructor <;> simp_all [State.OpMatchesPhase, State.PositionOk]
  · clear ht
    apply raise_inv <;> simp_all [CurOp.isDecode]
    omega
  · have hadd' : (s.planeLen + 1).toNat = s.planeLen.toNat + 1 := by
      rw [BitVec.toNat_add]; simp; have := s.cfg.planeCap.isLt; omega
    constructor <;> simp_all [State.OpMatchesPhase, State.PositionOk, CurOp.isDecode]
    · omega
    · exact Memory.write_wf _ _ _ h9
    · intro a ha
      by_cases he : a = s.planeLen.toNat
      · simp [he]
      · rw [Memory.read_write_other _ _ _ _ he]; exact h10 a (by omega)
    · omega
    · omega

end Sys2Proof.Machine
end

