-- ==== Sys2Proof/Laws/InvariantEncode.lean ====
section
/-! SUPPORT. The steps of an encode keep the invariant of Sys2Proof/Safety.lean. -/

namespace Sys2Proof.Machine

/-- An encode's header has 12 bytes (R192). -/
theorem headerBytes_length (o dc ep w h) : (headerBytes o dc ep w h).length = 12 := by
  cases o <;> simp [headerBytes, magic, dimBytes]

/-- The ENC_HDR step keeps the invariant (R195). -/
theorem encHdr_inv {s t : State} (h : s.Inv) (hp : s.phase = .encHdr) (ht : encHdrStep s = .next t) : t.Inv := by
  obtain ⟨b, -, hc⟩ := encHdrStep_cases ht
  have hop : s.curOp = .enc := by simpa [State.OpMatchesPhase, hp] using h.opPhase
  obtain ⟨⟨d, hd⟩, hlt, hpc, hnf, hacc⟩ : (∃ d, depthOf s.eDC = some d) ∧ s.outPos.toNat < 12 ∧ s.pixCnt = 0 ∧ s.nfill = 0 ∧ s.acc = 0 := by
    simpa [State.PositionOk, hp] using h.position
  have hadd : (s.outPos + 1).toNat = s.outPos.toNat + 1 := by
    rw [BitVec.toNat_add]; simp; omega
  obtain ⟨h1,h2,h3,h4,h5,h6,h7,h8,h9,h10,h11,h12,h13,h14,h15,h16,h17,h18⟩ := h
  clear ht
  rcases hc with ⟨h12', rfl⟩ | ⟨h12', rfl⟩
  · have : s.outPos.toNat = 11 := by
      have := congrArg BitVec.toNat h12'; rw [hadd] at this; simpa using this
    have h1024 : 0 < 4 * d.palSize := by cases d <;> simp [Depth.palSize]
    have h0 : (0#8).toNat = 0 := rfl
    cases hep : s.eEP
    all_goals
      constructor
      case position =>
        simp_all [State.PositionOk, headerLen]
      case opPhase => simp [State.OpMatchesPhase, hop]
      all_goals simp_all
  · have : s.outPos.toNat ≠ 11 := by
      intro hh; apply h12'; apply BitVec.eq_of_toNat_eq; rw [hadd, hh]; rfl
    constructor
    case position => simp_all [State.PositionOk]; omega
    case opPhase => simp [State.OpMatchesPhase, hop, hp]
    case outPosBound => simp_all; omega
    all_goals simp_all

/-- The ENC_PAL step keeps the invariant (R196). -/
theorem encPal_inv {s t : State} (h : s.Inv) (hp : s.phase = .encPal) (ht : encPalStep s = .next t) : t.Inv := by
  obtain ⟨d, hd, hge, hlt, u, hu, hc⟩ := encPalStep_cases ht
  have hop : s.curOp = .enc := by simpa [State.OpMatchesPhase, hp] using h.opPhase
  obtain ⟨d', hd', hep, -, -, hpc, hnf, hacc⟩ : ∃ d, depthOf s.eDC = some d ∧ s.eEP = true ∧ 12 ≤ s.outPos.toNat ∧
      s.outPos.toNat < 12 + 4 * d.palSize ∧ s.pixCnt = 0 ∧ s.nfill = 0 ∧ s.acc = 0 := by
    simpa [State.PositionOk, hp] using h.position
  have h1024 : 4 * d.palSize ≤ 1024 := by cases d <;> simp [Depth.palSize]
  have hadd : (s.outPos + 1).toNat = s.outPos.toNat + 1 := by
    rw [BitVec.toNat_add]; simp; omega
  obtain ⟨h1,h2,h3,h4,h5,h6,h7,h8,h9,h10,h11,h12,h13,h14,h15,h16,h17,h18⟩ := h
  clear ht
  generalize channelOf _ _ = b at hu
  subst hu
  have h0 : (0#8).toNat = 0 := rfl
  rcases hc with ⟨h12', rfl⟩ | ⟨h12', rfl⟩
  · constructor
    case position => simp_all [State.PositionOk, headerLen]; omega
    case opPhase => simp [State.OpMatchesPhase, hop]
    case outPosBound => simp_all; omega
    all_goals simp_all
  · constructor
    case position => simp_all [State.PositionOk]; omega
    case opPhase => simp [State.OpMatchesPhase, hop, hp]
    case outPosBound => simp_all; omega
    all_goals simp_all

/-- E_W·E_H is at most 65535² (R38). -/
theorem total_le (s : State) : totalPixels s ≤ 4294836225 := by
  unfold totalPixels
  have a := s.eW.isLt; have b := s.eH.isLt
  calc _ ≤ 65535 * 65535 := Nat.mul_le_mul (by omega) (by omega)
    _ = _ := by norm_num

/-- The bits of ACC below the next field stay 0 when a field is OR-ed in above them. -/
theorem acc_low (acc q : Byte) (k m : Nat) (hm : m ≤ k) (hk : k ≤ 8) (h : acc.toNat % 2^k = 0) :
  (acc ||| (q <<< m)).toNat % 2^m = 0 := by
  have h2 : acc.toNat % 2^m = 0 :=
    Nat.mod_eq_zero_of_dvd ((Nat.pow_dvd_pow 2 hm).trans (Nat.dvd_of_mod_eq_zero h))
  rw [BitVec.toNat_or, Nat.or_mod_two_pow, h2, BitVec.toNat_shiftLeft, Nat.shiftLeft_eq, Nat.zero_or,
    Nat.mod_mod_of_dvd _ (Nat.pow_dvd_pow 2 (by omega)), Nat.mul_mod_left]

/-- Packing one 1- or 2-bit index keeps the invariant (R197, R198). -/
theorem packField_inv {s : State} (d : Depth) (p : Nat) (f : Byte) (rest) (h : s.Inv) (hp : s.phase = .encPix) (hd : depthOf s.eDC = some d)
   (hper : d.perByte = p) (hp2 : 2 ≤ p) (hpm : p ≤ 8)
   (hlt : s.pixCnt.toNat < totalPixels s) (hn : s.nfill.toNat < p)
   (hacc : s.nfill.toNat + 1 ≠ p → (s.acc ||| f).toNat % 2 ^ (8 - d.bits * (s.nfill.toNat + 1)) = 0) :
   ({ packField f p { s with pixFifo := rest } with pixCnt := s.pixCnt + 1 } : State).Inv := by
  have hop : s.curOp = .enc := by simpa [State.OpMatchesPhase, hp] using h.opPhase
  obtain ⟨d', hd', hpc, hnf, hout, hac⟩ : ∃ d, depthOf s.eDC = some d ∧ s.pixCnt.toNat ≤ totalPixels s ∧
      s.nfill.toNat = s.pixCnt.toNat % d.perByte ∧
      s.outPos.toNat = headerLen d s.eEP + s.pixCnt.toNat / d.perByte ∧
      s.acc.toNat % 2 ^ (8 - d.bits * s.nfill.toNat) = 0 := by simpa [State.PositionOk, hp] using h.position
  obtain rfl : d = d' := by rw [hd] at hd'; exact Option.some.inj hd'
  have hadd : (s.outPos + 1).toNat = s.outPos.toNat + 1 := by
    rw [BitVec.toNat_add]; simp; have := h.outPosBound; omega
  have htot := total_le s
  have haddp : (s.pixCnt + 1).toNat = s.pixCnt.toNat + 1 := by
    rw [BitVec.toNat_add]; simp; omega
  have hhl : headerLen d s.eEP ≤ 1036 := by unfold headerLen; cases d <;> cases s.eEP <;> simp [Depth.palSize]
  rw [hper] at hnf hout
  obtain ⟨h1,h2,h3,h4,h5,h6,h7,h8,h9,h10,h11,h12,h13,h14,h15,h16,h17,h18⟩ := h
  unfold packField
  dsimp only
  split
  · next hfull =>
    have hmod : (s.pixCnt.toNat + 1) % p = 0 := by
      rw [Nat.add_mod, ← hnf, Nat.mod_eq_of_lt (show 1 < p by omega), hfull, Nat.mod_self]
    have hdiv : (s.pixCnt.toNat + 1) / p = s.pixCnt.toNat / p + 1 := by
      have e := Nat.div_add_mod s.pixCnt.toNat p
      have : s.pixCnt.toNat + 1 = p * (s.pixCnt.toNat / p + 1) := by rw [Nat.mul_add]; omega
      rw [this]; exact Nat.mul_div_cancel_left _ (by omega)
    have hb : (s.pixCnt.toNat + 1) / p ≤ s.pixCnt.toNat + 1 := Nat.div_le_self _ _
    have h0 : (0#8).toNat = 0 := rfl
    have h0' : (0#3).toNat = 0 := rfl
    constructor
    case position =>
      simp only [State.PositionOk, emitAcc_phase, hp]
      refine ⟨d, by simpa using hd, ?_, ?_, ?_, ?_⟩
      · simp only [haddp]; simp [totalPixels] at *; omega
      · show (0#3).toNat = _
        rw [haddp, hper, hmod]
        rfl
      · simp only [haddp, hper, hdiv]; simp [hout]; omega
      · simp
    case opPhase => simpa [State.OpMatchesPhase, hp] using hop
    case outPosBound => simp only [emitAcc_outPos]; rw [hadd]; omega
    case pixCntBound => simp only [haddp]; omega
    all_goals simp_all
  · next hpart =>
    have hs : s.nfill.toNat + 1 < p := by omega
    have e := Nat.div_add_mod s.pixCnt.toNat p
    obtain ⟨hdiv, hmod⟩ := (Nat.div_mod_unique (a := s.pixCnt.toNat + 1) (b := p) (c := s.nfill.toNat + 1)
        (d := s.pixCnt.toNat / p) (by omega)).2 ⟨by omega, hs⟩
    have haddn : (s.nfill + 1).toNat = s.nfill.toNat + 1 := by
      rw [BitVec.toNat_add]; simp; omega
    constructor
    case position =>
      simp only [State.PositionOk, hp]
      refine ⟨d, by simpa using hd, ?_, ?_, ?_, ?_⟩
      · simp only [haddp]; simp [totalPixels] at *; omega
      · show (s.nfill + 1).toNat = _
        rw [haddp, hper, hmod, haddn]
      · simp only [haddp, hper, hdiv]; exact hout
      · simp only [haddn]; exact hacc hpart
    case opPhase => simpa [State.OpMatchesPhase, hp] using hop
    case pixCntBound => simp only [haddp]; omega
    all_goals simp_all

/-- The end of ENC keeps the invariant (R200). -/
theorem finishEncode_inv {s : State} (h : s.Inv) (hp : s.phase = .encPix) (he : s.pixCnt.toNat = totalPixels s) : (finishEncode s).Inv := by
  have hop : s.curOp = .enc := by simpa [State.OpMatchesPhase, hp] using h.opPhase
  obtain ⟨d, hd, hpc, hnf, hout, hac⟩ : ∃ d, depthOf s.eDC = some d ∧ s.pixCnt.toNat ≤ totalPixels s ∧
      s.nfill.toNat = s.pixCnt.toNat % d.perByte ∧
      s.outPos.toNat = headerLen d s.eEP + s.pixCnt.toNat / d.perByte ∧
      s.acc.toNat % 2 ^ (8 - d.bits * s.nfill.toNat) = 0 := by simpa [State.PositionOk, hp] using h.position
  have hadd : (s.outPos + 1).toNat = s.outPos.toNat + 1 := by
    rw [BitVec.toNat_add]; simp; have := h.outPosBound; omega
  have htot := total_le s
  have hhl : headerLen d s.eEP ≤ 1036 := by unfold headerLen; cases d <;> cases s.eEP <;> simp [Depth.palSize]
  obtain ⟨h1,h2,h3,h4,h5,h6,h7,h8,h9,h10,h11,h12,h13,h14,h15,h16,h17,h18⟩ := h
  unfold finishEncode
  split
  · constructor <;> simp_all [State.OpMatchesPhase, State.PositionOk, CurOp.isDecode]
  · next hne =>
    have hb : s.pixCnt.toNat / d.perByte + 1 ≤ 4294836225 := by
      cases d
      · simp only [Depth.perByte]; omega
      · simp only [Depth.perByte]; omega
      · exfalso; apply hne; apply BitVec.eq_of_toNat_eq; rw [hnf]; simp [Depth.perByte, Nat.mod_one]
    constructor
    case outPosBound => simp only [complete_outPos, emitAcc_outPos, hadd]; omega
    all_goals simp_all [State.OpMatchesPhase, State.PositionOk, CurOp.isDecode]

/-- The ENC_PIX step keeps the invariant (R197 to R201). -/
theorem encPix_inv {s t : State} (h : s.Inv) (hp : s.phase = .encPix) (ht : encPixStep s = .next t) : t.Inv := by
  rcases encPixStep_cases ht with ⟨he, rfl⟩ | ⟨hlt, ⟨-, rfl⟩ | ⟨rest, hf, rfl⟩ | ⟨c, rest, d, hf, hd, hn, rfl⟩⟩
  · exact finishEncode_inv h hp he
  · exact h
  · have hop : s.curOp = .enc := by simpa [State.OpMatchesPhase, hp] using h.opPhase
    obtain ⟨h1,h2,h3,h4,h5,h6,h7,h8,h9,h10,h11,h12,h13,h14,h15,h16,h17,h18⟩ := h
    clear ht
    apply raise_inv <;> simp_all [CurOp.isDecode]
  · obtain ⟨d', hd', hpc, hnf, hout, hac⟩ : ∃ d, depthOf s.eDC = some d ∧ s.pixCnt.toNat ≤ totalPixels s ∧
      s.nfill.toNat = s.pixCnt.toNat % d.perByte ∧
      s.outPos.toNat = headerLen d s.eEP + s.pixCnt.toNat / d.perByte ∧
      s.acc.toNat % 2 ^ (8 - d.bits * s.nfill.toNat) = 0 := by simpa [State.PositionOk, hp] using h.position
    obtain rfl : d = d' := by rw [hd] at hd'; exact Option.some.inj hd'
    clear ht
    cases d with
    | d1 =>
      refine packField_inv .d1 8 _ rest h hp hd rfl (by norm_num) (by norm_num) hlt hn fun hne => ?_
      simp only [Depth.bits, Depth.perByte, Nat.one_mul] at *
      have := acc_low s.acc (quantize .d1 (colorAsBytes c)) (8 - s.nfill.toNat) (7 - s.nfill.toNat) (by omega) (by omega) hac
      rwa [show 8 - (s.nfill.toNat + 1) = 7 - s.nfill.toNat by omega]
    | d2 =>
      refine packField_inv .d2 4 _ rest h hp hd rfl (by norm_num) (by norm_num) hlt hn fun hne => ?_
      simp only [Depth.bits, Depth.perByte] at *
      have := acc_low s.acc (quantize .d2 (colorAsBytes c)) (8 - 2 * s.nfill.toNat) (6 - 2 * s.nfill.toNat) (by omega) (by omega) hac
      rwa [show 8 - 2 * (s.nfill.toNat + 1) = 6 - 2 * s.nfill.toNat by omega]
    | d8 =>
      have hop : s.curOp = .enc := by simpa [State.OpMatchesPhase, hp] using h.opPhase
      have hadd : (s.outPos + 1).toNat = s.outPos.toNat + 1 := by
        rw [BitVec.toNat_add]; simp; have := h.outPosBound; omega
      have htot := total_le s
      have haddp : (s.pixCnt + 1).toNat = s.pixCnt.toNat + 1 := by
        rw [BitVec.toNat_add]; simp; omega
      have hhl : headerLen .d8 s.eEP ≤ 1036 := by unfold headerLen; cases s.eEP <;> simp [Depth.palSize]
      simp only [Depth.perByte, Nat.mod_one, Nat.div_one] at hnf hout
      obtain ⟨h1,h2,h3,h4,h5,h6,h7,h8,h9,h10,h11,h12,h13,h14,h15,h16,h17,h18⟩ := h
      simp only [packIndex]
      constructor
      case position =>
        simp only [State.PositionOk, outWrite_phase, hp]
        refine ⟨.d8, by simpa using hd, ?_, ?_, ?_, ?_⟩
        · simp only [haddp]; simp [totalPixels] at *; omega
        · simp [Depth.perByte, hnf, Nat.mod_one]
        · simp only [haddp, Depth.perByte, Nat.div_one, outWrite_outPos, hadd, outWrite_eEP]; omega
        · simpa [hnf] using hac
      case opPhase => simpa [State.OpMatchesPhase, hp] using hop
      case outPosBound => simp only [outWrite_outPos]; rw [hadd]; omega
      case pixCntBound => simp only [haddp]; omega
      all_goals simp_all

end Sys2Proof.Machine
end

