-- ==== Sys2Proof/Laws/InvariantAgents.lean ====
section
/-! SUPPORT. The codec's turn and the host's actions keep the invariant of Sys2Proof/Safety.lean, and go on. -/

namespace Sys2Proof.Machine

/-- The invariant does not read the FIFOs, the ARG registers, the agenda and the host's record. -/
theorem Inv_env {s t : State} (h : s.Inv) (e : t = { s with inFifo := t.inFifo, pixFifo := t.pixFifo, outFifo := t.outFifo, agenda := t.agenda, hostLog := t.hostLog, argX := t.argX, argY := t.argY, argW := t.argW, argH := t.argH, argRG := t.argRG, argBA := t.argBA }) : t.Inv := by
  obtain ⟨h1,h2,h3,h4,h5,h6,h7,h8,h9,h10,h11,h12,h13,h14,h15,h16,h17,h18⟩ := h
  rw [e]
  constructor <;> assumption

/-- The codec's turn keeps the invariant. -/
theorem codec_inv {s t : State} (h : s.Inv) (ht : codecStep s = .next t) : t.Inv := by
  rcases codecStep_cases ht with ⟨-, rfl⟩ | ⟨hb, ⟨hp, hs⟩ | ⟨hp, hs⟩ | ⟨hp, hs⟩ | ⟨hp, hs⟩ | ⟨hp, hs⟩ | ⟨hp, hs⟩ | ⟨hp, hs⟩⟩
  · exact h
  · exact hdr_inv h hp hb hs
  · exact dim_inv h hp hb hs
  · exact pal_inv h hp hb hs
  · exact plane_inv h hp hb hs
  · exact encHdr_inv h hp hs
  · exact encPal_inv h hp hs
  · exact encPix_inv h hp hs

/-- A decoded command word is an instruction whose code unit is a command word. -/
theorem decode_command_encode {w : Word} {i : Instr} (h : decode (.command w) = .ok i) : ∃ w', encode i = .command w' := by
  unfold decode decodeCommand at h
  dsimp only at h
  split at h
  · next j hj =>
    cases h
    repeat' split at hj
    all_goals first | (cases hj; exact ⟨_, rfl⟩) | cases hj
  · cases h

/-- The host's reset gives the invariant (R250). -/
theorem resetAction_inv (s : State) : (resetAction s).Inv := by
  constructor <;> simp [resetAction, State.reset, State.OpMatchesPhase, State.PositionOk, Memory.wf]

/-- A host action keeps the invariant when it answers a next state. -/
theorem hostStep_inv {s t : State} (a : HostAction) (h : s.Inv) (ht : hostStep a s = .next t) : t.Inv := by
  unfold hostStep at ht
  split at ht
  · split at ht
    · cases ht; exact Inv_env h rfl
    · cases ht
  · split at ht
    · unfold writeOffset at ht
      split at ht
      · unfold issueWord at ht
        split at ht
        · next i hi =>
          obtain ⟨w', hw⟩ := decode_command_encode hi
          exact exec_command_inv i w' hw h ht
        · next w' _ =>
          obtain ⟨hb, hn⟩ := issue_next.1 ht
          cases hn
          exact raise_inv' _ _ _ (by simp) (accept_inv _ _ h)
      · cases ht
        unfold writeArg
        split <;> exact Inv_env h rfl
      · cases ht; exact h
    · cases ht
  · cases ht; exact Inv_env h rfl
  · cases ht; exact Inv_env h rfl
  · cases ht
    unfold popOut
    split <;> exact Inv_env h rfl
  · cases ht; exact resetAction_inv s

/-- From a state of the invariant the codec's turn answers a next state. -/
theorem codec_next {s : State} (h : s.Inv) : ∃ t, codecStep s = .next t := by
  unfold codecStep
  split
  · next hb =>
    have hp := h.busyPhase.1 hb
    have hpos := h.position
    cases hph : s.phase <;> simp only [State.PositionOk, hph] at hpos ⊢
    · exact absurd hph hp
    · unfold hdrStep
      rw [if_neg (by omega)]
      split
      · exact ⟨_, rfl⟩
      · exact ⟨_, rfl⟩
      · split
        · next h7 => exact ⟨_, by rw [exec_decodeModeByte]; exact actModeByte_take (by simp [State.atModeByte, hb, hph, h7])⟩
        · exact ⟨_, rfl⟩
    · unfold dimStep
      rw [if_neg (by omega)]
      split
      · exact ⟨_, rfl⟩
      · exact ⟨_, rfl⟩
      · dsimp only
        split
        · next h7 => exact ⟨_, by rw [exec_decodeModeByte]; exact actModeByte_resolve (by simp [State.atResolution, assembleDims, takeDimByte, hb, hph, h7])⟩
        · exact ⟨_, rfl⟩
    · obtain ⟨d, hd, hpf, hge, hlt, -⟩ := hpos
      unfold palStep
      rw [hd]
      dsimp only
      rw [if_neg (by omega)]
      split
      · exact ⟨_, rfl⟩
      · exact ⟨_, rfl⟩
      · split <;> exact ⟨_, rfl⟩
    · unfold planeStep
      split
      · exact ⟨_, rfl⟩
      · exact ⟨_, rfl⟩
      · dsimp only
        split
        · exact ⟨_, rfl⟩
        · next hne =>
          have : s.planeLen.toNat < s.cfg.planeCap.toNat := by
            have := h.planeFits
            have hne' : s.planeLen.toNat ≠ s.cfg.planeCap.toNat := fun e => hne (BitVec.eq_of_toNat_eq e)
            omega
          simp only [memWrite, if_pos this]
          exact ⟨_, rfl⟩
    · unfold encHdrStep
      have hl := headerBytes_length s.cfg.dimOrder s.eDC s.eEP s.eW s.eH
      obtain ⟨b, hb⟩ : ∃ b, (headerBytes s.cfg.dimOrder s.eDC s.eEP s.eW s.eH)[s.outPos.toNat]? = some b :=
        ⟨_, List.getElem?_eq_getElem (by omega)⟩
      rw [hb]
      dsimp only
      split <;> exact ⟨_, rfl⟩
    · obtain ⟨d, hd, hpf, hge, hlt, -⟩ := hpos
      unfold encPalStep
      rw [hd]
      dsimp only
      rw [if_neg (by omega)]
      split <;> exact ⟨_, rfl⟩
    · obtain ⟨d, hd, hle, hnf, -⟩ := hpos
      unfold encPixStep
      split
      · exact ⟨_, rfl⟩
      · rw [if_neg (by omega)]
        split
        · exact ⟨_, rfl⟩
        · exact ⟨_, rfl⟩
        · rw [hd]
          dsimp only
          rw [if_neg (by rw [hnf]; have := Nat.mod_lt s.pixCnt.toNat (show 0 < d.perByte by cases d <;> simp [Depth.perByte]); omega)]
          exact ⟨_, rfl⟩
  · exact ⟨_, rfl⟩

/-- PIX_RD answers a next state from a state of the invariant with no decode running. -/
theorem pixRdBody_next {s : State} (h : s.Inv) (ho : s.curOp.isDecode = false) : ∃ t, pixRdBody s = .next t := by
  unfold pixRdBody
  split
  · next hin =>
    have hcv : s.cfgValid = true := by
      by_contra hc
      have hc : s.cfgValid = false := by simpa using hc
      have := h.noCfg hc ho
      simp [inBounds, this.2.1] at hin
      omega
    obtain ⟨hd, -⟩ := h.cfgDepth hcv
    obtain ⟨d, hd⟩ := Option.ne_none_iff_exists'.1 hd
    rw [hd]
    dsimp only
    unfold pixRdInside
    split
    · exact ⟨_, rfl⟩
    · next hlt =>
      have hlt : byteAddr d (pixelOffset s.width (coordX s).toNat (coordY s).toNat) < s.planeLen.toNat := by omega
      rw [memRead_below _ _ hlt]
      obtain ⟨b, hb⟩ := Option.isSome_iff_exists.1 (h.planeHeld _ hlt)
      rw [hb]
      exact ⟨_, rfl⟩
  · exact ⟨_, rfl⟩

/-- A word written to CMD of an idle codec answers a next state. -/
theorem issueWord_next {s : State} (w) (h : s.Inv) (hb : s.busy = false) : ∃ t, issueWord w s = .next t := by
  have hop : s.curOp = .none := by have := h.opPhase; have hp : s.phase = .idle := (idle_op h hb).1; simpa [State.OpMatchesPhase, hp] using this
  unfold issueWord
  split
  · next i hi =>
    obtain ⟨w', hw⟩ := decode_command_encode hi
    cases i <;> simp only [encode] at hw <;> (try cases hw)
    case pixRd =>
      rw [exec_pixRd, issue_idle hb]
      exact pixRdBody_next (accept_inv _ _ h) (by simp [hop, CurOp.isDecode])
    all_goals simp only [exec_decCfg, exec_decFull, exec_enc, exec_palRd, exec_palWr, exec_palDef, exec_quant, issue_idle hb]; exact ⟨_, rfl⟩
  · unfold execIllegal; rw [issue_idle hb]; exact ⟨_, rfl⟩

end Sys2Proof.Machine
end

