-- ==== Sys2Proof/Laws/PerInstr.lean ====
section
/-! SUPPORT. One fact per instruction: its code unit has the width of its row of spec/opcode_table.json
and its fixed bits, `unit & mask = match` (30_encoding.md R72, R74). -/

namespace Sys2Proof.Laws.TableRow

/-- The width, match and mask of the row of an instruction in spec/opcode_table.json. -/
def rowBits : Instr → Nat × Nat × Nat
  | .decCfg => (32, 0x00000001, 0xFFFFFFFF)
  | .decFull => (32, 0x00000002, 0xFFFFFFFF)
  | .enc _ _ _ _ => (32, 0x00000003, 0xFFFF000F)
  | .pixRd => (32, 0x00000004, 0xFFFFFFFF)
  | .palRd _ => (32, 0x00000005, 0xFFFF00FF)
  | .palWr _ => (32, 0x00000006, 0xFFFF00FF)
  | .palDef _ => (32, 0x00000007, 0xFFFFFFCF)
  | .quant _ => (32, 0x00000008, 0xFFFFFFCF)
  | .modeD1 _ _ => (8, 0x00, 0xC0)
  | .modeD2 _ _ => (8, 0x40, 0xC0)
  | .modeD8 _ _ => (8, 0x80, 0xC0)
  | .modeBad _ _ => (8, 0xC0, 0xC0)

/-- A code unit has the given width and, under the mask, the given bits. -/
def fits (u : CodeUnit) (row : Nat × Nat × Nat) : Prop :=
  match u with
  | .command w => row.1 = 32 ∧ w &&& BitVec.ofNat 32 row.2.2 = BitVec.ofNat 32 row.2.1
  | .modeByte b => row.1 = 8 ∧ b &&& BitVec.ofNat 8 row.2.2 = BitVec.ofNat 8 row.2.1

/-- The code unit of the instruction fits its row. -/
def Statement (i : Instr) : Prop := fits (encode i) (rowBits i)

theorem decCfg : Statement .decCfg := by
  simp only [Statement, fits, encode, rowBits]; decide

theorem decFull : Statement .decFull := by
  simp only [Statement, fits, encode, rowBits]; decide

theorem enc (dc : BitVec 2) (ep ps : Bool) (idx : Byte) : Statement (.enc dc ep ps idx) := by
  simp only [Statement, fits, encode, rowBits, commandWord_eq_fieldsWord, true_and]
  exact (select_encMask _ _ _ _ _ _ 3).2 ⟨rfl, rfl⟩

theorem pixRd : Statement .pixRd := by
  simp only [Statement, fits, encode, rowBits]; decide

theorem palRd (idx : Byte) : Statement (.palRd idx) := by
  simp only [Statement, fits, encode, rowBits, commandWord_eq_fieldsWord, true_and]
  exact (select_palEntry _ _ _ _ _ _ 5).2 ⟨rfl, rfl, rfl, rfl, rfl⟩

theorem palWr (idx : Byte) : Statement (.palWr idx) := by
  simp only [Statement, fits, encode, rowBits, commandWord_eq_fieldsWord, true_and]
  exact (select_palEntry _ _ _ _ _ _ 6).2 ⟨rfl, rfl, rfl, rfl, rfl⟩

theorem palDef (dc : BitVec 2) : Statement (.palDef dc) := by
  simp only [Statement, fits, encode, rowBits, commandWord_eq_fieldsWord, true_and]
  exact (select_depth _ _ _ _ _ _ 7).2 ⟨rfl, rfl, rfl, rfl, rfl⟩

theorem quant (dc : BitVec 2) : Statement (.quant dc) := by
  simp only [Statement, fits, encode, rowBits, commandWord_eq_fieldsWord, true_and]
  exact (select_depth _ _ _ _ _ _ 8).2 ⟨rfl, rfl, rfl, rfl, rfl⟩

theorem modeD1 (pf : Bool) (rsv : BitVec 5) : Statement (.modeD1 pf rsv) := by
  simp only [Statement, fits, encode, rowBits, true_and]
  revert pf rsv; decide +kernel

theorem modeD2 (pf : Bool) (rsv : BitVec 5) : Statement (.modeD2 pf rsv) := by
  simp only [Statement, fits, encode, rowBits, true_and]
  revert pf rsv; decide +kernel

theorem modeD8 (pf : Bool) (rsv : BitVec 5) : Statement (.modeD8 pf rsv) := by
  simp only [Statement, fits, encode, rowBits, true_and]
  revert pf rsv; decide +kernel

theorem modeBad (pf : Bool) (rsv : BitVec 5) : Statement (.modeBad pf rsv) := by
  simp only [Statement, fits, encode, rowBits, true_and]
  revert pf rsv; decide +kernel

end Sys2Proof.Laws.TableRow
end

