-- ==== Sys2Proof/Laws/Run.lean ====
section
/-! SUPPORT. Runs of several steps, and the small facts a run needs. -/

namespace Sys2Proof.Machine

@[simp] theorem stepsTo_zero (s : State) : stepsTo 0 s = .next s := rfl

/-- One step, then the rest. -/
theorem stepsTo_succ {s t : State} (k : Nat) (h : step s = .next t) : stepsTo (k + 1) s = stepsTo k t := by
  simp [stepsTo, h]

/-- A run of `j` steps that goes on, then `k` more. -/
theorem stepsTo_add {j k : Nat} {s t : State} (h : stepsTo j s = .next t) :
    stepsTo (j + k) s = stepsTo k t := by
  induction j generalizing s with
  | zero => cases h; simp
  | succ j ih =>
    rw [Nat.add_right_comm]
    cases hs : step s with
    | next u => rw [stepsTo_succ _ hs] at h ⊢; exact ih h
    | fault f => simp [stepsTo, hs] at h
    | refused r => simp [stepsTo, hs] at h

/-- With no event left the turn is the codec's (10_state.md R20). -/
theorem step_codec {s : State} (h : s.agenda = []) : step s = codecStep s := by
  simp [step, h]

/-- The register found at an offset has that offset. -/
theorem HostReg.offset_of_ofOffset {off : Nat} {r : HostReg} (h : HostReg.ofOffset off = some r) :
    r.offset = off := by
  simpa using List.find?_some h

/-- The last dimension byte goes to DIM_BUF[3] (41_header_codec.md R137). -/
theorem dimBuf_set_last (v : Vector Byte 4) (b : Byte) : v.setIfInBounds 3 b = v.set 3 b := by
  ext i hi; simp [Vector.getElem_set, Vector.getElem_setIfInBounds]

/-- Right after reset PLANE is in canonical form. -/
theorem reset_plane_wf : Memory.wf State.reset.plane := List.Pairwise.nil

end Sys2Proof.Machine
end

