-- ==== Sys2Proof/Tests/Slice0.lean ====
section
/-! SUPPORT. Tests of the model and witnesses for the hypotheses of the statements.

The expected values come from the spec: the encodings of 30_encoding.md R70 to R74, the examples in
its rules, and the vectors V<n> of 95_test_vectors.md, named at each test. -/

namespace Sys2Proof.Tests

open Sys2Proof Sys2Proof.Machine

/-! ### Small states -/

/-- What a field of the next state is, if there is a next state. -/
def see {α : Type} (f : State → α) : Result → Option α
  | .next t => some (f t)
  | .fault _ => none
  | .refused _ => none

/-- An instance with DIM_ORDER = BE and 16 bytes of plane memory, right after reset. -/
def machine : State := { State.reset with cfg := ⟨.be, 16⟩ }

/-- The instance with a color operand. -/
def operand (rg ba : Word) : State := { machine with argRG := rg, argBA := ba }

/-- A DEC_CFG that has received the magic, and is about to read the mode byte. -/
def atMode : State := { machine with busy := true, phase := .hdr, curOp := .decCfg, inPos := 7 }

/-- A DEC_CFG or DEC_FULL that has received the 12 header bytes, before the color-model resolution. -/
def resolving (op : CurOp) (m : Byte) : State :=
  { machine with busy := true, phase := .dim, curOp := op, inPos := 12, mode := m }

/-- A DEC_CFG in the DIM phase at stream offset k. -/
def inDim (k : BitVec 64) (m : Byte) : State :=
  { machine with busy := true, phase := .dim, curOp := .decCfg, inPos := k, mode := m }

/-- A decode command in the PAL phase of a 1-bit stream, at palette byte j. -/
def inPal (op : CurOp) (j : BitVec 64) : State :=
  { machine with busy := true, phase := .pal, curOp := op, inPos := 12 + j, mode := 0x20 }

/-- A DEC_FULL of a 1-bit stream in the PLANE phase, with nothing captured, on `cap` bytes of memory. -/
def inPlane (cap : Word) : State :=
  { machine with
    cfg := ⟨.be, cap⟩, busy := true, phase := .plane, curOp := .decFull, inPos := 12, palLen := 2 }

/-- The state after V44's decode: 1-bit, 3 × 2, the plane byte 0xAC, the built-in palette. -/
def decoded : State :=
  { loadBuiltin .d1 machine with
    cfgValid := true, planeValid := true, width := 3, height := 2, planeLen := 1, plane := [(0, 0xAC)]
    inPos := 13 }

/-- `decoded` with the coordinates of a PIX_RD. -/
def pixelAt (x y : Word) : State := { decoded with argX := x, argY := y }

/-- A running ENC of `w` × `h` pixels with depth code `dc`. -/
def encoding (dc : BitVec 2) (p : Phase) (w h : BitVec 16) : State :=
  { machine with busy := true, phase := p, curOp := .enc, eDC := dc, eW := w, eH := h }

/-- White as a `Pix` item. -/
def white : PixItem := .pix ⟨0xFFFF, 0xFFFF, 0xFFFF, 0xFFFF⟩

/-! ### Ill-formed terms are refused -/

/-- R83: a depth code of a `CMD` line is 0 to 3. -/
theorem test_asm_dc_range : ({ mnemonic := .QUANT, dc := 4 } : AsmCommand).wellFormed = false ∧
    ({ mnemonic := .QUANT, dc := 3 } : AsmCommand).wellFormed = true := by decide

/-- R83: ep is 0 or 1. -/
theorem test_asm_ep_range : ({ mnemonic := .ENC, ep := 2 } : AsmCommand).wellFormed = false ∧
    ({ mnemonic := .ENC, ep := 1 } : AsmCommand).wellFormed = true := by decide

/-- R83: ps is 0 or 1. -/
theorem test_asm_ps_range : ({ mnemonic := .ENC, ps := 2 } : AsmCommand).wellFormed = false ∧
    ({ mnemonic := .ENC, ps := 1 } : AsmCommand).wellFormed = true := by decide

/-- R83: idx is 0 to 255. -/
theorem test_asm_idx_range : ({ mnemonic := .PAL_RD, idx := 256 } : AsmCommand).wellFormed = false ∧
    ({ mnemonic := .PAL_RD, idx := 255 } : AsmCommand).wellFormed = true := by decide

/-- R72: a field its opcode does not use is refused unless it is 0. -/
theorem test_asm_unused_fields :
    ({ mnemonic := .DEC_CFG, dc := 1 } : AsmCommand).wellFormed = false ∧
    ({ mnemonic := .DEC_FULL, idx := 1 } : AsmCommand).wellFormed = false ∧
    ({ mnemonic := .PIX_RD, ep := 1, ps := 1 } : AsmCommand).wellFormed = false ∧
    ({ mnemonic := .PIX_RD, idx := 1 } : AsmCommand).wellFormed = false ∧
    ({ mnemonic := .ENC, idx := 1 } : AsmCommand).wellFormed = false ∧
    ({ mnemonic := .PAL_RD, dc := 1 } : AsmCommand).wellFormed = false ∧
    ({ mnemonic := .PAL_WR, ep := 1 } : AsmCommand).wellFormed = false ∧
    ({ mnemonic := .PAL_DEF, ep := 1, ps := 1 } : AsmCommand).wellFormed = false ∧
    ({ mnemonic := .QUANT, idx := 1 } : AsmCommand).wellFormed = false := by decide

/-- R72, R81: an ENC with a bit in the field it does not use is ill-formed. -/
theorem test_instr_unused_field : (Instr.enc 0 false false 1).wellFormed = false ∧
    (Instr.enc 3 true true 0).wellFormed = true := by decide

/-- R39: a register access is one aligned 32-bit word below 0x100. -/
theorem test_host_access : hostAccessOk 0x02 4 = false ∧ hostAccessOk 0x04 2 = false ∧
    hostAccessOk 0x100 4 = false ∧ hostAccessOk 0xFC 4 = true ∧ hostAccessOk 0 4 = true := by decide

/-! ### Decoding: words written out bit by bit from R70 to R74 -/

/-- R72: DEC_CFG and DEC_FULL are exactly one word each. -/
theorem test_decode_dec :
    decodeTableWord 32 0b00000000000000000000000000000001 = some .decCfg ∧
    decodeTableWord 32 0b00000000000000000000000000000010 = some .decFull := by decide

/-- R70: ENC with DC = 10, EP = 1, PS = 0: `… 0 | 1 | 10 | 0011`; and V97, bit 28, is no command. -/
theorem test_decode_enc :
    decodeTableWord 32 0b00000000000000000000000001100011 = some (.enc 2 true false 0) ∧
    decodeTableWord 32 0b00000000000000000000000010010011 = some (.enc 1 false true 0) ∧
    decodeTableWord 32 0x10000003 = none := by decide

/-- R72, R81, U8: ENC does not use IDX, so a bit in [15:8] makes the word illegal (log entry 16). -/
theorem test_decode_enc_unused : decodeTableWord 32 0x103 = none ∧ decodeTableWord 32 0x8003 = none ∧
    see (fun t => (t.statusWord, t.errWord, t.errInfo, t.cmd)) (step { machine with agenda := [.host (.write 0 4 0x103)] })
      = some (0x02, 0x07, 0x103, 0x103) := by decide

/-- R72: PIX_RD; V94 and V95, with IDX or EP and PS set, are no commands. -/
theorem test_decode_pixRd :
    decodeTableWord 32 0b00000000000000000000000000000100 = some .pixRd ∧
    decodeTableWord 32 0x104 = none ∧ decodeTableWord 32 0xC4 = none := by decide

/-- R70: PAL_RD and PAL_WR with IDX in [15:8]; V99. -/
theorem test_decode_pal :
    decodeTableWord 32 0b00000000000000001010010100000101 = some (.palRd 0b10100101) ∧
    decodeTableWord 32 0b00000000000000000101101000000110 = some (.palWr 0b01011010) ∧
    decodeTableWord 32 0x0000FF05 = some (.palRd 255) ∧
    decodeTableWord 32 0x15 = none := by decide

/-- R70: PAL_DEF and QUANT with DC in [5:4]; V96 and V98. -/
theorem test_decode_dc :
    decodeTableWord 32 0b00000000000000000000000000010111 = some (.palDef 1) ∧
    decodeTableWord 32 0b00000000000000000000000000101000 = some (.quant 2) ∧
    decodeTableWord 32 0x37 = some (.palDef 3) ∧ decodeTableWord 32 0x38 = some (.quant 3) ∧
    decodeTableWord 32 0xF7 = none := by decide

/-- R73, R74: the mode byte `DC | PF | RSV`. -/
theorem test_decode_mode :
    decodeTableWord 8 0b00_1_00000 = some (.modeD1 true 0) ∧
    decodeTableWord 8 0b01_0_10101 = some (.modeD2 false 0b10101) ∧
    decodeTableWord 8 0b10_1_00001 = some (.modeD8 true 1) ∧
    decodeTableWord 8 0b11_0_11111 = some (.modeBad false 31) := by decide

/-- V90 to V93: words no row selects. -/
theorem test_decode_illegal :
    decodeTableWord 32 0 = none ∧ decodeTableWord 32 9 = none ∧ decodeTableWord 32 15 = none ∧
    decodeTableWord 32 0x00010001 = none ∧ decodeTableWord 32 0x11 = none := by decide

/-- The host's interface: a placed word runs as the next step. -/
theorem test_withFetchWord :
    see (fun t => (t.cmd, t.resIdx)) (step (machine.withFetchWord 32 0x505)) = some (0x505, 5) ∧
    see (fun t => (t.mode, t.phase)) (step (machine.withFetchWord 8 0x60)) = some (0x60, .dim) := by decide

/-! ### QUANT and the color model -/

/-- V70, V71, V72, V74: the index of the operand color. -/
theorem test_quant :
    see State.resIdx (exec (.quant 0) (operand 0x80FF7FFF 0xFFFF0000)) = some 1 ∧
    see State.resIdx (exec (.quant 1) (operand 0x0000AA00 0x8000AAAA)) = some 2 ∧
    see State.resIdx (exec (.quant 2) (operand 0x80808080 0xFFFF8080)) = some 0xEA ∧
    see State.resIdx (exec (.quant 1) (operand 0xFFFFFFFF 0x7FFFFFFF)) = some 0 := by decide

/-- V70, V75: STATUS after a QUANT that completes, and after one with DC = 11. -/
theorem test_quant_status :
    see State.statusWord (exec (.quant 0) (operand 0x80FF7FFF 0xFFFF0000)) = some 0x10 ∧
    see (fun t => (t.statusWord, t.errWord, t.errInfo, t.cmd)) (exec (.quant 3) machine)
      = some (0x02, 0x03, 3, 0x38) := by decide

/-- V2, V3, V8, V10, V18, V19: the quantizers. -/
theorem test_quantizers :
    quantize .d1 ⟨128, 0, 0, 128⟩ = 1 ∧ quantize .d1 ⟨127, 127, 127, 255⟩ = 0 ∧
    quantize .d2 ⟨0x40, 0, 0, 128⟩ = 1 ∧ quantize .d2 ⟨0xC0, 0x10, 0x01, 255⟩ = 3 ∧
    quantize .d8 ⟨0x40, 0x80, 0xC0, 0xFF⟩ = 0xF9 ∧ quantize .d8 ⟨0x12, 0x34, 0x56, 0x78⟩ = 0x50 := by decide

/-- V30 to V34: the built-in palettes. -/
theorem test_builtin_palettes :
    rom .d1 0 = ⟨0, 0, 0, 255⟩ ∧ rom .d1 1 = ⟨255, 255, 255, 255⟩ ∧ rom .d2 2 = ⟨0xAA, 0xAA, 0xAA, 255⟩ ∧
    rom .d8 0xEA = ⟨0xAA, 0xAA, 0xAA, 0xFF⟩ ∧ rom .d8 0x1B = ⟨0xFF, 0xAA, 0x55, 0⟩ ∧
    rom .d8 0xE4 = ⟨0, 0x55, 0xAA, 0xFF⟩ := by decide

/-! ### The palette commands -/

/-- V60, V63: after reset every index misses. -/
theorem test_palRd_miss :
    see (fun t => (t.statusWord, t.resIdx, colorWord t.resColor)) (exec (.palRd 0) machine) = some (0x50, 0, 0) ∧
    see (fun t => (t.statusWord, t.resIdx, colorWord t.resColor)) (exec (.palRd 255) machine)
      = some (0x50, 255, 0) := by decide

/-- V62, V61: after V44's decode index 1 is white and index 5 misses. -/
theorem test_palRd_decoded :
    see (fun t => (t.statusWord, t.resIdx, colorWord t.resColor)) (exec (.palRd 1) decoded)
      = some (0x1C, 1, 0xFFFFFFFF) ∧
    see (fun t => (t.statusWord, t.resIdx, colorWord t.resColor)) (exec (.palRd 5) decoded)
      = some (0x5C, 5, 0) := by decide +kernel

/-- V64, V65: PAL_DEF. -/
theorem test_palDef :
    see (fun t => (t.statusWord, t.palLen, t.palette[1])) (exec (.palDef 0) machine)
      = some (0, 2, ⟨255, 255, 255, 255⟩) ∧
    see (fun t => (t.statusWord, t.errWord, t.errInfo, t.palLen)) (exec (.palDef 3) machine)
      = some (0x02, 0x03, 3, 0) := by decide +kernel

/-- V66: PAL_WR leaves PAL_LEN and the other entries. -/
theorem test_palWr :
    see (fun t => (t.cmd, t.palette[1], t.palette[0], t.palLen)) (exec (.palWr 1) (operand 0x0000FFFF 0xFFFF0000))
      = some (0x106, ⟨0xFF, 0, 0, 0xFF⟩, ⟨0, 0, 0, 0⟩, 0) := by decide +kernel

/-! ### The pixel decoder -/

/-- V44: PIX_RD of (2, 1) and of (1, 0). -/
theorem test_pixRd :
    see (fun t => (t.statusWord, t.resIdx, colorWord t.resColor)) (exec .pixRd (pixelAt 2 1))
      = some (0x1C, 1, 0xFFFFFFFF) ∧
    see (fun t => (t.statusWord, t.resIdx, colorWord t.resColor)) (exec .pixRd (pixelAt 1 0))
      = some (0x1C, 0, 0xFF000000) := by decide +kernel

/-- V40, V41, V42: outside the image; V47: a pixel whose byte is missing from the plane. -/
theorem test_pixRd_edges :
    see (fun t => (t.statusWord, t.errWord)) (exec .pixRd (pixelAt 3 0)) = some (0x2C, 0) ∧
    see (fun t => (t.statusWord, t.errWord)) (exec .pixRd (pixelAt 0xFFFFFFFF 0)) = some (0x2C, 0) ∧
    see (fun t => (t.statusWord, t.errWord)) (exec .pixRd (pixelAt 0 2)) = some (0x2C, 0) ∧
    see (fun t => (t.statusWord, t.errWord, t.errInfo, t.resIdx))
      (exec .pixRd { pixelAt 1 0 with mode := 0x80, width := 2, height := 1 }) = some (0x0E, 0x05, 1, 0) := by
  decide +kernel

/-! ### The decode commands and the mode byte -/

/-- R132: the acceptance of DEC_CFG and DEC_FULL. -/
theorem test_dec_accept :
    see (fun t => (t.statusWord, t.curOp, t.sigMiss, t.width)) (exec .decCfg decoded)
      = some (0x101, .decCfg, 7, 0) ∧
    see (fun t => (t.statusWord, t.curOp, t.planeLen, t.inPos)) (exec .decFull decoded)
      = some (0x101, .decFull, 0, 0) := by decide +kernel

/-- V29b: mode 0x1F is taken verbatim; V24: after a mismatch at offset 6 it is not. -/
theorem test_mode_taken :
    see (fun t => (t.mode, t.phase, t.inPos)) (exec (.modeD1 false 0x1F) atMode) = some (0x1F, .dim, 8) ∧
    see (fun t => (t.statusWord, t.errWord, t.errInfo, t.inPos)) (exec (.modeD1 false 0) { atMode with sigMiss := 6 })
      = some (0x02, 0x11, 6, 8) := by decide +kernel

/-- V29b, V29c: the resolution without an in-file palette. -/
theorem test_mode_builtin :
    see (fun t => (t.statusWord, t.palLen, t.mode)) (exec (.modeD1 false 0x1F) (resolving .decCfg 0x1F))
      = some (0x04, 2, 0x1F) ∧
    see (fun t => (t.statusWord, t.palLen)) (exec (.modeD8 false 0) (resolving .decCfg 0x80))
      = some (0x04, 256) := by decide +kernel

/-- P2: mode 0x60 goes on to the palette; DEC_FULL of mode 0x40 goes on to the plane (V45). -/
theorem test_mode_phases :
    see (fun t => (t.phase, t.palLen)) (exec (.modeD2 true 0) (resolving .decFull 0x60)) = some (.pal, 0) ∧
    see (fun t => (t.phase, t.palLen)) (exec (.modeD2 false 0) (resolving .decFull 0x40)) = some (.plane, 4) := by
  decide +kernel

/-- V28: depth code 11 is taken at offset 7, and refused by the resolution at STAGE DIM. -/
theorem test_mode_bad :
    see (fun t => (t.mode, t.phase)) (exec (.modeBad false 0) atMode) = some (0xC0, .dim) ∧
    see (fun t => (t.statusWord, t.errWord, t.errInfo, t.mode)) (exec (.modeBad false 0) (resolving .decCfg 0xC0))
      = some (0x02, 0x23, 3, 0) := by decide +kernel

/-- V27: an `Eos` at offset 10; V29d: the last dimension byte under BE and LE. -/
theorem test_dimensions :
    see (fun t => (t.errWord, t.errInfo)) (step { inDim 10 0 with inFifo := [.eos] }) = some (0x22, 10) ∧
    see (fun t => readOffset t 0x14)
      (step { inDim 11 0 with dimBuf := #v[1, 2, 0, 0], inFifo := [.byte 0xFF] }) = some 0x00FF0102 ∧
    see (fun t => readOffset t 0x14)
      (step { inDim 11 0 with cfg := ⟨.le, 16⟩, dimBuf := #v[1, 2, 0, 0], inFifo := [.byte 0xFF] })
      = some 0xFF000201 := by decide +kernel

/-- V49: the last palette byte; V29a: an `Eos` inside the palette. -/
theorem test_palette_bytes :
    see (fun t => (t.palLen, t.statusWord, colorWord t.palette[1]))
      (step { inPal .decCfg 7 with eb := #v[5, 6, 7], inFifo := [.byte 8] }) = some (2, 0x04, 0x08070605) ∧
    see (fun t => (t.errWord, t.errInfo)) (step { inPal .decCfg 5 with inFifo := [.eos] }) = some (0x32, 17) := by
  decide +kernel

/-- R131: a plane byte; V52: a byte past PLANE_CAP. -/
theorem test_plane :
    see (fun t => (t.planeLen, t.plane)) (step { inPlane 16 with inFifo := [.byte 0xAC, .eos] })
      = some (1, [(0, 0xAC)]) ∧
    see (fun t => (t.errWord, t.errInfo, t.inPos))
      (step { inPlane 1 with planeLen := 1, plane := [(0, 0x80)], inPos := 13, inFifo := [.byte 0x81, .eos] })
      = some (0x46, 1, 14) := by decide +kernel

/-! ### The encoder -/

/-- V81, V83, V84: the acceptance checks. -/
theorem test_enc_checks :
    see (fun t => (t.errWord, t.errInfo)) (exec (.enc 0 false false 0) { machine with argW := 65536, argH := 1 })
      = some (0x04, 1) ∧
    see (fun t => (t.errWord, t.errInfo)) (exec (.enc 0 false false 0) { machine with argW := 70000, argH := 70000 })
      = some (0x04, 3) ∧
    see (fun t => (t.errWord, t.errInfo)) (exec (.enc 3 false false 0) { machine with argW := 70000, argH := 1 })
      = some (0x03, 3) := by decide

/-- V80a, P2: the mode byte that ENC emits; V88: ROM(8) as bytes; V87: a packed 8-bit pixel. -/
theorem test_enc_steps :
    see State.outFifo (step { encoding 1 .encHdr 2 2 with eEP := true, outPos := 7 }) = some [0x60] ∧
    see State.outFifo (step { encoding 2 .encPal 0 5 with eEP := true, outPos := 12 + 4 }) = some [0x55] ∧
    see State.outFifo (step { encoding 2 .encPix 1 1 with
      outPos := 12, pixFifo := [.pix ⟨0x80FF, 0x8000, 0x80AB, 0xFFFF⟩] }) = some [0xEA] := by decide +kernel

/-- V85: nine whites, the eighth fills a byte and the ninth is flushed; V89: an `Eos` too early. -/
theorem test_enc_pack :
    see (fun t => (t.outFifo, t.nfill))
      (step { encoding 0 .encPix 9 1 with acc := 0xFE, nfill := 7, pixCnt := 7, pixFifo := [white] })
      = some ([0xFF], 0) ∧
    see (fun t => (t.outFifo, t.statusWord)) (step { encoding 0 .encPix 9 1 with acc := 0x80, nfill := 1, pixCnt := 9 })
      = some ([0x80], 0) ∧
    see (fun t => (t.errWord, t.errInfo, t.outFifo))
      (step { encoding 0 .encPix 2 1 with acc := 0x80, nfill := 1, pixCnt := 1, pixFifo := [.eos] })
      = some (0x72, 1, []) := by decide +kernel

/-- R206: V85's plane bytes and P2's plane byte by the closed form. -/
theorem test_pack : pack .d1 [1, 1, 1, 1, 1, 1, 1, 1, 1] = [0xFF, 0x80] ∧ pack .d2 [0, 1, 2, 0] = [0x18] := by decide

/-- R141: V29b's stream by the closed form, and V22's. -/
theorem test_decodeConfig :
    decodeConfig .be ((magic ++ [0x1F, 0, 1, 0, 1]).map .byte ++ [.eos])
      = .ok ⟨0x1F, 1, 1, .d1, [⟨0, 0, 0, 255⟩, ⟨255, 255, 255, 255⟩], 12⟩ ∧
    decodeConfig .be (([0x49, 0x4D, 0x52, 0x45, 0x54, 0x52, 0x58] : List Byte).map .byte ++ [.eos])
      = .error .truncatedInput 7 .hdr 8 := by decide +kernel

/-! ### The host port and reset -/

/-- V103: reset while a DEC_FULL waits. -/
theorem test_reset :
    see (fun t => (t.statusWord, t.errWord, t.inFifo, t.planeLen))
      (step { inPlane 16 with agenda := [.host .reset], inFifo := [.byte 1] }) = some (0, 0, [], 0) := by decide +kernel

/-- R84: SETPAL of V66 writes ARG_RG = 0x0000FFFF, ARG_BA = 0xFFFF0000 and the word 0x106. -/
theorem test_setpal : macroSETPAL 1 0xFF 0 0 0xFF =
    [.host (.write 0x30 4 0x0000FFFF), .host (.write 0x34 4 0xFFFF0000), .host (.write 0x00 4 0x106)] := by decide

/-! ### Witnesses: concrete states and operands that meet the hypotheses of the statements -/

/-- The codec is idle right after reset. -/
theorem machine_idle : machine.Idle := ⟨rfl, rfl, rfl⟩

/-- The invariant right after reset. -/
theorem machine_inv : machine.Inv := by
  constructor <;> simp [machine, State.reset, State.OpMatchesPhase, State.PositionOk, Memory.wf]

/-- The invariant in the HDR phase. -/
theorem atMode_inv : atMode.Inv := by
  constructor <;> simp [atMode, machine, State.reset, State.OpMatchesPhase, State.PositionOk, State.ConfigCleared,
    Memory.wf, sentinel]

/-- The invariant in the DIM phase. -/
theorem inDim_inv : (inDim 11 0xC0).Inv := by
  constructor <;> simp [inDim, machine, State.reset, State.OpMatchesPhase, State.PositionOk, State.ConfigCleared,
    Memory.wf, sentinel, CurOp.isDecode]

/-- The invariant in the PAL phase. -/
theorem inPal_inv : (inPal .decFull 7).Inv := by
  constructor <;> simp [inPal, machine, State.reset, State.OpMatchesPhase, State.PositionOk, Memory.wf, sentinel,
    CurOp.isDecode, depthOf, modeDC, modePF, Depth.palSize]

/-- The invariant in the PLANE phase. -/
theorem inPlane_inv : (inPlane 16).Inv := by
  constructor <;> simp [inPlane, machine, State.reset, State.OpMatchesPhase, State.PositionOk, Memory.wf, sentinel,
    CurOp.isDecode, depthOf, modeDC, modePF, Depth.palSize, headerLen]

/-- The invariant in the ENC_PIX phase. -/
theorem encoding_inv : { encoding 0 .encPix 2 1 with outPos := 12 }.Inv := by
  constructor <;> simp [encoding, machine, State.reset, State.OpMatchesPhase, State.PositionOk, Memory.wf, sentinel,
    CurOp.isDecode, depthOf, Depth.perByte, Depth.bits, headerLen, totalPixels]

/-- A machine whose next action is the host's write of `w` to CMD. -/
def issuing (w : Word) : State := { machine with agenda := [.host (.write 0x00 4 w)] }

/-- A row that accepts a word, a word no row accepts though one selects it, and the rows beside ENC. -/
theorem witness_CommandTableRowsSelectDecoding :
    (⟨"PAL_RD", 0x00000005, 0xFFFF00FF, 0xFFFF00F0⟩ : CommandRow) ∈ commandRows ∧
    (⟨"PAL_RD", 0x00000005, 0xFFFF00FF, 0xFFFF00F0⟩ : CommandRow).accepts 0xFF05 = true ∧
    (⟨"ENC", 0x00000003, 0xFFFF000F, 0xFFFFFF00⟩ : CommandRow) ∈ commandRows ∧
    (⟨"ENC", 0x00000003, 0xFFFF000F, 0xFFFFFF00⟩ : CommandRow).accepts 0xF3 = true ∧
    (∀ row ∈ commandRows, row.accepts 0x103 = false) ∧ "PAL_RD" ≠ "ENC" := by decide

theorem witness_ModeByteRowsFollowDepthCode :
    (0x3F : Byte) &&& 0xC0 = 0x00 ∧ (0x40 : Byte) &&& 0xC0 = 0x40 ∧ (0xBF : Byte) &&& 0xC0 = 0x80 ∧
    (0xFF : Byte) &&& 0xC0 = 0xC0 := by decide

theorem witness_AssembledCommandLinesDecode :
    ({ mnemonic := .ENC, dc := 3, ep := 1, ps := 1 } : AsmCommand).wellFormed = true ∧
    ({ mnemonic := .PAL_WR, idx := 255 } : AsmCommand).wellFormed = true := by decide

theorem witness_CmdWriteRunsDecodedCommand :
    (issuing 0x27).agenda = [.host (.write 0x00 4 0x27)] ∧ decode (.command 0x27) = .ok (.palDef 2) :=
  ⟨rfl, rfl⟩

theorem witness_CodecStepRunsModeByte :
    let s : State := { atMode with inFifo := [.byte 0x60], agenda := [.codec, .wait] }
    let t : State := { inDim 11 0xC0 with inFifo := [.byte 1, .eos] }
    (s.busy = true ∧ s.inFifo = [.byte 0x60] ∧ s.agenda = .codec :: [.wait] ∧ s.phase = .hdr ∧ s.inPos = 7 ∧
      decode (.modeByte 0x60) = .ok (.modeD2 true 0)) ∧
    (t.busy = true ∧ t.inFifo = .byte 1 :: [.eos] ∧ (t.agenda = [] ∧ ([] : List Event) = []) ∧ t.phase = .dim ∧
      t.inPos = 11 ∧ decode (.modeByte t.mode) = .ok (.modeBad false 0)) :=
  ⟨⟨rfl, rfl, rfl, rfl, rfl, rfl⟩, ⟨rfl, rfl, ⟨rfl, rfl⟩, rfl, rfl, rfl⟩⟩

/-- A turn of each outcome: a plane byte with a wait to come, and a stuck position. -/
theorem witness_CodecTurnIgnoresLaterActions :
    let s : State := { inPlane 16 with inFifo := [.byte 1], agenda := [.codec, .wait] }
    let t : State := { encoding 0 .encHdr 1 1 with outPos := 12, agenda := [.codec, .wait] }
    s.agenda = .codec :: [.wait] ∧ (∃ u, step { s with agenda := [] } = .next u) ∧
    t.agenda = .codec :: [.wait] ∧ step { t with agenda := [] } = .fault .noRule :=
  ⟨rfl, ⟨_, rfl⟩, rfl, rfl⟩

/-- A reserved bit, and an ENC with a bit in the field it does not use. -/
theorem witness_IllegalWordRaisesIllegalCommand :
    (issuing 0x10003).Idle ∧ (issuing 0x10003).agenda = [.host (.write 0x00 4 0x10003)] ∧
    (∀ row ∈ commandRows, row.accepts 0x10003 = false) ∧ ∀ row ∈ commandRows, row.accepts 0x103 = false :=
  ⟨machine_idle, rfl, by decide, by decide⟩

theorem witness_CommandsForgetTheCommandBefore :
    encode (.quant 3) = .command 0x38 ∧ ∃ t, exec (.quant 3) machine = .next t ∧ t.errKind ≠ .none ∧
    encode (.quant 0) = .command 0x08 ∧ ∃ u, exec (.quant 0) machine = .next u ∧ u.errKind = .none :=
  ⟨rfl, _, rfl, by decide, rfl, _, rfl, rfl⟩

theorem witness_QuantGivesIndexOfOperand :
    encode (.quant 2) = .command 0x28 ∧ machine.Idle ∧ depthOf 2 = some .d8 ∧ depthOf 0 = some .d1 ∧
    encode (.quant 3) = .command 0x38 ∧ (3 : BitVec 2) = 3 :=
  ⟨rfl, machine_idle, rfl, rfl, rfl, rfl⟩

theorem witness_PalRdLooksIndexUp : encode (.palRd 255) = .command 0xFF05 ∧ decoded.busy = false := ⟨rfl, rfl⟩

theorem witness_PalWrWritesOneEntry : encode (.palWr 255) = .command 0xFF06 ∧ machine.busy = false := ⟨rfl, rfl⟩

theorem witness_PalDefLoadsBuiltinPalette :
    encode (.palDef 2) = .command 0x27 ∧ machine.Idle ∧ depthOf 2 = some .d8 ∧
    encode (.palDef 3) = .command 0x37 ∧ (3 : BitVec 2) = 3 :=
  ⟨rfl, machine_idle, rfl, rfl, rfl⟩

theorem witness_PixRdOutsideImageGivesSentinel :
    encode .pixRd = .command 4 ∧ (pixelAt 0 0).busy = false ∧
    (pixelAt 0xFFFFFFFF 0).argX.toInt < 0 ∧ (decoded.width.toNat : Int) ≤ (pixelAt 3 0).argX.toInt ∧
    (pixelAt 0 0x80000000).argY.toInt < 0 ∧ (decoded.height.toNat : Int) ≤ (pixelAt 0 2).argY.toInt := by
  decide +kernel

/-- The three cases of the statement: an index, ShortPlane, out of bounds. -/
theorem witness_PixRdIsClosedFormIndexAt :
    encode .pixRd = .command 4 ∧ (pixelAt 2 1).Idle ∧ depthOf (modeDC (pixelAt 2 1).mode) = some .d1 ∧
    ([0xAC] : List Byte).length = (pixelAt 2 1).planeLen.toNat ∧
    (∀ a, a < ([0xAC] : List Byte).length → (pixelAt 2 1).plane.read a = ([0xAC] : List Byte)[a]?) ∧
    indexAt .d1 3 2 [0xAC] 2 1 = .index 1 ∧ indexAt .d8 2 1 [0xEA] 1 0 = .shortPlane 1 ∧
    indexAt .d1 3 2 [0xAC] 3 0 = .oob := by
  refine ⟨rfl, ⟨rfl, rfl, rfl⟩, rfl, rfl, ?_, by decide, by decide, by decide⟩
  intro a ha
  obtain rfl : a = 0 := by simpa using ha
  rfl

theorem witness_QuantizersInvertBuiltinPalettes :
    (3 : Byte).toNat < 4 ∧ (1 : Byte).toNat < Depth.d1.palSize ∧ (255 : Byte).toNat < Depth.d8.palSize := by decide

theorem witness_DecodeCommandsStartHeaderPhase :
    encode .decCfg = .command 1 ∧ encode .decFull = .command 2 ∧ decoded.busy = false := ⟨rfl, rfl, rfl⟩

theorem witness_ModeByteIsTakenOrReportsMismatch :
    encode (.modeD1 false 0x1F) = .modeByte 0x1F ∧ atMode.busy = true ∧ atMode.phase = .hdr ∧ atMode.inPos = 7 ∧
    atMode.sigMiss = 7 ∧ { atMode with sigMiss := 6 }.sigMiss ≠ 7 ∧ atMode.curOp = .decCfg := by decide +kernel

theorem witness_ModeByteResolvesColorModel :
    encode (.modeBad false 0) = .modeByte 0xC0 ∧ encode (.modeD2 true 0) = .modeByte 0x60 ∧
    encode (.modeD8 false 0) = .modeByte 0x80 ∧ (0xC0 : Byte).extractLsb' 6 2 = 3 ∧
    depthOf ((0x60 : Byte).extractLsb' 6 2) = some .d2 ∧ (0x60 : Byte).getLsbD 5 = true ∧
    depthOf ((0x80 : Byte).extractLsb' 6 2) = some .d8 ∧ (0x80 : Byte).getLsbD 5 = false ∧
    ∀ op m, (resolving op m).busy = true ∧ (resolving op m).phase = .dim ∧ (resolving op m).inPos = 12 ∧
      (resolving op m).mode = m ∧ (resolving op m).curOp = op :=
  ⟨rfl, rfl, rfl, rfl, rfl, rfl, rfl, rfl, fun _ _ => ⟨rfl, rfl, rfl, rfl, rfl⟩⟩

/-- A byte at offset 6, an `Eos`, and an empty IN. -/
theorem witness_SignatureByteRecordsFirstMismatch :
    let s (xs : List InItem) : State := { atMode with inPos := 6, inFifo := xs }
    (∀ xs, (s xs).busy = true ∧ (s xs).phase = .hdr ∧ (s xs).curOp = .decCfg ∧ (s xs).agenda = [] ∧
      (s xs).inFifo = xs) ∧
    (s [.byte 0x58]).inPos.toNat < 7 ∧ (s [.eos]).inPos.toNat < 7 ∧ (s []).inPos.toNat < 7 :=
  ⟨fun _ => ⟨rfl, rfl, rfl, rfl, rfl⟩, by decide, by decide, by decide⟩

theorem witness_DimensionByteFillsDimBuf :
    let s : State := { inDim 10 0 with inFifo := [.byte 1] }
    s.busy = true ∧ s.phase = .dim ∧ 8 ≤ s.inPos.toNat ∧ s.inPos.toNat < 11 ∧ s.inFifo = [.byte 1] ∧ s.agenda = [] :=
  ⟨rfl, rfl, by decide, by decide, rfl, rfl⟩

theorem witness_DimensionOrderIsShared :
    dimBytes .be 0x0102 ++ dimBytes .be 0x00FF = [1, 2, 0, 0xFF] ∧
    dimBytes .le 0x0102 ++ dimBytes .le 0x00FF = [2, 1, 0xFF, 0] := by decide

theorem witness_EosBeforePlaneIsTruncatedInput :
    ({ atMode with inFifo := [.eos] } : State).Inv ∧ atMode.phase = .hdr ∧
    ({ inDim 11 0xC0 with inFifo := [.eos] } : State).Inv ∧ (inDim 11 0xC0).phase = .dim ∧
    ({ inPal .decFull 7 with inFifo := [.eos] } : State).Inv ∧ (inPal .decFull 7).phase = .pal ∧
    atMode.agenda = [] ∧ (inDim 11 0xC0).agenda = [] ∧ (inPal .decFull 7).agenda = [] :=
  ⟨Inv_env atMode_inv rfl, rfl, Inv_env inDim_inv rfl, rfl, Inv_env inPal_inv rfl, rfl, rfl, rfl, rfl⟩

/-- An inner byte of the palette, and the last one under each decode command. -/
theorem witness_PaletteByteFillsEntries :
    let s (op : CurOp) (j : BitVec 64) : State := { inPal op j with inFifo := [.byte 9] }
    (∀ op j, (s op j).busy = true ∧ (s op j).phase = .pal ∧ depthOf (modeDC (s op j).mode) = some .d1 ∧
      (s op j).inFifo = [.byte 9] ∧ (s op j).agenda = [] ∧ (s op j).curOp = op) ∧
    (s .decCfg 2).inPos.toNat = 12 + 2 ∧ 2 + 1 < 4 * Depth.d1.palSize ∧
    (s .decFull 7).inPos.toNat = 12 + 7 ∧ 7 + 1 = 4 * Depth.d1.palSize :=
  ⟨fun _ _ => ⟨rfl, rfl, (by decide : depthOf (modeDC 0x20) = some .d1), rfl, rfl, rfl⟩, rfl, by decide, rfl, rfl⟩

/-- A byte below PLANE_CAP, a byte at it, and an `Eos`. -/
theorem witness_PlaneStepAppendsOverflowsOrFinishes :
    let s (cap : Word) (x : InItem) : State := { inPlane cap with inFifo := [x] }
    (∀ cap x, (s cap x).busy = true ∧ (s cap x).phase = .plane ∧ (s cap x).curOp = .decFull ∧
      (s cap x).agenda = [] ∧ (s cap x).inFifo = [x]) ∧
    (s 1 (.byte 5)).planeLen.toNat ≤ (s 1 (.byte 5)).cfg.planeCap.toNat ∧
    (s 1 (.byte 5)).planeLen ≠ (s 1 (.byte 5)).cfg.planeCap ∧
    (s 0 (.byte 5)).planeLen = (s 0 (.byte 5)).cfg.planeCap :=
  ⟨fun _ _ => ⟨rfl, rfl, rfl, rfl, rfl⟩, by decide, by decide, rfl⟩

theorem witness_DecodeErrorClearsConfiguration :
    let s : State := { inDim 11 0xC0 with inFifo := [.byte 1] }
    s.Inv ∧ s.curOp.isDecode = true ∧ s.agenda = [] ∧ ∃ t, step s = .next t ∧ t.err = true :=
  ⟨Inv_env inDim_inv rfl, rfl, rfl, _, rfl, rfl⟩

theorem witness_EncChecksThenLatchesOperands :
    encode (.enc 3 true true 0) = .command 0xF3 ∧ encode (.enc 2 false false 0) = .command 0x23 ∧
    encode (.enc 0 false false 0x80) = .command 0x8003 ∧ (0x80 : Byte) ≠ 0 ∧ machine.Idle ∧
    (2 : BitVec 2) ≠ 3 ∧ 65535 < (65536 : Word).toNat ∧ (65535 : Word).toNat ≤ 65535 :=
  ⟨rfl, rfl, rfl, by decide, machine_idle, by decide, by decide, by decide⟩

/-- Well-formed instructions, and one that is not. -/
theorem witness_DecodeInvertsEncode :
    (Instr.enc 3 true true 0).wellFormed = true ∧ encode (.enc 3 true true 0) = .command 0xF3 ∧
    decode (.command 0xF3) = .ok (.enc 3 true true 0) ∧ (Instr.enc 0 false false 1).wellFormed = false :=
  ⟨rfl, rfl, rfl, rfl⟩

theorem witness_EncHeaderStepEmitsHeaderByte :
    let s : State := { encoding 0 .encHdr 3 2 with outPos := 11 }
    s.busy = true ∧ s.phase = .encHdr ∧ s.agenda = [] ∧
    (([0x49, 0x4D, 0x52, 0x45, 0x54, 0x52, 0x4F] : List Byte) ++ [s.eDC ++ BitVec.ofBool s.eEP ++ 0#5]
      ++ dimBytes s.cfg.dimOrder s.eW ++ dimBytes s.cfg.dimOrder s.eH)[s.outPos.toNat]? = some 2 :=
  ⟨rfl, rfl, rfl, by decide +kernel⟩

/-- The last palette byte of an 8-bit encode, from the built-in palette and from the palette file. -/
theorem witness_EncPaletteStepEmitsEntryByte :
    let s (ps : Bool) : State := { encoding 2 .encPal 0 0 with eEP := true, ePS := ps, outPos := 12 + 1023 }
    (∀ ps, (s ps).busy = true ∧ (s ps).phase = .encPal ∧ (s ps).agenda = [] ∧
      depthOf (s ps).eDC = some .d8 ∧ (s ps).outPos.toNat = 12 + 1023) ∧
    1023 < 4 * Depth.d8.palSize ∧ (255 : Byte).toNat = 1023 / 4 ∧ (s true).ePS = true ∧ (s false).ePS = false :=
  ⟨fun _ => ⟨rfl, rfl, rfl, rfl, rfl⟩, by decide, by decide, rfl, rfl⟩

/-- Each depth, and for 1 and 2 bits a field that does not fill the byte and one that does. -/
theorem witness_EncPixelStepPacksOneIndex :
    let s (dc : BitVec 2) (n : BitVec 3) : State := { encoding dc .encPix 9 1 with nfill := n, pixFifo := [white] }
    (∀ dc n, (s dc n).busy = true ∧ (s dc n).phase = .encPix ∧ (s dc n).agenda = [] ∧
      (s dc n).pixCnt.toNat < (s dc n).eW.toNat * (s dc n).eH.toNat ∧
      (s dc n).pixFifo = [.pix ⟨0xFFFF, 0xFFFF, 0xFFFF, 0xFFFF⟩]) ∧
    depthOf (s 0 0).eDC = some .d1 ∧ depthOf (s 1 0).eDC = some .d2 ∧ depthOf (s 2 0).eDC = some .d8 ∧
    (s 0 7).nfill.toNat < Depth.d1.perByte ∧ (s 0 6).nfill.toNat < Depth.d1.perByte ∧
    (s 1 3).nfill.toNat < Depth.d2.perByte ∧ (s 1 0).nfill.toNat < Depth.d2.perByte ∧
    (s 2 0).nfill.toNat < Depth.d8.perByte :=
  ⟨fun _ _ => ⟨rfl, rfl, rfl, (by decide : (0 : Word).toNat < (9 : BitVec 16).toNat * (1 : BitVec 16).toNat), rfl⟩,
    rfl, rfl, rfl, by decide, by decide, by decide, by decide, by decide⟩

theorem witness_EncPixelStepFinishesOrTruncates :
    let s (n : Word) (f : BitVec 3) : State := { encoding 0 .encPix 9 1 with pixCnt := n, nfill := f, pixFifo := [.eos] }
    (∀ n f, (s n f).busy = true ∧ (s n f).phase = .encPix ∧ (s n f).curOp = .enc ∧ (s n f).agenda = [] ∧
      (s n f).pixFifo = [.eos]) ∧
    (s 9 1).pixCnt.toNat = (s 9 1).eW.toNat * (s 9 1).eH.toNat ∧ (s 9 1).nfill ≠ 0 ∧ (s 9 0).nfill = 0 ∧
    (s 8 0).pixCnt.toNat < (s 8 0).eW.toNat * (s 8 0).eH.toNat :=
  ⟨fun _ _ => ⟨rfl, rfl, rfl, rfl, rfl⟩, rfl, by decide, rfl, by decide⟩

theorem witness_EncWritesNoDecodeSideState :
    machine.Inv ∧ (∃ t, exec (.enc 0 true true 0) machine = .next t) ∧
    ({ encoding 0 .encPix 2 1 with outPos := 12, pixFifo := [white] } : State).Inv ∧
    ∃ t, step { encoding 0 .encPix 2 1 with outPos := 12, pixFifo := [white] } = .next t :=
  ⟨machine_inv, ⟨_, rfl⟩, Inv_env encoding_inv rfl, _, rfl⟩

theorem witness_HostReadHasNoSideEffect :
    ({ machine with agenda := [.host (.read 0xFC 4)] } : State).agenda = [.host (.read 0xFC 4)] ∧
    0xFC % 4 = 0 ∧ 0xFC < 0x100 := ⟨rfl, by decide, by decide⟩

/-- An ARG register, a read-only register and a reserved offset, while a command runs. -/
theorem witness_HostWriteStoresOnlyArguments :
    let s (off : Nat) : State := { inPlane 16 with agenda := [.host (.write off 4 5)] }
    (∀ off, (s off).agenda = [.host (.write off 4 5)]) ∧
    ∀ off ∈ [4, 0x20, 0x34, 0x50, 0x54, 0xFC], off % 4 = 0 ∧ 4 ≤ off ∧ off < 0x100 :=
  ⟨fun _ => rfl, by decide⟩

theorem witness_FifoActionsKeepOrder :
    let s (a : HostAction) : State := { machine with agenda := [.host a], outFifo := [1, 2] }
    (s (.pushIn .eos)).agenda = [.host (.pushIn .eos)] ∧ (s (.pushPix .eos)).agenda = [.host (.pushPix .eos)] ∧
    (s .popOut).agenda = [.host .popOut] ∧ (s .popOut).outFifo = 1 :: [2] := ⟨rfl, rfl, rfl, rfl⟩

theorem witness_ResetActionAbandonsEverything :
    ({ inPlane 16 with agenda := [.host .reset] } : State).agenda = [.host .reset] := rfl

/-- A broken duty of each kind: a CMD write while busy, a misaligned read, a read of two bytes, a write
past the window; and a kept one. -/
theorem witness_RefusalsAreExactlyBrokenDuties :
    let s (a : HostAction) : State := { inPlane 16 with agenda := [.host a] }
    (s (.write 0x00 4 9)).busy = true ∧ (s (.write 0x00 4 9)).agenda = [.host (.write 0x00 4 9)] ∧
    ¬ (s (.write 0x00 4 9)).DutyKept ∧ ¬ (s (.read 0x02 4)).DutyKept ∧ ¬ (s (.read 0x04 2)).DutyKept ∧
    ¬ (s (.write 0x100 4 0)).DutyKept ∧ machine.DutyKept :=
  ⟨rfl, rfl, fun h => Bool.noConfusion (h.2 rfl), fun h => Bool.noConfusion h, fun h => Bool.noConfusion h,
    fun h => Bool.noConfusion h.1, trivial⟩

/-- A host that breaks a duty of R39 is refused by name. -/
theorem test_bad_access : step { machine with agenda := [.host (.read 0x02 4)] } = .refused .badHostAccess ∧
    step { machine with agenda := [.host (.write 0x100 4 0)] } = .refused .badHostAccess := ⟨rfl, rfl⟩

theorem witness_ReadCommandsFrame :
    machine.Idle ∧ (∃ t, exec (.quant 0) machine = .next t) ∧ (∃ t, exec (.palRd 7) machine = .next t) ∧
    ∃ t, exec .pixRd machine = .next t := ⟨machine_idle, ⟨_, rfl⟩, ⟨_, rfl⟩, _, rfl⟩

theorem witness_PaletteCommandsFrame :
    machine.Idle ∧ (∃ t, exec (.palWr 255) machine = .next t) ∧ (∃ t, exec (.palDef 2) machine = .next t) ∧
    (0 : Fin 256).val ≠ (255 : Byte).toNat ∧ ∀ d, depthOf 3 = some d → d.palSize ≤ (0 : Fin 256).val :=
  ⟨machine_idle, ⟨_, rfl⟩, ⟨_, rfl⟩, by decide, fun _ h => by cases h⟩

theorem witness_StreamCommandsFrame :
    machine.Idle ∧ (∃ t, exec .decCfg machine = .next t) ∧ (∃ t, exec .decFull machine = .next t) ∧
    ∃ t, exec (.enc 0 true false 0) machine = .next t := ⟨machine_idle, ⟨_, rfl⟩, ⟨_, rfl⟩, _, rfl⟩

theorem witness_ModeByteRowsFrame :
    encode (.modeD8 false 0) = .modeByte 0x80 ∧ (∃ t, exec (.modeD8 false 0) atMode = .next t) ∧
    ∃ t, exec (.modeD8 false 0) (resolving .decCfg 0x80) = .next t := ⟨rfl, ⟨_, rfl⟩, _, rfl⟩

theorem witness_EveryStepKeepsInvariant :
    ({ inPlane 16 with inFifo := [.byte 1] } : State).Inv ∧
    ∃ t, step { inPlane 16 with inFifo := [.byte 1] } = .next t := ⟨Inv_env inPlane_inv rfl, _, rfl⟩

theorem witness_KeptDutiesNeverStop : (issuing 4).Inv ∧ (issuing 4).DutyKept :=
  ⟨Inv_env machine_inv rfl, rfl, fun _ => rfl⟩

theorem witness_InstanceParametersAreFixed : ∃ t, step (issuing 4) = .next t := ⟨_, rfl⟩

/-- A codec turn by the empty agenda and one by the agenda. -/
theorem witness_OnlyPlanePhaseWritesPlane :
    let s (ev : List Event) : State := { inPlane 16 with inFifo := [.byte 1], agenda := ev }
    ((s []).Inv ∧ (∃ t, step (s []) = .next t) ∧ ∀ rest, (s []).agenda ≠ .host .reset :: rest) ∧
    ((s [.codec]).Inv ∧ (∃ t, step (s [.codec]) = .next t) ∧ ∀ rest, (s [.codec]).agenda ≠ .host .reset :: rest) :=
  ⟨⟨Inv_env inPlane_inv rfl, ⟨_, rfl⟩, fun _ h => by cases h⟩, Inv_env inPlane_inv rfl, ⟨_, rfl⟩,
    fun _ h => by cases h⟩

theorem witness_PaletteTailIsUnobservable :
    let p : Vector Color8 256 := decoded.palette.set 2 ⟨1, 2, 3, 4⟩
    (∀ k : Fin 256, k.val < decoded.palLen.toNat → p[k] = decoded.palette[k]) ∧ p ≠ decoded.palette := by
  decide +kernel

theorem witness_HungCodecStaysBusyForever : (inPlane 16).Inv ∧ (inPlane 16).Hung :=
  ⟨inPlane_inv, ⟨rfl, .inl ⟨rfl, .inr (.inr (.inr rfl))⟩⟩, rfl⟩

theorem witness_PushCommutesWithDecodeStep :
    let s : State := { inPlane 16 with inFifo := [.byte 1] }
    s.curOp.isDecode = true ∧ s.inFifo ≠ [] ∧ ∃ t, codecStep s = .next t :=
  ⟨rfl, List.cons_ne_nil _ _, _, rfl⟩

/-- The three ends of a DEC_CFG: V29b's stream, V22's, and a stream that stops without an `Eos`. -/
theorem witness_DecCfgRunsAsClosedForm :
    machine.agenda = [] ∧ (∃ u, exec .decCfg machine = .next u) ∧
    (∃ c, decodeConfig .be ((magic ++ [0x1F, 0, 1, 0, 1]).map .byte) = .ok c) ∧
    decodeConfig .be [.byte 0x49, .eos] = .error .truncatedInput 1 .hdr 2 ∧
    decodeConfig .be [.byte 0x49] = .waits := by
  refine ⟨rfl, ⟨_, rfl⟩, ⟨⟨0x1F, 1, 1, .d1, [⟨0, 0, 0, 255⟩, ⟨255, 255, 255, 255⟩], 12⟩, ?_⟩, ?_, ?_⟩ <;>
    decide +kernel

/-- The three ends of a DEC_FULL: V44's stream, V52's, and V44's without its `Eos`. -/
theorem witness_DecFullRunsAsClosedForm :
    machine.agenda = [] ∧ (∃ u, exec .decFull machine = .next u) ∧
    (∃ c, decodeFull .be 16 ((magic ++ [0, 0, 3, 0, 2, 0xAC]).map .byte ++ [.eos]) = .ok (c, [0xAC])) ∧
    decodeFull .be 1 ((magic ++ [0, 0, 1, 0, 1, 0x80, 0x81]).map .byte ++ [.eos])
      = .error .planeOverflow 1 .plane 14 ∧
    decodeFull .be 16 ((magic ++ [0, 0, 3, 0, 2, 0xAC]).map .byte) = .waits := by
  refine ⟨rfl, ⟨_, rfl⟩, ⟨⟨0, 3, 2, .d1, [⟨0, 0, 0, 255⟩, ⟨255, 255, 255, 255⟩], 12⟩, ?_⟩, ?_, ?_⟩ <;>
    decide +kernel

theorem witness_EncRunsAsClosedForm :
    let s : State := { machine with argW := 1, argH := 2, pixFifo := [white, white, .eos] }
    let w : Color16 := ⟨0xFFFF, 0xFFFF, 0xFFFF, 0xFFFF⟩
    s.agenda = [] ∧ s.busy = false ∧ s.argW.toNat ≤ 65535 ∧ s.argH.toNat ≤ 65535 ∧
    [w, w].length = s.argW.toNat * s.argH.toNat ∧ s.pixFifo = [w, w].map .pix ++ [.eos] :=
  ⟨rfl, rfl, by decide, by decide, rfl, rfl⟩

theorem witness_EncodedLength :
    (3 : BitVec 16).toNat * (0 : BitVec 16).toNat ≤ ([] : List Color16).length ∧
    (1 : BitVec 16).toNat * (1 : BitVec 16).toNat ≤ [(⟨0, 0, 0, 0⟩ : Color16)].length := by decide

theorem witness_UnpackInvertsPack : [(⟨1, 2, 3, 4⟩ : Color8)][0]? = some ⟨1, 2, 3, 4⟩ := rfl

/-- An image of one pixel, and one of none. -/
theorem witness_EncodedImageDecodesBack :
    let px : List Color16 := [⟨0, 0, 0, 0xFFFF⟩]
    px.length = (1 : BitVec 16).toNat * (1 : BitVec 16).toNat ∧
    ((1 : BitVec 16).toNat * (1 : BitVec 16).toNat * Depth.d8.bits + 7) / 8 ≤ 1 ∧
    px[0]? = some ⟨0, 0, 0, 0xFFFF⟩ ∧
    ([] : List Color16).length = (0 : BitVec 16).toNat * (5 : BitVec 16).toNat ∧
    ((0 : BitVec 16).toNat * (5 : BitVec 16).toNat * Depth.d1.bits + 7) / 8 ≤ 0 := by decide

end Sys2Proof.Tests
end

section
/-! PROOFS. The color model (40_color_model.md): truncation, the quantizers, QUANT and PAL_RD. -/

namespace Sys2Proof.Machine

/-! ### Truncation of a color -/

/-- The truncated channel in bits [k+15:k] of an operand word is its bits [k+15:k+8] (R79, R100). -/
theorem channelAsByte_extractLsb' (w : Word) (k : Nat) :
    channelAsByte (w.extractLsb' k 16) = w.extractLsb' (k + 8) 8 := by
  ext i hi
  have : 8 + i < 16 := by omega
  simp [channelAsByte, this, Nat.add_assoc]

/-- Truncation divides by 256 and drops the rest: there is no rounding (R100). -/
theorem channelAsByte_toNat (v : BitVec 16) : (channelAsByte v).toNat = v.toNat / 256 := by
  have := v.isLt
  simp [channelAsByte, Nat.shiftRight_eq_div_pow]
  omega

/-- The operand color truncated: the top byte of each half of ARG_RG and ARG_BA (R79, R101). -/
theorem colorAsBytes_operandColor (s : State) : colorAsBytes (operandColor s) =
    ⟨s.argRG.extractLsb' 8 8, s.argRG.extractLsb' 24 8, s.argBA.extractLsb' 8 8, s.argBA.extractLsb' 24 8⟩ := by
  simp only [colorAsBytes, operandColor, channelAsByte_extractLsb', Nat.reduceAdd]

/-! ### The quantizers -/

/-- A channel is at least 128 exactly when its top bit is set. -/
theorem msb_iff_le_toNat (x : Byte) : x.msb = true ↔ 128 ≤ x.toNat := by
  simp [BitVec.msb_eq_decide]

/-- The top two bits of a channel as a number. -/
theorem shiftRight_six (x : Byte) : x >>> 6 = (x.extractLsb' 6 2).setWidth 8 := by
  apply BitVec.eq_of_toNat_eq
  have := x.isLt
  simp [Nat.shiftRight_eq_div_pow]
  omega

/-- Four 2-bit fields, each shifted to its place, are the fields side by side. -/
theorem or_shifted_fields (a b g r : BitVec 2) :
    r.setWidth 8 ||| (g.setWidth 8 <<< 2) ||| (b.setWidth 8 <<< 4) ||| (a.setWidth 8 <<< 6)
      = a ++ b ++ g ++ r := by
  revert a b g r; decide

/-- The OneBit quantizer by the channels' top bits (R102). -/
theorem quantize_d1 (c : Color8) :
    quantize .d1 c = if (c.r.msb || c.g.msb || c.b.msb) && c.a.msb then 1 else 0 := by
  simp only [quantize, q1, ← msb_iff_le_toNat, BitVec.msb_or, Bool.and_eq_true]

/-- The TwoBit quantizer by bit fields (R103). -/
theorem quantize_d2 (c : Color8) : quantize .d2 c =
    if c.a.msb then ((c.r ||| c.g ||| c.b).extractLsb' 6 2).setWidth 8 else 0 := by
  simp only [quantize, q2, ← not_le, ← msb_iff_le_toNat, ite_not, shiftRight_six]

/-- The EightBit quantizer by bit fields (R104). -/
theorem quantize_d8 (c : Color8) : quantize .d8 c =
    c.a.extractLsb' 6 2 ++ c.b.extractLsb' 6 2 ++ c.g.extractLsb' 6 2 ++ c.r.extractLsb' 6 2 := by
  simp only [quantize, q8, shiftRight_six, or_shifted_fields]

/-! ### QUANT and PAL_RD after acceptance -/

/-- The depth code 11 has no depth (R74). -/
theorem quantBody_three (s : State) : quantBody 3 s = raise .unsupportedBitDepth 3 s := rfl

/-- QUANT at a known depth ends with the index of the operand color (R108). -/
theorem quantBody_known {dc : BitVec 2} {d : Depth} (h : depthOf dc = some d) (s : State) :
    quantBody dc s = complete (setIndex (quantize d (colorAsBytes (operandColor s))) s) := by
  simp [quantBody, h]

/-- A palette lookup whose PAL_MISS was clear sets it exactly past the palette (R106, R109). -/
theorem setConverted_eq {s : State} (h : s.palMiss = false) (i : Byte) : setConverted i s = { s with
    resColor := if i.toNat < s.palLen.toNat then s.palette[i.toNat]'i.isLt else ⟨0, 0, 0, 0⟩
    palMiss := decide (s.palLen.toNat ≤ i.toNat) } := by
  by_cases hi : i.toNat < s.palLen.toNat
  · simp [setConverted, convert, hi, h]
  · simp [setConverted, convert, hi, sentinel, not_lt.1 hi]

end Sys2Proof.Machine

namespace Sys2Proof.Proofs

open Sys2Proof.Machine

/-- Settles O10: the depth code selects the outcome; the operand is truncated by `colorAsBytes`. -/
theorem quantGivesIndexOfOperand : Obligations.QuantGivesIndexOfOperand := by
  intro s dc w hw hs
  cases hw
  have hb : s.busy = false := hs.1
  refine ⟨fun d hd => ?_, fun h3 => ?_⟩
  · rw [exec_quant, issue_idle hb, quantBody_known hd, ← colorAsBytes_operandColor]
    rfl
  · rw [exec_quant, issue_idle hb, h3, quantBody_three, raise_accept hs]

/-- Settles O11: acceptance clears PAL_MISS, so the lookup decides it. -/
theorem palRdLooksIndexUp : Obligations.PalRdLooksIndexUp := by
  intro s idx w hw hb
  cases hw
  rw [exec_palRd, issue_idle hb, palRdBody, setConverted_eq rfl]
  rfl

/-- Settles O17: truncation, then one lemma for each quantizer. -/
theorem colorModelFollowsItsRules : Obligations.ColorModelFollowsItsRules :=
  ⟨channelAsByte_toNat, quantize_d1, quantize_d2, quantize_d8⟩

end Sys2Proof.Proofs
end

section
/-! PROOFS. The decode commands and the mode byte (41_header_codec.md): the acceptance of a decode. -/

namespace Sys2Proof.Machine

/-- A decode overwrites what `idleAfter` sets beyond acceptance: CUR_OP, BUSY and PHASE (R132, R227). -/
theorem startDecode_accept (op : CurOp) (w : Word) (s : State) :
    startDecode op (accept w s) = startDecode op (idleAfter w s) := rfl

end Sys2Proof.Machine

namespace Sys2Proof.Proofs

open Sys2Proof.Machine

/-- Settles O19: both commands are accepted when idle and start the same phase; only CUR_OP differs. -/
theorem decodeCommandsStartHeaderPhase : Obligations.DecodeCommandsStartHeaderPhase := by
  rintro s i op w (⟨rfl, rfl⟩ | ⟨rfl, rfl⟩) hw hb <;> cases hw
  · rw [exec_decCfg, issue_idle hb, startDecode_accept]
    rfl
  · rw [exec_decFull, issue_idle hb, startDecode_accept]
    rfl

end Sys2Proof.Proofs
end

section
/-! PROOFS. The palette codec (42_palette_codec.md): PAL_WR, PAL_DEF and the PAL phase of a decode. -/

namespace Sys2Proof.Machine

/-! ### PAL_WR and PAL_DEF after acceptance -/

/-- Writing one palette entry leaves the 255 others (20_memory.md R52). -/
theorem setEntry_getElem_palette (i : Byte) (c : Color8) (s : State) (k : Fin 256) :
    (setEntry i c s).palette[k] = if k.val = i.toNat then c else s.palette[k] := by
  simp [setEntry, Vector.getElem_set, eq_comm (a := k.val)]

/-- The built-in palette fills the entries below N and keeps the others (R151, R158). -/
theorem builtinInto_getElem (d : Depth) (p : Vector Color8 256) (k : Fin 256) :
    (builtinInto d p)[k] = if k.val < d.palSize then rom d (BitVec.ofNat 8 k.val) else p[k] := by
  simp [builtinInto]

/-- The depth code 11 has no built-in palette (R158). -/
theorem palDefBody_three (s : State) : palDefBody 3 s = raise .unsupportedBitDepth 3 s := rfl

/-- PAL_DEF at a known depth ends with its built-in palette loaded (R158). -/
theorem palDefBody_known {dc : BitVec 2} {d : Depth} (h : depthOf dc = some d) (s : State) :
    palDefBody dc s = complete (loadBuiltin d s) := by
  simp [palDefBody, h]

/-! ### One palette byte -/

/-- A palette byte moves IN_POS and may write EB and the palette file, and nothing else (R152). -/
theorem takePalByte_frame (j : Nat) (b : Byte) (s : State) : takePalByte j b s = { s with
    inPos := s.inPos + 1, eb := (takePalByte j b s).eb, palette := (takePalByte j b s).palette } := by
  unfold takePalByte
  split <;> rfl

/-- One of the first three bytes of an entry goes to its place in EB (R152). -/
theorem takePalByte_getElem_eb (j : Nat) (b : Byte) (s : State) (k : Fin 3) :
    (takePalByte j b s).eb[k] = if j % 4 = k.val then b else s.eb[k] := by
  unfold takePalByte
  split
  · simp [Vector.getElem_setIfInBounds]
  · exact (if_neg (by omega)).symm

/-- The fourth byte of an entry writes the color of EB and itself to the entry (R152). -/
theorem takePalByte_getElem_palette (j : Nat) (b : Byte) (s : State) (k : Fin 256) :
    (takePalByte j b s).palette[k] =
      if j % 4 = 3 ∧ k.val = j / 4 then ⟨s.eb[0], s.eb[1], s.eb[2], b⟩ else s.palette[k] := by
  unfold takePalByte
  split
  · exact (if_neg (by omega)).symm
  · next h =>
    have h3 : j % 4 = 3 := by omega
    simp [h3, colorFromBytes, Vector.getElem_setIfInBounds, eq_comm (a := k.val)]

/-! ### The end of the palette -/

/-- DEC_CFG completes when its configuration is done (R140). -/
theorem cfgDone_decCfg {s : State} (h : s.curOp = .decCfg) :
    cfgDone s = complete { s with cfgValid := true } := by
  simp [cfgDone, h]

/-- DEC_FULL enters the PLANE phase when its configuration is done (R140). -/
theorem cfgDone_decFull {s : State} (h : s.curOp = .decFull) : cfgDone s = { s with phase := .plane } := by
  simp [cfgDone, h]

/-- The PAL step at byte j of the palette: the last byte also ends the configuration (R152, R154). -/
theorem palStep_byte {s : State} {d : Depth} {b : Byte} {rest : List InItem} {j : Nat}
    (hd : depthOf (modeDC s.mode) = some d) (hpos : s.inPos.toNat = 12 + j) (hj : j < 4 * d.palSize)
    (hf : s.inFifo = .byte b :: rest) :
    palStep s = .next (
      if j + 1 = 4 * d.palSize then
        cfgDone { takePalByte j b { s with inFifo := rest } with palLen := BitVec.ofNat 9 d.palSize }
      else takePalByte j b { s with inFifo := rest }) := by
  have hsub : s.inPos.toNat - 12 = j := by omega
  have hin : ¬ (s.inPos.toNat < 12 ∨ 4 * d.palSize ≤ j) := by omega
  simp only [palStep, hd, hsub, if_neg hin, hf]
  split <;> rfl

end Sys2Proof.Machine

namespace Sys2Proof.Proofs

open Sys2Proof.Machine

/-- Settles O12: the entry is the truncated operand color; acceptance and completion leave the rest. -/
theorem palWrWritesOneEntry : Obligations.PalWrWritesOneEntry := by
  intro s idx w hw hb
  cases hw
  rw [exec_palWr, issue_idle hb, palWrBody]
  refine ⟨_, rfl, rfl, fun k => ?_⟩
  rw [← colorAsBytes_operandColor]
  exact setEntry_getElem_palette idx _ _ k

/-- Settles O13: the depth code selects the outcome. -/
theorem palDefLoadsBuiltinPalette : Obligations.PalDefLoadsBuiltinPalette := by
  intro s dc w hw hs
  cases hw
  rw [exec_palDef, issue_idle hs.1]
  refine ⟨fun d hd => ?_, fun h3 => ?_⟩
  · rw [palDefBody_known hd]
    exact ⟨_, rfl, rfl, builtinInto_getElem d s.palette⟩
  · rw [h3, palDefBody_three, raise_accept hs]

/-- Settles O26: what the byte does to EB and the palette is `takePalByte`'s, whether or not it is the
last one; the last one adds `cfgDone`, which DEC_CFG and DEC_FULL leave in different phases. -/
theorem paletteByteFillsEntries : Obligations.PaletteByteFillsEntries := by
  intro s d b rest j hb hp hd hpos hj hf ha hop
  have hstep : step s = palStep s := by rw [step_codec ha, codecStep, if_pos hb, hp]
  have heb := takePalByte_getElem_eb j b { s with inFifo := rest }
  have hpal := takePalByte_getElem_palette j b { s with inFifo := rest }
  rw [hstep, palStep_byte hd hpos hj hf, takePalByte_frame]
  by_cases hlast : j + 1 = 4 * d.palSize
  · rw [if_pos hlast]
    have hmore : ¬ j + 1 < 4 * d.palSize := by omega
    rcases hop with hop | hop
    · have hfull : s.curOp ≠ .decFull := by simp [hop]
      exact ⟨_, congrArg _ (cfgDone_decCfg hop), rfl, heb, hpal, (absurd · hmore),
        fun _ => ⟨rfl, fun _ => ⟨rfl, rfl, rfl, rfl⟩, (absurd · hfull)⟩⟩
    · have hcfg : s.curOp ≠ .decCfg := by simp [hop]
      exact ⟨_, congrArg _ (cfgDone_decFull hop), rfl, heb, hpal, (absurd · hmore),
        fun _ => ⟨rfl, (absurd · hcfg), fun _ => ⟨rfl, hop, hb, rfl⟩⟩⟩
  · rw [if_neg hlast]
    exact ⟨_, rfl, rfl, heb, hpal, fun _ => ⟨rfl, rfl, rfl, hb, hp⟩, (absurd · hlast)⟩

end Sys2Proof.Proofs
end

section
/-! PROOFS. The pixel plane (43_pixel_plane.md): PIX_RD outside the image, the bit fields of a plane
byte, and the PLANE phase of a decode. -/

namespace Sys2Proof.Machine

/-! ### PIX_RD outside the image -/

/-- A coordinate past one of the four edges is not in bounds (R174). -/
theorem inBounds_of_outside {s : State} {x y : Int}
    (h : x < 0 ∨ (s.width.toNat : Int) ≤ x ∨ y < 0 ∨ (s.height.toNat : Int) ≤ y) :
    inBounds s x y = false :=
  decide_eq_false (by omega)

/-- Out of bounds PIX_RD reads neither the plane nor the mode (R173). -/
theorem pixRdBody_outside {s : State} (h : inBounds s (coordX s) (coordY s) = false) :
    pixRdBody s = .next (pixRdOutside s) := by
  simp [pixRdBody, h]

/-! ### The bit fields of a plane byte -/

/-- The bit at an MSB-first position of a byte, by its weight (R55). -/
theorem getMsbD_eq_getLsbD_of_lt (b : Byte) {k : Nat} (h : k < 8) : b.getMsbD k = b.getLsbD (7 - k) := by
  simp [BitVec.getMsbD_eq_getLsbD, h]

/-- The lowest bit of a shifted byte as a number. -/
theorem shiftRight_and_one (b : Byte) (n : Nat) :
    (b >>> n) &&& 1 = (BitVec.ofBool (b.getLsbD n)).setWidth 8 := by
  simpa using BitVec.and_one_eq_setWidth_ofBool_getLsbD (x := b >>> n)

/-- The lowest two bits of a shifted byte as a number. -/
theorem shiftRight_and_three (b : Byte) (n : Nat) :
    (b >>> n) &&& 3 = (BitVec.ofBool (b.getLsbD (n + 1)) ++ BitVec.ofBool (b.getLsbD n)).setWidth 8 := by
  have hlow (c : Byte) : c &&& 3 = (BitVec.ofBool (c.getLsbD 1) ++ BitVec.ofBool (c.getLsbD 0)).setWidth 8 := by
    revert c; decide
  simpa using hlow (b >>> n)

/-- The 1-bit index is the bit at position `p % 8` from the most significant (R176). -/
theorem unpackIndex_d1 (p : Nat) (b : Byte) :
    unpackIndex .d1 p b = (BitVec.ofBool (b.getMsbD (p % 8))).setWidth 8 := by
  rw [getMsbD_eq_getLsbD_of_lt b (by omega)]
  exact shiftRight_and_one b (7 - p % 8)

/-- The 2-bit index is the two bits from position `p % 4 * 2` counted from the most significant (R177). -/
theorem unpackIndex_d2 (p : Nat) (b : Byte) :
    unpackIndex .d2 p b =
      (BitVec.ofBool (b.getMsbD (p % 4 * 2)) ++ BitVec.ofBool (b.getMsbD (p % 4 * 2 + 1))).setWidth 8 := by
  have hfst : 7 - p % 4 * 2 = 6 - p % 4 * 2 + 1 := by omega
  have hsnd : 7 - (p % 4 * 2 + 1) = 6 - p % 4 * 2 := by omega
  rw [getMsbD_eq_getLsbD_of_lt b (by omega), getMsbD_eq_getLsbD_of_lt b (by omega), hfst, hsnd]
  exact shiftRight_and_three b (6 - p % 4 * 2)

/-! ### The PLANE step -/

/-- In the PLANE phase the codec's turn is the PLANE step (R20, R170). -/
theorem step_plane {s : State} (ha : s.agenda = []) (hb : s.busy = true) (hp : s.phase = .plane) :
    step s = planeStep s := by
  rw [step_codec ha, codecStep, if_pos hb, hp]

/-- A plane byte below the capacity is stored at address PLANE_LEN (R170). -/
theorem planeStep_byte_below {s : State} {b : Byte} {rest : List InItem} (hf : s.inFifo = .byte b :: rest)
    (hlt : s.planeLen.toNat < s.cfg.planeCap.toNat) :
    planeStep s = .next { s with
      inFifo := rest, inPos := s.inPos + 1, planeLen := s.planeLen + 1
      plane := s.plane.write s.planeLen.toNat b } := by
  have hne : s.planeLen ≠ s.cfg.planeCap := fun he => absurd (congrArg BitVec.toNat he) hlt.ne
  simp [planeStep, hf, hne, memWrite_below, hlt]

/-- A byte at the capacity is consumed and not stored (R171). -/
theorem planeStep_byte_full {s : State} {b : Byte} {rest : List InItem} (hf : s.inFifo = .byte b :: rest)
    (hcap : s.planeLen = s.cfg.planeCap) :
    planeStep s = .next (raise .planeOverflow s.cfg.planeCap
      { s with inFifo := rest, inPos := s.inPos + 1 }) := by
  simp [planeStep, hf, hcap]

/-- The `Eos` ends the plane (R172). -/
theorem planeStep_eos {s : State} {rest : List InItem} (hf : s.inFifo = .eos :: rest) :
    planeStep s = .next (planeFinish { s with inFifo := rest }) := by
  simp [planeStep, hf]

end Sys2Proof.Machine

namespace Sys2Proof.Proofs

open Sys2Proof.Machine

/-- Settles O14: acceptance keeps the coordinates and the dimensions, and leaves the sentinel in place. -/
theorem pixRdOutsideImageGivesSentinel : Obligations.PixRdOutsideImageGivesSentinel := by
  intro s w hw hb hout
  cases hw
  have hin : inBounds (accept (commandWord 0x4 0 false false 0) s) (coordX s) (coordY s) = false :=
    inBounds_of_outside hout
  rw [exec_pixRd, issue_idle hb, pixRdBody_outside hin]
  rfl

/-- Settles O16: the byte addresses are the definition's; one lemma for each bit field. -/
theorem unpackedFieldsAreMsbFirst : Obligations.UnpackedFieldsAreMsbFirst :=
  fun p b => ⟨⟨rfl, unpackIndex_d1 p b⟩, ⟨rfl, unpackIndex_d2 p b⟩, rfl, rfl⟩

/-- Settles O27: one lemma for each item; PLANE_LEN, at most PLANE_CAP, is below it where it differs. -/
theorem planeStepAppendsOverflowsOrFinishes : Obligations.PlaneStepAppendsOverflowsOrFinishes := by
  intro s rest hb hp hop hle ha
  rw [step_plane ha hb hp]
  refine ⟨fun b hf hne => ?_, fun b hf hcap => ?_, fun hf => planeStep_eos hf⟩
  · have hlt : s.planeLen.toNat < s.cfg.planeCap.toNat :=
      lt_of_le_of_ne hle fun he => hne (BitVec.eq_of_toNat_eq he)
    exact ⟨_, planeStep_byte_below hf hlt, rfl, Memory.read_write_same .., fun a =>
      Memory.read_write_other s.plane _ a b⟩
  · have hdec : s.curOp.isDecode = true := by rw [hop]; rfl
    rw [planeStep_byte_full hf hcap]
    exact congrArg _ (raise_decoding hdec)

end Sys2Proof.Proofs
end

section
/-! PROOFS. The encoder (44_encoder.md): the dimension bytes it shares with the decoder, the steps of its
three phases, and that it writes no decode-side state. -/

namespace Sys2Proof.Machine

/-! ### The header -/

/-- The two bytes of a dimension, high byte first, give it back (R78, R194). -/
theorem dim16_extractLsb' (v : BitVec 16) : dim16 (v.extractLsb' 8 8) (v.extractLsb' 0 8) = v :=
  (BitVec.extractLsb'_append_extractLsb'_eq_extractLsb' rfl).trans BitVec.extractLsb'_eq_self

/-- The emitted mode byte by its fields (R193). -/
theorem encModeByte_eq_append (dc : BitVec 2) (ep : Bool) :
    encModeByte dc ep = dc ++ BitVec.ofBool ep ++ 0#5 := by
  revert dc ep; decide

/-- In the ENC_HDR phase the codec's turn is the ENC_HDR step (R20, R195). -/
theorem step_encHdr {s : State} (ha : s.agenda = []) (hb : s.busy = true) (hp : s.phase = .encHdr) :
    step s = encHdrStep s := by
  rw [step_codec ha, codecStep, if_pos hb, hp]

/-- The ENC_HDR step emits a header byte; the one at offset 11 is the last (R195). -/
theorem encHdrStep_emit {s : State} {b : Byte}
    (h : (headerBytes s.cfg.dimOrder s.eDC s.eEP s.eW s.eH)[s.outPos.toNat]? = some b) :
    encHdrStep s = .next { outWrite b s with
      phase := if s.outPos.toNat = 11 then (if s.eEP then .encPal else .encPix) else s.phase } := by
  have hlast : s.outPos + 1 = 12 ↔ s.outPos.toNat = 11 := by bv_omega
  simp only [encHdrStep, h, outWrite_outPos, hlast]
  split <;> rfl

/-! ### The palette -/

/-- The bytes of a color in the order R196 emits them. -/
theorem channelOf_eq_getD (c : Color8) {k : Nat} (h : k < 4) :
    channelOf c k = [c.r, c.g, c.b, c.a].getD k 0 := by
  interval_cases k <;> rfl

/-- In the ENC_PAL phase the codec's turn is the ENC_PAL step (R20, R196). -/
theorem step_encPal {s : State} (ha : s.agenda = []) (hb : s.busy = true) (hp : s.phase = .encPal) :
    step s = encPalStep s := by
  rw [step_codec ha, codecStep, if_pos hb, hp]

/-- The ENC_PAL step emits byte j of the palette; the one at `4N - 1` is the last (R196). -/
theorem encPalStep_emit {s : State} {d : Depth} {j : Nat} (hd : depthOf s.eDC = some d)
    (hpos : s.outPos.toNat = 12 + j) (hj : j < 4 * d.palSize) :
    encPalStep s = .next {
      outWrite (channelOf (emittedEntry d s (BitVec.ofNat 8 (j / 4))) (j % 4)) s with
      phase := if j + 1 = 4 * d.palSize then .encPix else s.phase } := by
  have hsub : s.outPos.toNat - 12 = j := by omega
  have hin : ¬ (s.outPos.toNat < 12 ∨ 4 * d.palSize ≤ j) := by omega
  simp only [encPalStep, hd, hsub, if_neg hin]
  split <;> rfl

/-! ### The pixels -/

/-- Truncation keeps the top byte of a channel (R100). -/
theorem channelAsByte_eq_extractLsb' (v : BitVec 16) : channelAsByte v = v.extractLsb' 8 8 := by
  ext i hi
  simp [channelAsByte, show 8 + i < 16 by omega]

/-- A field that fills the byte is emitted with it, and the next byte starts at 0 (R197, R198). -/
theorem packField_full {f : Byte} {p : Nat} {s : State} (h : s.nfill.toNat + 1 = p) :
    packField f p s = { s with
      outFifo := s.outFifo ++ [s.acc ||| f], outPos := s.outPos + 1, acc := 0, nfill := 0 } :=
  if_pos h

/-- A field that leaves room in the byte only goes to ACC (R197, R198). -/
theorem packField_partial {f : Byte} {p : Nat} {s : State} (h : s.nfill.toNat + 1 ≠ p) :
    packField f p s = { s with acc := s.acc ||| f, nfill := s.nfill + 1 } :=
  if_neg h

/-- In the ENC_PIX phase the codec's turn is the ENC_PIX step (R20, R200). -/
theorem step_encPix {s : State} (ha : s.agenda = []) (hb : s.busy = true) (hp : s.phase = .encPix) :
    step s = encPixStep s := by
  rw [step_codec ha, codecStep, if_pos hb, hp]

/-- A pixel is consumed, counted and its index packed (R197 to R200). -/
theorem encPixStep_pix {s : State} {d : Depth} {c : Color16} {rest : List PixItem}
    (hd : depthOf s.eDC = some d) (hlt : s.pixCnt.toNat < totalPixels s) (hf : s.pixFifo = .pix c :: rest)
    (hn : s.nfill.toNat < d.perByte) :
    encPixStep s = .next { packIndex d (quantize d (colorAsBytes c)) { s with pixFifo := rest } with
      pixCnt := s.pixCnt + 1 } := by
  simp only [encPixStep, if_neg hlt.ne, if_neg hlt.not_gt, hf, hd, if_neg hn.not_ge]

/-- An `Eos` before the last pixel ends ENC with TruncatedInput (R201). -/
theorem encPixStep_eos {s : State} {rest : List PixItem} (hlt : s.pixCnt.toNat < totalPixels s)
    (hf : s.pixFifo = .eos :: rest) :
    encPixStep s = .next (raise .truncatedInput s.pixCnt { s with pixFifo := rest }) := by
  simp only [encPixStep, if_neg hlt.ne, if_neg hlt.not_gt, hf]

/-- With every pixel consumed ENC ends, whatever PIX holds (R200). -/
theorem encPixStep_finish {s : State} (h : s.pixCnt.toNat = totalPixels s) :
    encPixStep s = .next (finishEncode s) :=
  if_pos h

/-! ### The decode side -/

/-- What leaves the decode side alone twice leaves it alone. -/
theorem SameDecodeSide.trans {s t u : State} (hst : SameDecodeSide s t) (htu : SameDecodeSide t u) :
    SameDecodeSide s u := by
  simp_all [SameDecodeSide]

/-- Acceptance leaves the decode side alone (R227). -/
theorem accept_sameDecodeSide (w : Word) (s : State) : SameDecodeSide s (accept w s) := by
  simp [SameDecodeSide]

/-- An error with no decode running clears no configuration (R221, R224). -/
theorem raise_sameDecodeSide {kind : ErrKind} {info : Word} {s : State} (h : s.curOp.isDecode = false) :
    SameDecodeSide s (raise kind info s) := by
  rw [raise_not_decoding h]
  simp [SameDecodeSide]

/-- The checks and latches of an ENC leave the decode side alone (R190, R191). -/
theorem encBody_sameDecodeSide (dc : BitVec 2) (ep ps : Bool) {s : State} (h : s.curOp.isDecode = false) :
    SameDecodeSide s (encBody dc ep ps s) := by
  have hclear : SameDecodeSide s (clearCounts s) := by simp [SameDecodeSide]
  unfold encBody
  split
  · exact hclear.trans (raise_sameDecodeSide h)
  · split
    · exact hclear.trans (raise_sameDecodeSide h)
    · simp [SameDecodeSide]

/-- Packing an index leaves the decode side alone, whether or not it fills a byte (R197 to R199). -/
theorem packIndex_sameDecodeSide (d : Depth) (q : Byte) (s : State) :
    SameDecodeSide s (packIndex d q s) := by
  have hfield (f : Byte) (p : Nat) : SameDecodeSide s (packField f p s) := by
    by_cases h : s.nfill.toNat + 1 = p
    · simp [packField_full h, SameDecodeSide]
    · simp [packField_partial h, SameDecodeSide]
  cases d with
  | d1 => exact hfield _ _
  | d2 => exact hfield _ _
  | d8 => simp [packIndex, SameDecodeSide]

/-- The ENC_HDR step leaves the decode side alone (R205). -/
theorem encHdrStep_sameDecodeSide {s t : State} (h : encHdrStep s = .next t) : SameDecodeSide s t := by
  obtain ⟨b, -, ⟨-, rfl⟩ | ⟨-, rfl⟩⟩ := encHdrStep_cases h <;> simp [SameDecodeSide]

/-- The ENC_PAL step leaves the decode side alone; it only reads the palette file (R196, R205). -/
theorem encPalStep_sameDecodeSide {s t : State} (h : encPalStep s = .next t) : SameDecodeSide s t := by
  obtain ⟨d, -, -, -, u, rfl, ⟨-, rfl⟩ | ⟨-, rfl⟩⟩ := encPalStep_cases h <;> simp [SameDecodeSide]

/-- The end of ENC leaves the decode side alone, with a last byte to flush or without (R200, R205). -/
theorem finishEncode_sameDecodeSide (s : State) : SameDecodeSide s (finishEncode s) := by
  unfold finishEncode
  split <;> simp [SameDecodeSide]

/-- The ENC_PIX step of a running ENC leaves the decode side alone (R205). -/
theorem encPixStep_sameDecodeSide {s t : State} (hop : s.curOp = .enc) (h : encPixStep s = .next t) :
    SameDecodeSide s t := by
  have hpop (rest : List PixItem) : SameDecodeSide s { s with pixFifo := rest } := by simp [SameDecodeSide]
  rcases encPixStep_cases h with
    ⟨-, rfl⟩ | ⟨-, ⟨-, rfl⟩ | ⟨rest, -, rfl⟩ | ⟨c, rest, d, -, -, -, rfl⟩⟩
  · exact finishEncode_sameDecodeSide s
  · simp [SameDecodeSide]
  · exact (hpop rest).trans (raise_sameDecodeSide (by rw [hop]; rfl))
  · exact (hpop rest).trans (packIndex_sameDecodeSide d _ _)

/-- The codec's turn while an ENC runs leaves the decode side alone: R24 leaves it the three ENC phases. -/
theorem codecStep_sameDecodeSide {s t : State} (hmatch : s.OpMatchesPhase) (hop : s.curOp = .enc)
    (h : codecStep s = .next t) : SameDecodeSide s t := by
  have hphase : s.phase = .encHdr ∨ s.phase = .encPal ∨ s.phase = .encPix := by
    cases hp : s.phase <;> simp [State.OpMatchesPhase, hp, hop] at hmatch ⊢
  rcases codecStep_cases h with ⟨-, rfl⟩ |
    ⟨-, ⟨hp, -⟩ | ⟨hp, -⟩ | ⟨hp, -⟩ | ⟨hp, -⟩ | ⟨-, ht⟩ | ⟨-, ht⟩ | ⟨-, ht⟩⟩
  · simp [SameDecodeSide]
  -- the four phases of a decode
  iterate 4 · simp [hp] at hphase
  · exact encHdrStep_sameDecodeSide ht
  · exact encPalStep_sameDecodeSide ht
  · exact encPixStep_sameDecodeSide hop ht

end Sys2Proof.Machine

namespace Sys2Proof.Proofs

open Sys2Proof.Machine

/-- Settles O24: each order is its definition; the bytes of a dimension joined in either order are it. -/
theorem dimensionOrderIsShared : Obligations.DimensionOrderIsShared := by
  refine ⟨fun d => ⟨rfl, rfl, rfl, rfl⟩, fun v => ⟨rfl, rfl⟩, fun o w h b0 b1 b2 b3 hbytes => ?_⟩
  cases o <;> cases hbytes <;> exact ⟨dim16_extractLsb' w, dim16_extractLsb' h⟩

/-- Settles O30: the bytes of the statement are `headerBytes`, its mode byte by its fields. -/
theorem encHeaderStepEmitsHeaderByte : Obligations.EncHeaderStepEmitsHeaderByte := by
  intro s b hb hp ha hbyte
  rw [← encModeByte_eq_append] at hbyte
  rw [step_encHdr ha hb hp, encHdrStep_emit hbyte, hp]
  rfl

/-- Settles O31: entry `j / 4` fits a byte, so `k` is the entry the step reads, from either source. -/
theorem encPaletteStepEmitsEntryByte : Obligations.EncPaletteStepEmitsEntryByte := by
  intro s d j k c hb hp ha hd hpos hj hk hc
  have hentry : emittedEntry d s (BitVec.ofNat 8 (j / 4)) = c := by
    rw [← hk, BitVec.ofNat_toNat, BitVec.setWidth_eq, hc]
    rfl
  rw [step_encPal ha hb hp, encPalStep_emit hd hpos hj, hentry, channelOf_eq_getD c (by omega), hp]
  rfl

/-- Settles O32: at the last field of a byte the shift is 0 and the byte is emitted. -/
theorem encPixelStepPacksOneIndex : Obligations.EncPixelStepPacksOneIndex := by
  intro s d c rest q hb hp ha hd hlt hf hn hq
  have hidx : quantize d (colorAsBytes c) = q := by
    simp only [hq, colorAsBytes, channelAsByte_eq_extractLsb']
  rw [step_encPix ha hb hp, encPixStep_pix hd hlt hf hn, hidx]
  cases d with
  | d1 =>
    dsimp only [packIndex]
    split
    · next h7 => rw [packField_full (by simp [h7])]; simp [h7]
    · next h7 => rw [packField_partial (fun h => h7 (by bv_omega))]
  | d2 =>
    dsimp only [packIndex]
    split
    · next h3 => rw [packField_full (by simp [h3])]; simp [h3]
    · next h3 => rw [packField_partial (fun h => h3 (by bv_omega))]
  | d8 => rfl

/-- Settles O33: the end of ENC flushes by NFILL; an `Eos` raises under ENC, which is no decode. -/
theorem encPixelStepFinishesOrTruncates : Obligations.EncPixelStepFinishesOrTruncates := by
  intro s hb hp hop ha
  rw [step_encPix ha hb hp]
  refine ⟨fun hall h0 => ?_, fun hall h0 => ?_, fun rest hlt hf => ?_⟩
  · rw [encPixStep_finish hall, finishEncode, if_pos h0]
    rfl
  · rw [encPixStep_finish hall, finishEncode, if_neg h0]
    rfl
  · rw [encPixStep_eos hlt hf, raise_not_decoding (by rw [hop]; rfl), hp]

/-- Settles O34: an ENC is accepted with no decode running, and runs in the three ENC phases. -/
theorem encWritesNoDecodeSideState : Obligations.EncWritesNoDecodeSideState := by
  intro s t hinv
  refine ⟨fun dc ep ps idx ht => ?_, fun hop ha ht => ?_⟩
  · rw [exec_enc, issue_next] at ht
    obtain ⟨hb, ht⟩ := ht
    cases ht
    have hdec : (accept (commandWord 0x3 dc ep ps idx) s).curOp.isDecode = false := by
      rw [accept_curOp, (idle_op hinv hb).2]
      rfl
    apply (accept_sameDecodeSide (commandWord 0x3 dc ep ps idx) s).trans
    split
    · exact encBody_sameDecodeSide dc ep ps hdec
    · exact raise_sameDecodeSide hdec
  · rw [step_codec ha] at ht
    exact codecStep_sameDecodeSide hinv.opPhase hop ht

end Sys2Proof.Proofs
end

section
/-! PROOFS. Errors of a decode (60_exceptions.md R221, R224): the state in which a codec step raises
one, phase by phase. -/

namespace Sys2Proof.Machine

/-- In `u` the step that began in `s` raises an error of a decode (R139, R224): the phase and the
command are those of `s`, its head item is consumed, and IN_POS counts that item if it was a byte. -/
structure ErrorPoint (s u : State) (kind : ErrKind) : Prop where
  phase : u.phase = s.phase
  curOp : u.curOp = s.curOp
  inFifo : u.inFifo = s.inFifo.tail
  plane : u.plane = s.plane
  palette : u.palette = s.palette
  kindPos : kind = .truncatedInput ∧ u.inPos = s.inPos ∨
    (kind = .signatureMismatch ∨ kind = .unsupportedBitDepth ∨ kind = .planeOverflow) ∧
      u.inPos = s.inPos + 1

/-- The step from `s` to `t` is one that raises an error of a decode. -/
def RaisesDecodeError (s t : State) : Prop :=
  ∃ kind info u, t = raise kind info u ∧ ErrorPoint s u kind

/-- An `Eos` where a byte is required is consumed and not counted (R139, R152). -/
theorem raisesDecodeError_eos {s : State} {rest : List InItem} (hf : s.inFifo = .eos :: rest) (info : Word) :
    RaisesDecodeError s (raise .truncatedInput info { s with inFifo := rest }) :=
  ⟨_, info, _, rfl, rfl, rfl, by rw [hf]; rfl, rfl, rfl, .inl ⟨rfl, rfl⟩⟩

/-! ### What leaves STATUS.ERR alone -/

/-- The end of the configuration is no error (R140). -/
@[simp] theorem cfgDone_err (s : State) : (cfgDone s).err = s.err := by
  unfold cfgDone
  split <;> rfl

/-- The resolution of a known depth is no error (R150, R151). -/
@[simp] theorem resolveKnown_err (d : Depth) (pf : Bool) (s : State) : (resolveKnown d pf s).err = s.err := by
  unfold resolveKnown
  split
  · rfl
  · rw [cfgDone_err, loadBuiltin_err]

/-- A palette byte is no error (R152). -/
@[simp] theorem takePalByte_err (j : Nat) (b : Byte) (s : State) : (takePalByte j b s).err = s.err := by
  rw [takePalByte_frame]

/-! ### One phase at a time: a step raises an error of a decode, or leaves STATUS.ERR alone -/

/-- The HDR step raises at an `Eos`, and at offset 7 for a recorded mismatch (R134, R135, R139). -/
theorem hdrStep_err_or_raises {s t : State} (hb : s.busy = true) (hp : s.phase = .hdr)
    (h : hdrStep s = .next t) : t.err = s.err ∨ RaisesDecodeError s t := by
  obtain ⟨-, ⟨-, rfl⟩ | ⟨rest, hf, rfl⟩ | ⟨b, rest, hf, h7, rfl⟩ | ⟨b, rest, -, -, rfl⟩⟩ :=
    hdrStep_cases hb hp h
  · exact .inl rfl
  · exact .inr (raisesDecodeError_eos hf _)
  · unfold takeModeByte
    split
    · exact .inr ⟨_, _, _, rfl, rfl, rfl, by rw [hf]; rfl, rfl, rfl, .inr ⟨.inl rfl, by rw [h7]; rfl⟩⟩
    · exact .inl rfl
  · exact .inl rfl

/-- The DIM step raises at an `Eos`, and at offset 11 for the depth code 11 (R139, R150). -/
theorem dimStep_err_or_raises {s t : State} (hb : s.busy = true) (hp : s.phase = .dim)
    (h : dimStep s = .next t) : t.err = s.err ∨ RaisesDecodeError s t := by
  obtain ⟨-, -, ⟨-, rfl⟩ | ⟨rest, hf, rfl⟩ | ⟨b, rest, hf, -, rfl⟩ | ⟨b, rest, -, -, rfl⟩⟩ :=
    dimStep_cases hb hp h
  · exact .inl rfl
  · exact .inr (raisesDecodeError_eos hf _)
  · unfold resolutionOf
    split
    · exact .inl (resolveKnown_err ..)
    · exact .inr ⟨_, _, _, rfl, rfl, rfl, by rw [hf]; rfl, rfl, rfl, .inr ⟨.inr (.inl rfl), rfl⟩⟩
  · exact .inl rfl

/-- The PAL step raises only at an `Eos` (R152). -/
theorem palStep_err_or_raises {s t : State} (h : palStep s = .next t) :
    t.err = s.err ∨ RaisesDecodeError s t := by
  obtain ⟨d, -, -, -, ⟨-, rfl⟩ | ⟨rest, hf, rfl⟩ | ⟨b, rest, -, -, rfl⟩ | ⟨b, rest, -, -, rfl⟩⟩ :=
    palStep_cases h
  · exact .inl rfl
  · exact .inr (raisesDecodeError_eos hf _)
  · exact .inl (by simp)
  · exact .inl (by simp)

/-- The PLANE step raises only at a byte past the capacity; an `Eos` completes the plane (R171, R172). -/
theorem planeStep_err_or_raises {s t : State} (h : planeStep s = .next t) :
    t.err = s.err ∨ RaisesDecodeError s t := by
  obtain ⟨-, rfl⟩ | ⟨rest, -, rfl⟩ | ⟨b, rest, hf, -, rfl⟩ | ⟨b, rest, -, -, rfl⟩ := planeStep_cases h
  · exact .inl rfl
  · exact .inl rfl
  · exact .inr ⟨_, _, _, rfl, rfl, rfl, by rw [hf]; rfl, rfl, rfl, .inr ⟨.inr (.inr rfl), rfl⟩⟩
  · exact .inl rfl

/-- The codec's turn while a decode runs: R24 leaves it the four phases of a decode. -/
theorem codecStep_err_or_raises {s t : State} (hmatch : s.OpMatchesPhase) (hdec : s.curOp.isDecode = true)
    (h : codecStep s = .next t) : t.err = s.err ∨ RaisesDecodeError s t := by
  have hnotEnc (hp : s.phase = .encHdr ∨ s.phase = .encPal ∨ s.phase = .encPix) : False := by
    have hop : s.curOp = .enc := by
      rcases hp with hp | hp | hp <;> simpa [State.OpMatchesPhase, hp] using hmatch
    rw [hop] at hdec
    cases hdec
  rcases codecStep_cases h with ⟨-, rfl⟩ |
    ⟨hb, ⟨hp, ht⟩ | ⟨hp, ht⟩ | ⟨-, ht⟩ | ⟨-, ht⟩ | ⟨hp, -⟩ | ⟨hp, -⟩ | ⟨hp, -⟩⟩
  · exact .inl rfl
  · exact hdrStep_err_or_raises hb hp ht
  · exact dimStep_err_or_raises hb hp ht
  · exact palStep_err_or_raises ht
  · exact planeStep_err_or_raises ht
  · exact (hnotEnc (.inl hp)).elim
  · exact (hnotEnc (.inr (.inl hp))).elim
  · exact (hnotEnc (.inr (.inr hp))).elim

/-- A running decode has no error recorded: acceptance cleared it (R227). -/
theorem err_of_decoding {s : State} (hinv : s.Inv) (hdec : s.curOp.isDecode = true) : s.err = false := by
  cases hb : s.busy with
  | true => exact (hinv.busyClear hb).1
  | false =>
    rw [(idle_op hinv hb).2] at hdec
    cases hdec

end Sys2Proof.Machine

namespace Sys2Proof.Proofs

open Sys2Proof.Machine

/-- Settles O28: STATUS.ERR was 0, so the step raised its error, and `raise` clears the configuration
of a decode. -/
theorem decodeErrorClearsConfiguration : Obligations.DecodeErrorClearsConfiguration := by
  intro s t hinv hdec ha ht herr
  rw [step_codec ha] at ht
  rcases codecStep_err_or_raises hinv.opPhase hdec ht with hkeep | ⟨kind, info, u, rfl, hu⟩
  · rw [hkeep, err_of_decoding hinv hdec] at herr
    cases herr
  · have hudec : u.curOp.isDecode = true := by rw [hu.curOp, hdec]
    rw [raise_decoding hudec]
    exact ⟨rfl, rfl, rfl, hu.phase, ⟨rfl, rfl, rfl, rfl, rfl, rfl⟩, rfl, hu.inFifo, hu.plane, hu.palette,
      hu.kindPos⟩

end Sys2Proof.Proofs
end

section
/-! PROOFS. Decoding and encoding (30_encoding.md): the round trip, the command table of R72 and the
`CMD` lines of R83. -/

namespace Sys2Proof

/-! ### The round trip -/

/-- A well-formed instruction whose code unit is a command word is decoded from it (R71, R72). -/
theorem decodeCommand_of_encode {i : Instr} {w : Word} (hwf : i.wellFormed = true)
    (h : encode i = .command w) : decodeCommand w = some i := by
  cases i <;> cases h <;> simp [Instr.wellFormed] at hwf <;>
    simp [commandWord_eq_fieldsWord, decodeCommand_fieldsWord, hwf]

/-- A one-bit field is the bit it holds. -/
theorem ofBool_getElem_zero (x : BitVec 1) : BitVec.ofBool x[0] = x := ofBool_getLsbD_zero x

/-- A decoded command word is the encoding of its instruction, which is well-formed (R71, R72). -/
theorem encode_of_decodeCommand {i : Instr} {w : Word} (h : decodeCommand w = some i) :
    i.wellFormed = true ∧ encode i = .command w := by
  obtain ⟨hi, idx, ps, ep, dc, op, rfl⟩ := exists_fieldsWord w
  rw [decodeCommand_fieldsWord] at h
  split_ifs at h with hf hf hf hf hf hf hf hf <;> cases h <;>
    simp [Instr.wellFormed, encode, commandWord_eq_fieldsWord, ofBool_getElem_zero, hf]

/-- A mode byte is the encoding of the instruction it decodes to (R73, R74). -/
theorem encode_decodeModeByte (b : Byte) : encode (decodeModeByte b) = .modeByte b := by
  have hb := Machine.modeByteOf_fields b
  have h3 (dc : BitVec 2) : dc ≠ 0 → dc ≠ 1 → dc ≠ 2 → dc = 3 := by revert dc; decide
  unfold decodeModeByte
  split_ifs with h0 h1 h2
  · rw [encode, ← h0, hb]
  · rw [encode, ← h1, hb]
  · rw [encode, ← h2, hb]
  · rw [encode, ← h3 _ h0 h1 h2, hb]

/-- A mode byte decodes to the one instruction it encodes (R73, R74). -/
theorem decodeModeByte_eq_iff {i : Instr} {b : Byte} : decodeModeByte b = i ↔ encode i = .modeByte b := by
  refine ⟨fun h => h ▸ encode_decodeModeByte b, fun h => ?_⟩
  cases i <;> cases h <;> exact decodeModeByte_modeByteOf _ _ _

/-- A mode-byte row is well-formed: it has no field it does not use (R73). -/
theorem wellFormed_of_encode_modeByte {i : Instr} {b : Byte} (h : encode i = .modeByte b) :
    i.wellFormed = true := by
  rw [← decodeModeByte_eq_iff] at h
  subst h
  unfold decodeModeByte
  split_ifs <;> rfl

/-- A command word is decoded exactly when the command decoder knows it (R72). -/
theorem decode_command_eq_ok {w : Word} {i : Instr} :
    decode (.command w) = .ok i ↔ decodeCommand w = some i := by
  cases h : decodeCommand w <;> simp [decode, h]

/-- A command word the command decoder does not know is rejected (R72). -/
theorem decode_command_eq_error {w : Word} (h : decodeCommand w = none) :
    decode (.command w) = .error (.illegalCommand w) := by
  simp [decode, h]

/-! ### The command table -/

/-- A word that a row selects has the row's match in its opcode field (R70, R72). -/
theorem opcode_of_selects {row : CommandRow} {w : Word} (hrow : row ∈ commandRows)
    (h : row.selects w = true) : w &&& 0xF = row.pattern := by
  have htable : ∀ row ∈ commandRows, row.mask &&& 0xF = 0xF ∧ row.pattern &&& 0xF = row.pattern := by decide
  obtain ⟨hmask, hpat⟩ := htable row hrow
  rw [CommandRow.selects, beq_iff_eq] at h
  calc w &&& 0xF = (w &&& row.mask) &&& 0xF := by rw [BitVec.and_assoc, hmask]
    _ = row.pattern := by rw [h, hpat]

/-- At most one row selects a word: the matches differ, and the word's opcode field is each of them (R72). -/
theorem selecting_rows_length_le_one (w : Word) :
    (commandRows.filter fun row => row.selects w).length ≤ 1 := by
  have hdistinct : (commandRows.map CommandRow.pattern).Nodup := by decide
  have hsame : (commandRows.filter fun row => row.selects w).map CommandRow.pattern =
      List.replicate (commandRows.filter fun row => row.selects w).length (w &&& 0xF) := by
    rw [List.eq_replicate_iff]
    refine ⟨List.length_map _, fun p hp => ?_⟩
    obtain ⟨row, hrow, rfl⟩ := List.mem_map.1 hp
    obtain ⟨hmem, hsel⟩ := List.mem_filter.1 hrow
    exact (opcode_of_selects hmem hsel).symm
  have hnodup := hdistinct.sublist
    ((List.filter_sublist (p := fun row => row.selects w)).map CommandRow.pattern)
  rwa [hsame, List.nodup_replicate] at hnodup

/-- A word is a legal command of a row exactly when mask and unused fields together leave the match
(R72, R81). -/
theorem accepts_iff {row : CommandRow} (hrow : row ∈ commandRows) (w : Word) :
    row.accepts w = true ↔ w &&& (row.mask ||| row.unused) = row.pattern := by
  have htable : ∀ row ∈ commandRows,
      (row.mask ||| row.unused) &&& row.mask = row.mask ∧
      (row.mask ||| row.unused) &&& row.unused = row.unused ∧
      row.pattern &&& row.mask = row.pattern ∧ row.pattern &&& row.unused = 0 := by decide
  obtain ⟨hmask, hunused, hpat, hzero⟩ := htable row hrow
  simp only [CommandRow.accepts, CommandRow.selects, CommandRow.unusedZero, Bool.and_eq_true, beq_iff_eq]
  constructor
  · rintro ⟨hm, hu⟩
    rw [BitVec.and_or_distrib_left, hm, hu]
    exact BitVec.or_zero
  · intro h
    exact ⟨by rw [← hmask, ← BitVec.and_assoc, h, hpat], by rw [← hunused, ← BitVec.and_assoc, h, hzero]⟩

/-- Beside ENC the mask of a row covers its unused fields, so to select a word is to accept it (R72). -/
theorem accepts_eq_selects {row : CommandRow} (hrow : row ∈ commandRows) (hname : row.mnemonic ≠ "ENC")
    (w : Word) : row.accepts w = row.selects w := by
  have htable : ∀ row ∈ commandRows, row.mnemonic ≠ "ENC" → row.mask ||| row.unused = row.mask := by decide
  rw [Bool.eq_iff_iff, accepts_iff hrow, htable row hrow hname, CommandRow.selects, beq_iff_eq]

/-- A word that a row accepts decodes to an instruction of that row (R72). -/
theorem decodeCommand_of_accepts {row : CommandRow} {w : Word} (hrow : row ∈ commandRows)
    (h : row.accepts w = true) : ∃ i, decodeCommand w = some i ∧ i.mnemonic = row.mnemonic := by
  rw [accepts_iff hrow] at h
  obtain ⟨hi, idx, ps, ep, dc, op, rfl⟩ := exists_fieldsWord w
  simp only [commandRows, List.mem_cons, List.not_mem_nil, or_false] at hrow
  rcases hrow with rfl | rfl | rfl | rfl | rfl | rfl | rfl | rfl
  · obtain ⟨rfl, rfl, rfl, rfl, rfl, rfl⟩ := (select_exact _ _ _ _ _ _ 1).1 h
    exact ⟨.decCfg, rfl, rfl⟩
  · obtain ⟨rfl, rfl, rfl, rfl, rfl, rfl⟩ := (select_exact _ _ _ _ _ _ 2).1 h
    exact ⟨.decFull, rfl, rfl⟩
  · obtain ⟨rfl, rfl, rfl⟩ := (select_enc _ _ _ _ _ _ 3).1 h
    exact ⟨.enc dc (ep.getLsbD 0) (ps.getLsbD 0) 0, by simp [decodeCommand_fieldsWord], rfl⟩
  · obtain ⟨rfl, rfl, rfl, rfl, rfl, rfl⟩ := (select_exact _ _ _ _ _ _ 4).1 h
    exact ⟨.pixRd, rfl, rfl⟩
  · obtain ⟨rfl, rfl, rfl, rfl, rfl⟩ := (select_palEntry _ _ _ _ _ _ 5).1 h
    exact ⟨.palRd idx, by simp [decodeCommand_fieldsWord], rfl⟩
  · obtain ⟨rfl, rfl, rfl, rfl, rfl⟩ := (select_palEntry _ _ _ _ _ _ 6).1 h
    exact ⟨.palWr idx, by simp [decodeCommand_fieldsWord], rfl⟩
  · obtain ⟨rfl, rfl, rfl, rfl, rfl⟩ := (select_depth _ _ _ _ _ _ 7).1 h
    exact ⟨.palDef dc, by simp [decodeCommand_fieldsWord], rfl⟩
  · obtain ⟨rfl, rfl, rfl, rfl, rfl⟩ := (select_depth _ _ _ _ _ _ 8).1 h
    exact ⟨.quant dc, by simp [decodeCommand_fieldsWord], rfl⟩

/-- A word that no row accepts is not decoded: the decoder's tests are the rows' (R72, R81). -/
theorem decodeCommand_of_rejected {w : Word} (h : ∀ row ∈ commandRows, row.accepts w = false) :
    decodeCommand w = none := by
  have hne : ∀ row ∈ commandRows, w &&& (row.mask ||| row.unused) ≠ row.pattern := fun row hrow heq => by
    simpa [h row hrow] using (accepts_iff hrow w).2 heq
  simp only [commandRows, List.forall_mem_cons, BitVec.ofNat_eq_ofNat,
    BitVec.reduceOr] at hne
  obtain ⟨h1, h2, h3, h4, h5, h6, h7, h8, -⟩ := hne
  simp only [decodeCommand, BitVec.ofNat_eq_ofNat]
  rw [if_neg h1, if_neg h2, if_neg h3, if_neg h4, if_neg h5, if_neg h6, if_neg h7, if_neg h8]

/-! ### The `CMD` lines -/

/-- The word of a line with operands in range is the command word of its fields (R70, R83). -/
theorem AsmCommand.word_eq_commandWord {c : AsmCommand} (h : c.inRange = true) :
    c.word = commandWord c.mnemonic.op (BitVec.ofNat 2 c.dc) (c.ep == 1) (c.ps == 1) (BitVec.ofNat 8 c.idx) := by
  obtain ⟨m, dc, ep, ps, idx⟩ := c
  simp only [AsmCommand.inRange, Bool.and_eq_true, decide_eq_true_eq] at h
  have hbit (n : Nat) (hn : n ≤ 1) : (BitVec.ofBool (n == 1)).toNat = n := by
    interval_cases n <;> rfl
  rw [commandWord_eq_fieldsWord]
  apply BitVec.eq_of_toNat_eq
  rw [fieldsWord_toNat, hbit ep (by omega), hbit ps (by omega)]
  simp only [AsmCommand.word, BitVec.toNat_ofNat, BitVec.ofNat_eq_ofNat]
  have hop := m.op.isLt
  omega

/-- The line's instruction is well-formed and encodes to the line's word (R72, R83). -/
theorem AsmCommand.encode_instr {c : AsmCommand} (h : c.wellFormed = true) :
    c.instr.wellFormed = true ∧ encode c.instr = .command c.word := by
  obtain ⟨hrange, hzero⟩ : c.inRange = true ∧ c.unusedZero = true := by
    simpa [AsmCommand.wellFormed] using h
  rw [AsmCommand.word_eq_commandWord hrange]
  obtain ⟨m, dc, ep, ps, idx⟩ := c
  cases m <;> simp [AsmCommand.unusedZero] at hzero <;>
    simp [AsmCommand.instr, Instr.wellFormed, encode, Mnemonic.op, hzero]

/-! ### The mode byte -/

/-- The depth code is the field that the mask 0xC0 keeps (R73, R74). -/
theorem modeDC_eq_masked (b : Byte) : modeDC b = modeDC (b &&& 0xC0) := by
  revert b; decide +kernel

end Sys2Proof

namespace Sys2Proof.Proofs

open Sys2Proof.Machine

/-- Settles O1: the command words and the mode bytes each have their round trip. -/
theorem decodeInvertsEncode : Obligations.DecodeInvertsEncode := by
  rintro i (w | b)
  · rw [decode_command_eq_ok]
    exact ⟨encode_of_decodeCommand, fun ⟨hwf, h⟩ => decodeCommand_of_encode hwf h⟩
  · rw [decode, Except.ok.injEq, decodeModeByte_eq_iff]
    exact ⟨fun h => ⟨wellFormed_of_encode_modeByte h, h⟩, And.right⟩

/-- Settles O2: the rows' masks hold the opcode field; with the unused fields they are the decoder's tests. -/
theorem commandTableRowsSelectDecoding : Obligations.CommandTableRowsSelectDecoding := by
  refine fun w => ⟨selecting_rows_length_le_one w, fun row hrow h => ?_, fun h => ?_,
    fun row hrow hname => accepts_eq_selects hrow hname w⟩
  · obtain ⟨i, hi, hname⟩ := decodeCommand_of_accepts hrow h
    exact ⟨i, decode_command_eq_ok.2 hi, hname⟩
  · exact decode_command_eq_error (decodeCommand_of_rejected h)

/-- Settles O3: the mask 0xC0 keeps the depth code, which selects the row. -/
theorem modeByteRowsFollowDepthCode : Obligations.ModeByteRowsFollowDepthCode := by
  intro b
  refine ⟨fun h => ?_, fun h => ?_, fun h => ?_, fun h => ?_⟩
  · rw [decode, decodeModeByte, modeDC_eq_masked, h]
    rfl
  · rw [decode, decodeModeByte, modeDC_eq_masked, h]
    rfl
  · rw [decode, decodeModeByte, modeDC_eq_masked, h]
    rfl
  · rw [decode, decodeModeByte, modeDC_eq_masked, h]
    rfl

/-- Settles O4: a well-formed line writes the encoding of its well-formed instruction. -/
theorem assembledCommandLinesDecode : Obligations.AssembledCommandLinesDecode := by
  intro c hc
  obtain ⟨hwf, henc⟩ := AsmCommand.encode_instr hc
  exact decode_command_eq_ok.2 (decodeCommand_of_encode hwf henc)

/-- Settles O5: each word and byte is decoded by evaluation, the illegal words one by one. -/
theorem workedVectorWordsDecode : Obligations.WorkedVectorWordsDecode := by
  refine ⟨rfl, rfl, rfl, rfl, rfl, rfl, rfl, rfl, rfl, rfl, rfl, rfl, rfl, ?_⟩
  simp only [List.forall_mem_cons]
  exact ⟨rfl, rfl, rfl, rfl, rfl, rfl, rfl, rfl, rfl, List.forall_mem_nil _⟩

end Sys2Proof.Proofs
end

section
/-! PROOFS. The commands (60_exceptions.md R227): what each can do when it answers a next state, what it
leaves unchanged, and what its outcome does not depend on. -/

namespace Sys2Proof.Machine

/-! ### What a command can do -/

/-- What QUANT can do (R108). -/
theorem exec_quant_cases {dc : BitVec 2} {s t : State} (h : exec (.quant dc) s = .next t) :
    t = raise .unsupportedBitDepth 3 (accept (commandWord 0x8 dc false false 0) s) ∨
    ∃ q, t = complete (setIndex q (accept (commandWord 0x8 dc false false 0) s)) := by
  rw [exec_quant, issue_next] at h
  obtain ⟨-, ⟨⟩⟩ := h
  unfold quantBody
  split
  · exact .inl rfl
  · exact .inr ⟨_, rfl⟩

/-- What PAL_RD can do (R109). -/
theorem exec_palRd_cases {idx : Byte} {s t : State} (h : exec (.palRd idx) s = .next t) :
    t = complete (setConverted idx (setIndex idx (accept (commandWord 0x5 0 false false idx) s))) := by
  rw [exec_palRd, issue_next] at h
  obtain ⟨-, ⟨⟩⟩ := h
  rfl

/-- What PAL_WR can do (R159). -/
theorem exec_palWr_cases {idx : Byte} {s t : State} (h : exec (.palWr idx) s = .next t) :
    ∃ c, t = complete (setEntry idx c (accept (commandWord 0x6 0 false false idx) s)) := by
  rw [exec_palWr, issue_next] at h
  obtain ⟨-, ⟨⟩⟩ := h
  exact ⟨_, rfl⟩

/-- What PAL_DEF can do (R158). -/
theorem exec_palDef_cases {dc : BitVec 2} {s t : State} (h : exec (.palDef dc) s = .next t) :
    t = raise .unsupportedBitDepth 3 (accept (commandWord 0x7 dc false false 0) s) ∨
    ∃ d, depthOf dc = some d ∧ t = complete (loadBuiltin d (accept (commandWord 0x7 dc false false 0) s)) := by
  rw [exec_palDef, issue_next] at h
  obtain ⟨-, ⟨⟩⟩ := h
  unfold palDefBody
  split
  · exact .inl rfl
  · next d hd => exact .inr ⟨d, hd, rfl⟩

/-- What PIX_RD can do after acceptance (R173). -/
theorem pixRdBody_cases {u t : State} (h : pixRdBody u = .next t) :
    t = pixRdOutside u ∨ (∃ info, t = raise .shortPlane info u) ∨
    ∃ i, t = complete (setConverted i (setIndex i u)) := by
  unfold pixRdBody pixRdInside at h
  split at h
  · split at h
    · cases h
    · split at h
      · cases h; exact .inr (.inl ⟨_, rfl⟩)
      · split at h
        · cases h
        · cases h; exact .inr (.inr ⟨_, rfl⟩)
  · cases h; exact .inl rfl

/-- What PIX_RD can do (R173). -/
theorem exec_pixRd_cases {s t : State} (h : exec .pixRd s = .next t) :
    t = pixRdOutside (accept (commandWord 0x4 0 false false 0) s) ∨
    (∃ info, t = raise .shortPlane info (accept (commandWord 0x4 0 false false 0) s)) ∨
    ∃ i, t = complete (setConverted i (setIndex i (accept (commandWord 0x4 0 false false 0) s))) := by
  rw [exec_pixRd, issue_next] at h
  exact pixRdBody_cases h.2

/-- What DEC_CFG can do (R130, R132). -/
theorem exec_decCfg_cases {s t : State} (h : exec .decCfg s = .next t) :
    t = startDecode .decCfg (accept (commandWord 0x1 0 false false 0) s) := by
  rw [exec_decCfg, issue_next] at h
  obtain ⟨-, ⟨⟩⟩ := h
  rfl

/-- What DEC_FULL can do (R131, R132). -/
theorem exec_decFull_cases {s t : State} (h : exec .decFull s = .next t) :
    t = startDecode .decFull (accept (commandWord 0x2 0 false false 0) s) := by
  rw [exec_decFull, issue_next] at h
  obtain ⟨-, ⟨⟩⟩ := h
  rfl

/-- What ENC can do (R190, R191; log entry 16). -/
theorem exec_enc_cases {dc : BitVec 2} {ep ps : Bool} {idx : Byte} {s t : State}
    (h : exec (.enc dc ep ps idx) s = .next t) :
    t = raise .illegalCommand (commandWord 0x3 dc ep ps idx) (accept (commandWord 0x3 dc ep ps idx) s) ∨
    (∃ kind info, kind ≠ .none ∧
      t = raise kind info (clearCounts (accept (commandWord 0x3 dc ep ps idx) s))) ∨
    t = startEncode dc ep ps (clearCounts (accept (commandWord 0x3 dc ep ps idx) s)) := by
  rw [exec_enc, issue_next] at h
  obtain ⟨-, ⟨⟩⟩ := h
  unfold encBody
  split
  · split
    · exact .inr (.inl ⟨_, _, by decide, rfl⟩)
    · split
      · exact .inr (.inl ⟨_, _, by decide, rfl⟩)
      · exact .inr (.inr rfl)
  · exact .inl rfl

/-! ### The error record and CMD after a command -/

/-- CMD holds the word, and the error record is consistent (R24, R26, R227). -/
def RecordOf (w : Word) (t : State) : Prop :=
  t.cmd = w ∧ (t.err = true ↔ t.errKind ≠ .none) ∧ (t.errKind = .none → t.errInfo = 0 ∧ t.errStage = .idle)

/-- An error of a kind other than 0 sets STATUS.ERR (R221). -/
theorem recordOf_raise {w : Word} {kind : ErrKind} {info : Word} {u : State} (hw : u.cmd = w)
    (hkind : kind ≠ .none) : RecordOf w (raise kind info u) := by
  simp [RecordOf, hw, hkind]

/-- A command that answers a next state leaves the record of its own word (R227). -/
theorem exec_recordOf {i : Instr} {w : Word} {s t : State} (hw : encode i = .command w)
    (h : exec i s = .next t) : RecordOf w t := by
  cases i <;> cases hw
  case decCfg => rw [exec_decCfg_cases h]; simp [RecordOf]
  case decFull => rw [exec_decFull_cases h]; simp [RecordOf]
  case enc dc ep ps idx =>
    obtain rfl | ⟨kind, info, hkind, rfl⟩ | rfl := exec_enc_cases h
    · exact recordOf_raise rfl (by decide)
    · exact recordOf_raise rfl hkind
    · simp [RecordOf]
  case pixRd =>
    obtain rfl | ⟨info, rfl⟩ | ⟨i, rfl⟩ := exec_pixRd_cases h
    · simp [RecordOf, pixRdOutside]
    · exact recordOf_raise rfl (by decide)
    · simp [RecordOf]
  case palRd idx => rw [exec_palRd_cases h]; simp [RecordOf]
  case palWr idx =>
    obtain ⟨c, rfl⟩ := exec_palWr_cases h
    simp [RecordOf]
  case palDef dc =>
    obtain rfl | ⟨d, -, rfl⟩ := exec_palDef_cases h
    · exact recordOf_raise rfl (by decide)
    · simp [RecordOf]
  case quant dc =>
    obtain rfl | ⟨q, rfl⟩ := exec_quant_cases h
    · exact recordOf_raise rfl (by decide)
    · simp [RecordOf]

/-! ### PIX_RD inside the image -/

/-- PIX_RD in bounds at a known depth reads the byte of the pixel offset (R173, R175). -/
theorem pixRdBody_inside {u : State} {d : Depth} (hin : inBounds u (coordX u) (coordY u) = true)
    (hd : depthOf (modeDC u.mode) = some d) :
    pixRdBody u = pixRdInside d (pixelOffset u.width (coordX u).toNat (coordY u).toNat) u := by
  simp [pixRdBody, hin, hd]

/-- A byte address past the plane is ShortPlane (R179). -/
theorem pixRdInside_short {u : State} {d : Depth} {p : Nat} (h : u.planeLen.toNat ≤ byteAddr d p) :
    pixRdInside d p u = .next (raise .shortPlane (BitVec.ofNat 32 (byteAddr d p)) u) :=
  if_pos h

/-- A byte of the plane gives the index and its palette color (R173). -/
theorem pixRdInside_held {u : State} {d : Depth} {p : Nat} {b : Byte} (h : byteAddr d p < u.planeLen.toNat)
    (hb : u.plane.read (byteAddr d p) = some b) :
    pixRdInside d p u =
      .next (complete (setConverted (unpackIndex d p b) (setIndex (unpackIndex d p b) u))) := by
  simp [pixRdInside, memRead_below u _ h, hb, h]

/-! ### ENC at acceptance -/

/-- Acceptance and the counters of ENC do not meet (R190, R227). -/
theorem clearCounts_accept (w : Word) (s : State) : clearCounts (accept w s) = accept w (clearCounts s) := rfl

/-- ERR_INFO of DimensionsTooLarge by its bits (R191, R222). -/
theorem dimsTooLargeInfo_eq_append (w h : Word) : dimsTooLargeInfo w h =
    0#30 ++ BitVec.ofBool (decide (65535 < h.toNat)) ++ BitVec.ofBool (decide (65535 < w.toNat)) := by
  unfold dimsTooLargeInfo
  by_cases hh : 65535 < h.toNat <;> by_cases hw : 65535 < w.toNat <;> simp [hh, hw]

/-- The depth code 11 has no depth (R190). -/
theorem encBody_three (ep ps : Bool) (s : State) :
    encBody 3 ep ps s = raise .unsupportedBitDepth 3 (clearCounts s) := rfl

/-- A dimension above 65535 is refused at a known depth (R191). -/
theorem encBody_tooLarge {dc : BitVec 2} {ep ps : Bool} {s : State} (hdc : dc ≠ 3)
    (h : 65535 < s.argW.toNat ∨ 65535 < s.argH.toNat) :
    encBody dc ep ps s = raise .dimensionsTooLarge (dimsTooLargeInfo s.argW s.argH) (clearCounts s) :=
  (if_neg hdc).trans (if_pos h)

/-- With a known depth and dimensions that fit, the encode starts (R190). -/
theorem encBody_start {dc : BitVec 2} {ep ps : Bool} {s : State} (hdc : dc ≠ 3)
    (hw : s.argW.toNat ≤ 65535) (hh : s.argH.toNat ≤ 65535) :
    encBody dc ep ps s = startEncode dc ep ps (clearCounts s) :=
  (if_neg hdc).trans (if_neg (by omega))

/-! ### Frames -/

/-- A command that leaves PLANE as it is leaves every byte of it. -/
theorem commandFrame_and_plane {s u t : State} (h : CommandFrame u t) (hp : u.plane = s.plane) :
    CommandFrame u t ∧ ∀ a, t.plane.read a = s.plane.read a := by
  have ht : t.plane = u.plane := by rw [h]
  exact ⟨h, fun a => by rw [ht, hp]⟩

end Sys2Proof.Machine

namespace Sys2Proof.Proofs

open Sys2Proof.Machine

/-- Settles O9: acceptance overwrites CMD, the error record and the results before the command's own part. -/
theorem commandsForgetTheCommandBefore : Obligations.CommandsForgetTheCommandBefore := by
  intro i w s hw
  refine ⟨fun cmd ek es ei err iv oob pm ri rc => ?_, fun t ht => exec_recordOf hw ht⟩
  cases i <;> first | rfl | cases hw

/-- Settles O42: each outcome of the three commands is `idleAfter` or `failedAfter` with its results. -/
theorem readCommandsFrame : Obligations.ReadCommandsFrame := by
  intro i s t hi hs ht
  apply commandFrame_and_plane (hp := rfl)
  rcases hi with ⟨dc, rfl⟩ | ⟨idx, rfl⟩ | rfl
  · obtain rfl | ⟨q, rfl⟩ := exec_quant_cases ht
    · rw [raise_accept hs]; rfl
    · rfl
  · rw [exec_palRd_cases ht]; rfl
  · obtain rfl | ⟨info, rfl⟩ | ⟨i, rfl⟩ := exec_pixRd_cases ht
    · rfl
    · rw [raise_accept hs]; rfl
    · rfl

/-- Settles O43: one entry is set, or the entries below N; an error writes none. -/
theorem paletteCommandsFrame : Obligations.PaletteCommandsFrame := by
  refine fun s t hs => ⟨fun idx ht => ?_, fun dc ht => ?_⟩
  · obtain ⟨c, rfl⟩ := exec_palWr_cases ht
    refine ⟨rfl, fun k hk => ?_, fun _ => rfl⟩
    exact (setEntry_getElem_palette idx c _ k).trans (if_neg hk)
  · obtain rfl | ⟨d, hd, rfl⟩ := exec_palDef_cases ht
    · rw [raise_accept hs]
      exact ⟨rfl, fun _ _ => rfl, fun _ => rfl⟩
    · refine ⟨rfl, fun k hk => ?_, fun _ => rfl⟩
      exact (builtinInto_getElem d s.palette k).trans (if_neg (by have := hk d hd; omega))

/-- Settles O44: an acceptance starts the decode or the encode, or an error of ENC leaves the codec idle. -/
theorem streamCommandsFrame : Obligations.StreamCommandsFrame := by
  refine fun s t hs => ⟨fun ht => commandFrame_and_plane ?_ rfl, fun dc ep ps idx ht =>
    commandFrame_and_plane ?_ rfl⟩
  · rcases ht with ht | ht
    · rw [exec_decCfg_cases ht]; rfl
    · rw [exec_decFull_cases ht]; rfl
  · have hclear : ({ s with outPos := 0, pixCnt := 0 } : State).Idle := hs
    obtain rfl | ⟨kind, info, -, rfl⟩ | rfl := exec_enc_cases ht
    · rw [raise_accept hs]; rfl
    · rw [clearCounts_accept, raise_accept (s := clearCounts s) hs]; rfl
    · rfl

/-- Settles O29: the order of the checks is `encBody`'s. -/
theorem encChecksThenLatchesOperands : Obligations.EncChecksThenLatchesOperands := by
  intro s dc ep ps idx w hw hs
  cases hw
  have hs' : (clearCounts s).Idle := hs
  rw [exec_enc, issue_idle hs.1]
  refine ⟨fun hidx => ?_, fun hidx hdc => ?_, fun hidx hdc hbig => ?_, fun hidx hdc hw hh => ?_⟩
  · rw [if_neg hidx, raise_accept hs]
  · rw [if_pos hidx, hdc, encBody_three, clearCounts_accept, raise_accept hs']
    rfl
  · rw [if_pos hidx, encBody_tooLarge (s := accept _ s) hdc hbig, dimsTooLargeInfo_eq_append, clearCounts_accept,
      raise_accept hs']
    rfl
  · rw [if_pos hidx, encBody_start (s := accept _ s) hdc hw hh, ← BitVec.setWidth_eq_extractLsb' (by decide),
      ← BitVec.setWidth_eq_extractLsb' (by decide)]
    rfl

/-- Settles O15: the three outcomes of `indexAt` are those of PIX_RD at the accepted state. -/
theorem pixRdIsClosedFormIndexAt : Obligations.PixRdIsClosedFormIndexAt := by
  intro s d plane w hw hs hd hlen hplane
  cases hw
  rw [exec_pixRd, issue_idle hs.1]
  have hlen' : (accept (commandWord 0x4 0 false false 0) s).planeLen.toNat = plane.length := hlen.symm
  unfold indexAt
  split_ifs with hin
  · have hbody := pixRdBody_inside (u := accept (commandWord 0x4 0 false false 0) s) (decide_eq_true hin) hd
    dsimp only
    cases hbyte : plane[byteAddr d (s.argY.toInt.toNat * s.width.toNat + s.argX.toInt.toNat)]? with
    | none =>
      refine hbody.trans ((pixRdInside_short (hlen' ▸ List.getElem?_eq_none_iff.1 hbyte)).trans ?_)
      rw [raise_accept hs]
      rfl
    | some b =>
      have hlt := (List.getElem?_eq_some_iff.1 hbyte).1
      have hheld := pixRdInside_held (u := accept (commandWord 0x4 0 false false 0) s) (hlen' ▸ hlt)
        ((hplane _ hlt).trans hbyte)
      refine (hbody.trans hheld).trans ?_
      rw [setConverted_eq rfl]
      rfl
  · exact pixRdBody_outside (decide_eq_false hin)

end Sys2Proof.Proofs
end

section
/-! PROOFS. The host port (10_state.md section 3): the register window, host actions, reset, and which
steps are refused. -/

namespace Sys2Proof.Machine

/-! ### The register window -/

/-- A register is found exactly at its offset. -/
theorem HostReg.ofOffset_eq_some {off : Nat} {r : HostReg} : HostReg.ofOffset off = some r ↔ r.offset = off := by
  refine ⟨HostReg.offset_of_ofOffset, ?_⟩
  rintro rfl
  cases r <;> rfl

/-- The registers lie below 0x54, so a reserved offset has none (R39). -/
theorem HostReg.ofOffset_reserved {off : Nat} (h : 0x54 ≤ off) : HostReg.ofOffset off = none := by
  cases hr : HostReg.ofOffset off with
  | none => rfl
  | some r =>
    have hlt : r.offset < 0x54 := by cases r <;> decide
    rw [HostReg.offset_of_ofOffset hr] at hlt
    omega

/-- STATUS by its bits (R24). -/
theorem statusWord_bits (s : State) :
    s.statusWord.getLsbD 0 = s.busy ∧ s.statusWord.getLsbD 1 = s.err ∧ s.statusWord.getLsbD 2 = s.cfgValid ∧
    s.statusWord.getLsbD 3 = s.planeValid ∧ s.statusWord.getLsbD 4 = s.idxValid ∧
    s.statusWord.getLsbD 5 = s.oob ∧ s.statusWord.getLsbD 6 = s.palMiss ∧ s.statusWord.getLsbD 7 = false ∧
    s.statusWord.extractLsb' 8 3 = s.phase.code ∧ s.statusWord.extractLsb' 11 21 = 0 := by
  obtain ⟨w, hw⟩ : ∃ w, w = 0#21 ++ s.phase.code ++ 0#1 ++ BitVec.ofBool s.palMiss ++ BitVec.ofBool s.oob
    ++ BitVec.ofBool s.idxValid ++ BitVec.ofBool s.planeValid ++ BitVec.ofBool s.cfgValid
    ++ BitVec.ofBool s.err ++ BitVec.ofBool s.busy := ⟨_, rfl⟩
  have heq : s.statusWord = w := hw.symm
  rw [heq, hw]
  refine ⟨?_, ?_, ?_, ?_, ?_, ?_, ?_, ?_, ?_, ?_⟩
  iterate 8 · simp only [BitVec.getLsbD_append]; simp
  · simp (disch := decide) only [BitVec.extractLsb'_append_eq_of_le, BitVec.extractLsb'_append_eq_of_add_le]
    exact BitVec.extractLsb'_eq_self
  · simp (disch := decide) only [BitVec.extractLsb'_append_eq_of_le]
    rfl

/-- Every register reads 0 right after reset (R250). -/
theorem readReg_reset (r : HostReg) : readReg State.reset r = 0 := by
  cases r <;> rfl

/-! ### Host actions -/

/-- With a host action at the head of the agenda the host acts (R20). -/
theorem step_host {s : State} {a : HostAction} {rest : List Event} (ha : s.agenda = .host a :: rest) :
    step s = hostStep a { s with agenda := rest } := by
  rw [step, ha]

/-- The host's aligned write of a word to CMD issues it (R23). -/
theorem step_writeCmd {s : State} {w : Word} {rest : List Event}
    (ha : s.agenda = .host (.write 0x00 4 w) :: rest) : step s = issueWord w { s with agenda := rest } := by
  rw [step_host ha]
  rfl

/-- A word that decodes is run (R227). -/
theorem issueWord_ok {w : Word} {i : Instr} (h : decode (.command w) = .ok i) (s : State) :
    issueWord w s = exec i s := by
  rw [issueWord, h]

/-- A word that does not decode raises IllegalCommand (R227). -/
theorem issueWord_error {w : Word} (h : decode (.command w) = .error (.illegalCommand w)) (s : State) :
    issueWord w s = execIllegal w s := by
  rw [issueWord, h]

/-- An access of one aligned word in the window keeps the host's duty (R39). -/
theorem hostAccessOk_word {off : Nat} (hal : off % 4 = 0) (hlt : off < 0x100) : hostAccessOk off 4 = true := by
  simp [hostAccessOk, hal, hlt]

/-- A write to a register other than CMD, or to a reserved offset, by the ARG registers (R31 to R33, R39). -/
theorem writeOffset_of_pos {off : Nat} (hpos : 0 < off) (v : Word) (s : State) :
    writeOffset off v s = .next { s with
      argX := if off = 0x20 then v else s.argX
      argY := if off = 0x24 then v else s.argY
      argW := if off = 0x28 then v else s.argW
      argH := if off = 0x2C then v else s.argH
      argRG := if off = 0x30 then v else s.argRG
      argBA := if off = 0x34 then v else s.argBA } := by
  cases hr : HostReg.ofOffset off with
  | none =>
    have hne (r : HostReg) : off ≠ r.offset := fun h => by
      simp [HostReg.ofOffset_eq_some.2 h.symm] at hr
    have hx := hne .ARG_X
    have hy := hne .ARG_Y
    have hw := hne .ARG_W
    have hh := hne .ARG_H
    have hrg := hne .ARG_RG
    have hba := hne .ARG_BA
    simp only [HostReg.offset] at hx hy hw hh hrg hba
    simp [writeOffset, hr, hx, hy, hw, hh, hrg, hba]
  | some r =>
    obtain rfl := HostReg.ofOffset_eq_some.1 hr
    cases r
    case CMD => exact absurd hpos (by decide)
    all_goals simp only [writeOffset, hr]; rfl

end Sys2Proof.Machine

namespace Sys2Proof.Proofs

open Sys2Proof.Machine

/-- Settles O6: offset 0 is CMD. -/
theorem cmdWriteRunsDecodedCommand : Obligations.CmdWriteRunsDecodedCommand := by
  intro s w i rest ha hi
  rw [step_writeCmd ha, issueWord_ok hi]

/-- Settles O8: no row accepts the word, so it does not decode; the codec is idle, so it is accepted. -/
theorem illegalWordRaisesIllegalCommand : Obligations.IllegalWordRaisesIllegalCommand := by
  intro s w rest hs ha hrows
  have hs' : ({ s with agenda := rest } : State).Idle := hs
  rw [step_writeCmd ha, issueWord_error (decode_command_eq_error (decodeCommand_of_rejected hrows)),
    execIllegal, issue_idle hs'.1, raise_accept hs']

/-- Settles O35: each register is found at its offset; STATUS by its bits. -/
theorem registerWindowReads : Obligations.RegisterWindowReads := by
  intro s
  refine ⟨?_, rfl, rfl, rfl, rfl, rfl, rfl, rfl, rfl, rfl, rfl, rfl, rfl, rfl, rfl, rfl, rfl, rfl, rfl, rfl,
    rfl, rfl, rfl, fun off hoff => ?_⟩
  · rintro v rfl
    exact statusWord_bits s
  · rw [readOffset, HostReg.ofOffset_reserved hoff]

/-- Settles O36: the access keeps the host's duty, so the value is read and recorded. -/
theorem hostReadHasNoSideEffect : Obligations.HostReadHasNoSideEffect := by
  intro s off rest ha hal hlt
  rw [step_host ha]
  exact if_pos (hostAccessOk_word hal hlt)

/-- Settles O37: the write goes to the register found at the offset, which is not CMD. -/
theorem hostWriteStoresOnlyArguments : Obligations.HostWriteStoresOnlyArguments := by
  intro s off v rest ha hal hge hlt
  rw [step_host ha]
  exact (if_pos (hostAccessOk_word hal hlt)).trans (writeOffset_of_pos (by omega) v _)

/-- Settles O38: the three actions by their definitions. -/
theorem fifoActionsKeepOrder : Obligations.FifoActionsKeepOrder := by
  refine fun s rest => ⟨fun x ha => ?_, fun x ha => ?_, fun b out ha hout => ?_⟩
  · rw [step_host ha]
    rfl
  · rw [step_host ha]
    rfl
  · simp only [step_host ha, hostStep, popOut, hout]
    rfl

/-- Settles O39: an offset has a register, which reads 0, or none. -/
theorem resetValuesOfTheMachine : Obligations.ResetValuesOfTheMachine := by
  refine ⟨fun off => ?_, rfl, rfl, rfl, rfl, rfl, rfl, rfl, rfl, rfl, rfl, rfl, fun k => ?_, rfl, rfl, rfl⟩
  · unfold readOffset
    split
    · exact readReg_reset _
    · rfl
  · exact Vector.getElem_replicate k.isLt

/-- Settles O40: the reset action by its definition. -/
theorem resetActionAbandonsEverything : Obligations.ResetActionAbandonsEverything := by
  intro s rest ha
  rw [step_host ha]
  rfl

/-- Settles O46: every position of the reset state is that of an idle codec with nothing held. -/
theorem resetMeetsInvariant : Obligations.ResetMeetsInvariant :=
  resetAction_inv State.reset

end Sys2Proof.Proofs
end

section
/-! PROOFS. The mode byte and the steps of a decode before the plane (41_header_codec.md,
42_palette_codec.md section 2); the built-in palettes. -/

namespace Sys2Proof.Machine

/-! ### The mode-byte rows -/

/-- The meaning of the mode-byte row that `b` encodes (R73, R74, R134, R150). -/
theorem exec_of_encode_modeByte {i : Instr} {b : Byte} (h : encode i = .modeByte b) (s : State) :
    exec i s = actModeByte b (resolutionOf b) s := by
  rw [← decodeModeByte_eq_iff.2 h, exec_decodeModeByte]

/-- The mode byte is taken in the HDR phase at offset 7 (R134). -/
theorem exec_modeByte_take {i : Instr} {b : Byte} {s : State} (h : encode i = .modeByte b)
    (hb : s.busy = true) (hp : s.phase = .hdr) (h7 : s.inPos = 7) : exec i s = .next (takeModeByte b s) := by
  rw [exec_of_encode_modeByte h, actModeByte_take (by simp [State.atModeByte, hb, hp, h7])]

/-- The mode byte held in MODE resolves the color model at the end of the DIM phase (R150). -/
theorem exec_modeByte_resolve {i : Instr} {b : Byte} {s : State} (h : encode i = .modeByte b)
    (hb : s.busy = true) (hp : s.phase = .dim) (h12 : s.inPos = 12) (hm : s.mode = b) :
    exec i s = .next (resolutionOf b s) := by
  rw [exec_of_encode_modeByte h, actModeByte_resolve (by simp [State.atResolution, hb, hp, h12, hm])]

/-- What a mode-byte row can do (R134, R150). -/
theorem exec_modeByte_cases {i : Instr} {b : Byte} {s t : State} (h : encode i = .modeByte b)
    (ht : exec i s = .next t) : t = takeModeByte b s ∨ t = resolutionOf b s := by
  rw [exec_of_encode_modeByte h, actModeByte] at ht
  split_ifs at ht
  · exact .inl (Host.Outcome.next.inj ht).symm
  · exact .inr (Host.Outcome.next.inj ht).symm

/-- With no signature byte differing MODE takes the byte (R135). -/
theorem takeModeByte_match {b : Byte} {s : State} (h : s.sigMiss = 7) :
    takeModeByte b s = { s with inPos := 8, mode := b, phase := .dim } := by
  simp [takeModeByte, h]

/-- A recorded mismatch is reported at the mode byte (R134). -/
theorem takeModeByte_mismatch {b : Byte} {s : State} (h : s.sigMiss ≠ 7) :
    takeModeByte b s = raise .signatureMismatch (s.sigMiss.setWidth 32) { s with inPos := 8 } :=
  if_pos h

/-- The depth code 11 resolves to UnsupportedBitDepth (R150). -/
theorem resolutionOf_bad {b : Byte} (h : modeDC b = 3) (s : State) :
    resolutionOf b s = raise .unsupportedBitDepth 3 s := by
  rw [resolutionOf, h]
  rfl

/-- With an in-file palette the PAL phase begins (R150). -/
theorem resolutionOf_pal {b : Byte} {d : Depth} (hd : depthOf (modeDC b) = some d) (hpf : modePF b = true)
    (s : State) : resolutionOf b s = { s with phase := .pal } := by
  simp [resolutionOf, hd, resolveKnown, hpf]

/-- Without one the built-in palette is loaded and the configuration is done (R151). -/
theorem resolutionOf_builtin {b : Byte} {d : Depth} (hd : depthOf (modeDC b) = some d)
    (hpf : modePF b = false) (s : State) : resolutionOf b s = cfgDone (loadBuiltin d s) := by
  simp [resolutionOf, hd, resolveKnown, hpf]

/-- From `s` to `t` only what a mode-byte row may write differs (R135, R140, R150, R151, R221). -/
def ModeByteFrame (s t : State) : Prop :=
  t = { s with
    mode := t.mode, inPos := t.inPos, phase := t.phase, busy := t.busy, curOp := t.curOp
    palette := t.palette, palLen := t.palLen, cfgValid := t.cfgValid, planeValid := t.planeValid
    width := t.width, height := t.height, planeLen := t.planeLen
    errKind := t.errKind, errStage := t.errStage, errInfo := t.errInfo, err := t.err }

/-- An error stays in the frame, whether or not it clears a configuration (R221, R224). -/
theorem raise_modeByteFrame (kind : ErrKind) (info : Word) (s : State) :
    ModeByteFrame s (raise kind info s) := by
  cases h : s.curOp.isDecode
  · rw [raise_not_decoding h]; rfl
  · rw [raise_decoding h]; rfl

/-- The end of the configuration stays in the frame (R140). -/
theorem cfgDone_modeByteFrame (s : State) : ModeByteFrame s (cfgDone s) := by
  unfold cfgDone
  split <;> rfl

/-- Taking the mode byte stays in the frame (R134). -/
theorem takeModeByte_modeByteFrame (b : Byte) (s : State) : ModeByteFrame s (takeModeByte b s) := by
  unfold takeModeByte
  split
  · exact (raise_modeByteFrame _ _ { s with inPos := 8 }).trans rfl
  · rfl

/-- The color-model resolution stays in the frame (R150). -/
theorem resolutionOf_modeByteFrame (b : Byte) (s : State) : ModeByteFrame s (resolutionOf b s) := by
  unfold resolutionOf
  split
  · next d _ =>
    unfold resolveKnown
    split
    · rfl
    · exact (cfgDone_modeByteFrame (loadBuiltin d s)).trans rfl
  · exact raise_modeByteFrame _ _ _

/-! ### The steps of the phases HDR, DIM and PAL -/

/-- In the HDR phase the codec's rule is the HDR step (R133). -/
theorem codecStep_hdr {s : State} (hb : s.busy = true) (hp : s.phase = .hdr) : codecStep s = hdrStep s := by
  rw [codecStep, if_pos hb, hp]

/-- In the DIM phase the codec's rule is the DIM step (R137). -/
theorem codecStep_dim {s : State} (hb : s.busy = true) (hp : s.phase = .dim) : codecStep s = dimStep s := by
  rw [codecStep, if_pos hb, hp]

/-- In the PAL phase the codec's rule is the PAL step (R152). -/
theorem codecStep_pal {s : State} (hb : s.busy = true) (hp : s.phase = .pal) : codecStep s = palStep s := by
  rw [codecStep, if_pos hb, hp]

/-- A signature byte at offset 0 to 6 (R133). -/
theorem hdrStep_byte {s : State} {b : Byte} {rest : List InItem} (hf : s.inFifo = .byte b :: rest)
    (hlt : s.inPos.toNat < 7) :
    hdrStep s = .next (takeSigByte s.inPos.toNat b { s with inFifo := rest }) := by
  have hne : s.inPos ≠ 7 := by bv_omega
  simp only [hdrStep, if_neg (show ¬ 7 < s.inPos.toNat by omega), hf, if_neg hne]

/-- The byte at offset 7 runs as a mode byte (R134). -/
theorem hdrStep_modeByte {s : State} {b : Byte} {rest : List InItem} (hf : s.inFifo = .byte b :: rest)
    (h7 : s.inPos = 7) : hdrStep s = exec (decodeModeByte b) { s with inFifo := rest } := by
  simp [hdrStep, h7, hf]

/-- An `Eos` in the HDR phase (R139). -/
theorem hdrStep_eos {s : State} {rest : List InItem} (hf : s.inFifo = .eos :: rest)
    (hle : s.inPos.toNat ≤ 7) :
    hdrStep s = .next (raise .truncatedInput (posInfo s.inPos) { s with inFifo := rest }) := by
  simp only [hdrStep, if_neg (show ¬ 7 < s.inPos.toNat by omega), hf]

/-- With IN empty the HDR phase waits (R45). -/
theorem hdrStep_wait {s : State} (hf : s.inFifo = []) (hle : s.inPos.toNat ≤ 7) : hdrStep s = .next s := by
  simp only [hdrStep, if_neg (show ¬ 7 < s.inPos.toNat by omega), hf]

/-- A dimension byte before the last (R137). -/
theorem dimStep_byte {s : State} {b : Byte} {rest : List InItem} (hf : s.inFifo = .byte b :: rest)
    (hge : 8 ≤ s.inPos.toNat) (hlt : s.inPos.toNat < 11) :
    dimStep s = .next (takeDimByte s.inPos.toNat b { s with inFifo := rest }) := by
  have hne : s.inPos ≠ 11 := by bv_omega
  simp only [dimStep, if_neg (show ¬ (s.inPos.toNat < 8 ∨ 11 < s.inPos.toNat) by omega), hf, if_neg hne]

/-- The last dimension byte assembles the dimensions and runs the mode byte held in MODE (R138, R150). -/
theorem dimStep_last {s : State} {b : Byte} {rest : List InItem} (hf : s.inFifo = .byte b :: rest)
    (h11 : s.inPos = 11) :
    dimStep s = exec (decodeModeByte s.mode) (assembleDims (takeDimByte 11 b { s with inFifo := rest })) := by
  simp [dimStep, h11, hf, takeDimByte]

/-- An `Eos` in the DIM phase (R139). -/
theorem dimStep_eos {s : State} {rest : List InItem} (hf : s.inFifo = .eos :: rest)
    (hge : 8 ≤ s.inPos.toNat) (hle : s.inPos.toNat ≤ 11) :
    dimStep s = .next (raise .truncatedInput (posInfo s.inPos) { s with inFifo := rest }) := by
  simp only [dimStep, if_neg (show ¬ (s.inPos.toNat < 8 ∨ 11 < s.inPos.toNat) by omega), hf]

/-- With IN empty the DIM phase waits (R45). -/
theorem dimStep_wait {s : State} (hf : s.inFifo = []) (hge : 8 ≤ s.inPos.toNat) (hle : s.inPos.toNat ≤ 11) :
    dimStep s = .next s := by
  simp only [dimStep, if_neg (show ¬ (s.inPos.toNat < 8 ∨ 11 < s.inPos.toNat) by omega), hf]

/-- An `Eos` in the PAL phase (R152). -/
theorem palStep_eos {s : State} {d : Depth} {rest : List InItem} (hd : depthOf (modeDC s.mode) = some d)
    (hge : 12 ≤ s.inPos.toNat) (hlt : s.inPos.toNat < 12 + 4 * d.palSize) (hf : s.inFifo = .eos :: rest) :
    palStep s = .next (raise .truncatedInput (posInfo s.inPos) { s with inFifo := rest }) := by
  simp only [palStep, hd, if_neg (show ¬ (s.inPos.toNat < 12 ∨ 4 * d.palSize ≤ s.inPos.toNat - 12) by omega), hf]

/-- With IN empty the PAL phase waits (R45). -/
theorem palStep_wait {s : State} {d : Depth} (hd : depthOf (modeDC s.mode) = some d)
    (hge : 12 ≤ s.inPos.toNat) (hlt : s.inPos.toNat < 12 + 4 * d.palSize) (hf : s.inFifo = []) :
    palStep s = .next s := by
  simp only [palStep, hd, if_neg (show ¬ (s.inPos.toNat < 12 ∨ 4 * d.palSize ≤ s.inPos.toNat - 12) by omega), hf]

/-- With IN empty the PLANE phase waits (R45). -/
theorem planeStep_wait {s : State} (hf : s.inFifo = []) : planeStep s = .next s := by
  simp only [planeStep, hf]

/-- A turn that is the codec's, by the agenda or because it is empty (R20). -/
theorem step_codecTurn {s : State} {ev : List Event}
    (h : s.agenda = .codec :: ev ∨ (s.agenda = [] ∧ ev = [])) : step s = codecStep { s with agenda := ev } := by
  rcases h with h | ⟨h, rfl⟩
  · rw [step, h]
  · rw [step_codec h, ← h]

/-! ### The built-in palettes -/

/-- Replicating a 2-bit value is multiplying it by 0x55 (R157). -/
theorem rep2_eq_mul (v : BitVec 2) : rep2 v = v.setWidth 8 * 0x55 := by
  revert v; decide

/-- The top two bits of a replicated value are the value. -/
theorem rep2_top (v : BitVec 2) : (rep2 v).extractLsb' 6 2 = v := by
  revert v; decide

/-- The EightBit quantizer reads back the four fields of the index that `rom8` spreads (R104, R157). -/
theorem quantize_rom8 (k : Byte) : quantize .d8 (rom .d8 k) = k := by
  rw [quantize_d8]
  simp only [rom, rom8, rep2_top]
  rw [BitVec.extractLsb'_append_extractLsb'_eq_extractLsb' (start₂ := 6) (start₁ := 4) rfl,
    BitVec.extractLsb'_append_extractLsb'_eq_extractLsb' (start₂ := 4) (start₁ := 2) rfl,
    BitVec.extractLsb'_append_extractLsb'_eq_extractLsb' (start₂ := 2) (start₁ := 0) rfl]
  exact BitVec.extractLsb'_eq_self

end Sys2Proof.Machine

namespace Sys2Proof.Proofs

open Sys2Proof.Machine

/-- Settles O7: in both places the byte decodes to the row that runs. -/
theorem codecStepRunsModeByte : Obligations.CodecStepRunsModeByte := by
  intro s b rest i ev hb hf hturn
  rw [step_codecTurn hturn]
  refine ⟨fun hp h7 hi => ?_, fun hp h11 hi => ?_⟩
  · rw [codecStep_hdr (s := { s with agenda := ev }) hb hp, hdrStep_modeByte (s := { s with agenda := ev }) hf h7,
      Except.ok.inj hi]
  · rw [codecStep_dim (s := { s with agenda := ev }) hb hp, dimStep_last (s := { s with agenda := ev }) hf h11,
      Except.ok.inj hi]
    simp [assembleDims, takeDimByte, dimBuf_set_last, h11]

/-- Settles O18: the built-in entries by their definitions; each quantizer on them. -/
theorem quantizersInvertBuiltinPalettes : Obligations.QuantizersInvertBuiltinPalettes := by
  refine ⟨rfl, rfl, fun k _ => rfl, fun i => ?_, fun d k hk => ?_⟩
  · simp only [rom, rom8, rep2_eq_mul]
  · cases d with
    | d1 => revert k; decide
    | d2 => revert k; decide
    | d8 => exact quantize_rom8 k

/-- Settles O20: SIG_MISS decides; an error under a decode command clears the configuration. -/
theorem modeByteIsTakenOrReportsMismatch : Obligations.ModeByteIsTakenOrReportsMismatch := by
  intro s i b hi hb hp h7
  rw [exec_modeByte_take hi hb hp h7]
  refine ⟨fun hsig => by rw [takeModeByte_match hsig], fun hsig hop => ?_⟩
  rw [takeModeByte_mismatch hsig]
  exact congrArg _ (raise_decoding (s := { s with inPos := 8 }) (isDecode_of hop))

/-- Settles O21: the depth code and bit 5 select the resolution; the command selects how it ends. -/
theorem modeByteResolvesColorModel : Obligations.ModeByteResolvesColorModel := by
  intro s i b hi hb hp h12 hm hop
  rw [exec_modeByte_resolve hi hb hp h12 hm]
  refine ⟨fun h3 => ?_, fun d hd => ⟨fun hpf => by rw [resolutionOf_pal hd hpf], fun hpf => ?_⟩⟩
  · rw [resolutionOf_bad h3, raise_decoding (isDecode_of hop)]
  · rw [resolutionOf_builtin hd hpf]
    rcases hop with hop | hop
    · rw [cfgDone_decCfg (s := loadBuiltin d s) hop]
      exact ⟨_, rfl, builtinInto_getElem d s.palette, fun _ => rfl, fun h => by simp [hop] at h⟩
    · rw [cfgDone_decFull (s := loadBuiltin d s) hop]
      exact ⟨_, rfl, builtinInto_getElem d s.palette, fun h => by simp [hop] at h, fun _ => rfl⟩

/-- Settles O22: one lemma for each of the byte, the `Eos` and the wait. -/
theorem signatureByteRecordsFirstMismatch : Obligations.SignatureByteRecordsFirstMismatch := by
  intro s rest hb hp hop hlt ha
  rw [step_codec ha, codecStep_hdr hb hp]
  refine ⟨fun b hf => ?_, fun hf => ?_, fun hf => hdrStep_wait hf hlt.le⟩
  · have hk : BitVec.ofNat 3 s.inPos.toNat = s.inPos.setWidth 3 := rfl
    rw [hdrStep_byte hf hlt, takeSigByte, hk]
    rfl
  · rw [hdrStep_eos hf hlt.le, raise_decoding (s := { s with inFifo := rest }) (isDecode_of hop)]
    rfl

/-- Settles O23: the byte at offset k goes to place k - 8. -/
theorem dimensionByteFillsDimBuf : Obligations.DimensionByteFillsDimBuf := by
  intro s b rest hb hp hge hlt hf ha
  rw [step_codec ha, codecStep_dim hb hp, dimStep_byte hf hge hlt]
  refine ⟨_, rfl, rfl, fun k => ?_⟩
  have hplace : s.inPos.toNat - 8 = k.val ↔ k.val + 8 = s.inPos.toNat := by omega
  simp [takeDimByte, Vector.getElem_setIfInBounds, hplace]

/-- Settles O25: the invariant gives the position of each phase and its command, a decode. -/
theorem eosBeforePlaneIsTruncatedInput : Obligations.EosBeforePlaneIsTruncatedInput := by
  intro s rest hinv hphase hf ha
  have hb : s.busy = true := hinv.busyPhase.2 (by rcases hphase with h | h | h <;> simp [h])
  have hop : s.curOp = .decCfg ∨ s.curOp = .decFull := by
    rcases hphase with h | h | h <;> simpa [State.OpMatchesPhase, h] using hinv.opPhase
  have hpos := hinv.position
  have hraise : raise .truncatedInput (posInfo s.inPos) { s with inFifo := rest } =
      decodeFailed .truncatedInput (s.inPos.setWidth 32) { s with inFifo := rest } :=
    raise_decoding (isDecode_of hop)
  rw [← hraise]
  rcases hphase with hp | hp | hp <;> simp only [State.PositionOk, hp] at hpos
  · rw [step_codec ha, codecStep_hdr hb hp, hdrStep_eos hf hpos.1]
  · rw [step_codec ha, codecStep_dim hb hp, dimStep_eos hf hpos.1 hpos.2.1]
  · obtain ⟨d, hd, -, hge, hlt, -⟩ := hpos
    rw [step_codec ha, codecStep_pal hb hp, palStep_eos hd hge hlt hf]

/-- Settles O45: the byte is taken or resolves the color model; both stay in the frame. -/
theorem modeByteRowsFrame : Obligations.ModeByteRowsFrame := by
  intro i b s t hi ht
  have hframe : ModeByteFrame s t := by
    rcases exec_modeByte_cases hi ht with rfl | rfl
    · exact takeModeByte_modeByteFrame b s
    · exact resolutionOf_modeByteFrame b s
  have hplane : t.plane = s.plane := by rw [hframe]
  exact ⟨hframe, fun a => by rw [hplane]⟩

end Sys2Proof.Proofs
end

section
/-! PROOFS. The whole machine: which steps are refused (70_reset_and_hazards.md R254; 10_state.md
R39), and what every step keeps. -/

namespace Sys2Proof.Machine

/-! ### Refusals -/

/-- The meaning of a command is its body, issued with its word (R23, R227). -/
theorem exec_command_eq_issue {i : Instr} {w : Word} (hi : encode i = .command w) :
    ∃ body, exec i = issue w body := by
  cases i <;> cases hi
  case decCfg => exact ⟨_, funext exec_decCfg⟩
  case decFull => exact ⟨_, funext exec_decFull⟩
  case enc dc ep ps idx => exact ⟨_, funext (exec_enc dc ep ps idx)⟩
  case pixRd => exact ⟨_, funext exec_pixRd⟩
  case palRd idx => exact ⟨_, funext (exec_palRd idx)⟩
  case palWr idx => exact ⟨_, funext (exec_palWr idx)⟩
  case palDef dc => exact ⟨_, funext (exec_palDef dc)⟩
  case quant dc => exact ⟨_, funext (exec_quant dc)⟩

/-- No command has a step while BUSY = 1 (R23). -/
theorem exec_command_busy {i : Instr} {w : Word} {s : State} (hi : encode i = .command w)
    (hb : s.busy = true) : exec i s = .refused .cmdWhileBusy := by
  obtain ⟨body, hbody⟩ := exec_command_eq_issue hi
  rw [hbody, issue_busy hb]

/-- PIX_RD after acceptance is not refused (R173). -/
theorem pixRdBody_ne_refused (u : State) (r : Refusal) : pixRdBody u ≠ .refused r := by
  unfold pixRdBody pixRdInside
  repeat' split
  all_goals nofun

/-- An idle codec refuses no command (R23). -/
theorem exec_command_ne_refused {i : Instr} {w : Word} {s : State} (hi : encode i = .command w)
    (hb : s.busy = false) (r : Refusal) : exec i s ≠ .refused r := by
  cases i <;> cases hi
  case pixRd => rw [exec_pixRd, issue_idle hb]; exact pixRdBody_ne_refused _ r
  all_goals simp only [exec_decCfg, exec_decFull, exec_enc, exec_palRd, exec_palWr, exec_palDef, exec_quant,
    issue_idle hb]; nofun

/-- A word written to CMD is refused exactly while BUSY = 1, a word that is no command too (R23, R254). -/
theorem issueWord_busy (w : Word) {s : State} (hb : s.busy = true) :
    issueWord w s = .refused .cmdWhileBusy := by
  unfold issueWord
  split
  · next i hi => exact exec_command_busy (encode_of_decodeCommand (decode_command_eq_ok.1 hi)).2 hb
  · exact issue_busy hb

/-- An idle codec refuses no word (R23, R227). -/
theorem issueWord_ne_refused (w : Word) {s : State} (hb : s.busy = false) (r : Refusal) :
    issueWord w s ≠ .refused r := by
  unfold issueWord
  split
  · next i hi => exact exec_command_ne_refused (encode_of_decodeCommand (decode_command_eq_ok.1 hi)).2 hb r
  · rw [execIllegal, issue_idle hb]
    nofun

/-- A write in the window is refused exactly when it is one to CMD while BUSY = 1 (R23, R39). -/
theorem writeOffset_refused_iff {off : Nat} {v : Word} {s : State} :
    (∃ r, writeOffset off v s = .refused r) ↔ off = HostReg.offset .CMD ∧ s.busy = true := by
  by_cases hoff : off = 0
  · subst hoff
    have hcmd : writeOffset 0 v s = issueWord v s := rfl
    cases hb : s.busy with
    | true => simp [hcmd, issueWord_busy v hb, HostReg.offset]
    | false => simp [hcmd, issueWord_ne_refused v hb]
  · simp [writeOffset_of_pos (Nat.pos_of_ne_zero hoff), HostReg.offset, hoff]

/-- The HDR step is not refused: the mode byte acts where it runs it (R134; log entry 4). -/
theorem hdrStep_ne_refused {s : State} (hb : s.busy = true) (hp : s.phase = .hdr) (r : Refusal) :
    hdrStep s ≠ .refused r := by
  unfold hdrStep
  split
  · nofun
  · split
    · nofun
    · nofun
    · split
      · next h7 =>
        rw [exec_decodeModeByte, actModeByte_take (by simp [State.atModeByte, hb, hp, h7])]
        nofun
      · nofun

/-- The DIM step is not refused: the mode byte acts where it runs it (R150; log entry 4). -/
theorem dimStep_ne_refused {s : State} (hb : s.busy = true) (hp : s.phase = .dim) (r : Refusal) :
    dimStep s ≠ .refused r := by
  unfold dimStep
  split
  · nofun
  · split
    · nofun
    · nofun
    · dsimp only
      split
      · next h11 =>
        rw [exec_decodeModeByte, actModeByte_resolve (by
          simp [State.atResolution, assembleDims, takeDimByte, hb, hp, h11])]
        nofun
      · nofun

/-- The codec's turn is never refused (log entries 4 and 9). -/
theorem codecStep_ne_refused (s : State) (r : Refusal) : codecStep s ≠ .refused r := by
  cases hb : s.busy with
  | false => simp [codecStep, hb]
  | true =>
    cases hp : s.phase
    case hdr => rw [codecStep_hdr hb hp]; exact hdrStep_ne_refused hb hp r
    case dim => rw [codecStep_dim hb hp]; exact dimStep_ne_refused hb hp r
    all_goals
      simp only [codecStep, hb, hp, if_true, palStep, planeStep, encHdrStep, encPalStep, encPixStep]
      repeat' split
      all_goals nofun

/-- A host action is refused exactly when it breaks a duty (R39, R254). -/
theorem hostStep_refused_iff {a : HostAction} {s : State} {rest : List Event} :
    (∃ r, hostStep a s = .refused r) ↔ ¬ ({ s with agenda := .host a :: rest } : State).DutyKept := by
  cases a with
  | read off size =>
    cases hok : hostAccessOk off size <;> simp [hostStep, State.DutyKept, hok]
  | write off size v =>
    cases hok : hostAccessOk off size
    · simp [hostStep, State.DutyKept, hok]
    · simp [hostStep, State.DutyKept, hok, writeOffset_refused_iff]
  | pushIn x => simp [hostStep, State.DutyKept]
  | pushPix x => simp [hostStep, State.DutyKept]
  | popOut => simp [hostStep, State.DutyKept]
  | reset => simp [hostStep, State.DutyKept]

/-! ### The invariant -/

/-- A state of the invariant keeps it when its next event is taken off the agenda. -/
theorem inv_agenda {s : State} (h : s.Inv) (ev : List Event) : ({ s with agenda := ev } : State).Inv :=
  Inv_env h rfl

/-- WAIT only reads STATUS and moves events (R83). -/
theorem waitStep_inv {s : State} (h : s.Inv) : (waitStep s).Inv := by
  unfold waitStep
  dsimp only
  split <;> exact Inv_env h rfl

/-- DRAIN only pops OUT (R83). -/
theorem drainStep_inv {s : State} (h : s.Inv) : (drainStep s).Inv := by
  unfold drainStep
  split
  · exact h
  · exact Inv_env h rfl

/-- From a state of the invariant a host action under kept duties answers a next state (R39, R254). -/
theorem hostStep_next {a : HostAction} {s : State} {rest : List Event} (h : s.Inv)
    (hd : ({ s with agenda := .host a :: rest } : State).DutyKept) : ∃ t, hostStep a s = .next t := by
  cases a with
  | read off size => exact ⟨_, if_pos hd⟩
  | write off size v =>
    obtain ⟨hok, hcmd⟩ := hd
    simp only [hostStep, hok, if_true]
    by_cases hoff : off = 0
    · subst hoff
      exact issueWord_next v h (hcmd rfl)
    · exact ⟨_, writeOffset_of_pos (Nat.pos_of_ne_zero hoff) v s⟩
  | pushIn x => exact ⟨_, rfl⟩
  | pushPix x => exact ⟨_, rfl⟩
  | popOut => exact ⟨_, rfl⟩
  | reset => exact ⟨_, rfl⟩

end Sys2Proof.Machine

namespace Sys2Proof.Proofs

open Sys2Proof.Machine

/-- Settles O41: only host actions are refused, and those exactly when they break a duty. -/
theorem refusalsAreExactlyBrokenDuties : Obligations.RefusalsAreExactlyBrokenDuties := by
  intro s
  refine ⟨?_, fun w rest hb ha => by 
    rw [step_writeCmd ha, issueWord_busy (s := { s with agenda := rest }) w hb]⟩
  match ha : s.agenda with
  | [] => simp [step, State.DutyKept, ha, codecStep_ne_refused]
  | .codec :: rest => simp [step, State.DutyKept, ha, codecStep_ne_refused]
  | .wait :: rest => simp [step, State.DutyKept, ha]
  | .drain :: rest => simp [step, State.DutyKept, ha]
  | .host a :: rest =>
    have h := hostStep_refused_iff (a := a) (s := { s with agenda := rest }) (rest := rest)
    simp only [step, ha]
    rw [h, ← ha]

/-- Settles O47: the codec's turn and the host's actions keep it; WAIT and DRAIN change what it does not read. -/
theorem everyStepKeepsInvariant : Obligations.EveryStepKeepsInvariant := by
  intro s t h ht
  unfold step at ht
  split at ht
  · exact codec_inv h ht
  · exact codec_inv (inv_agenda h _) ht
  · exact hostStep_inv _ (inv_agenda h _) ht
  · cases ht; exact waitStep_inv (inv_agenda h _)
  · cases ht; exact drainStep_inv (inv_agenda h _)

/-- Settles O48: the codec never stops, and a host action that keeps its duty has a step. -/
theorem keptDutiesNeverStop : Obligations.KeptDutiesNeverStop := by
  intro s h hd
  have hnext : ∃ t, step s = .next t := by
    match ha : s.agenda with
    | [] => rw [step_codec ha]; exact codec_next h
    | .codec :: rest => simp only [step, ha]; exact codec_next (inv_agenda h rest)
    | .wait :: rest => simp only [step, ha]; exact ⟨_, rfl⟩
    | .drain :: rest => simp only [step, ha]; exact ⟨_, rfl⟩
    | .host a :: rest =>
      simp only [step, ha]
      exact hostStep_next (rest := rest) (inv_agenda h rest) (by rw [← ha]; exact hd)
  obtain ⟨t, ht⟩ := hnext
  exact ⟨t, ht, everyStepKeepsInvariant s t h ht⟩

end Sys2Proof.Proofs
end

section
/-! PROOFS. The whole machine: what changes the fixed parameters and PLANE (R252, R180), and which
states answer a step alike (20_memory.md R61; 10_state.md R41). -/

namespace Sys2Proof.Machine

/-! ### The host's loops -/

/-- With WAIT at the head of the agenda the host reads STATUS (R83). -/
theorem step_wait {s : State} {rest : List Event} (ha : s.agenda = .wait :: rest) :
    step s = .next (waitStep { s with agenda := rest }) := by
  rw [step, ha]

/-- With DRAIN at the head of the agenda the host pops OUT (R83). -/
theorem step_drain {s : State} {rest : List Event} (ha : s.agenda = .drain :: rest) :
    step s = .next (drainStep { s with agenda := rest }) := by
  rw [step, ha]

/-! ### DIM_ORDER, PLANE_CAP and PLANE -/

/-- Neither DIM_ORDER and PLANE_CAP nor PLANE differ. -/
def SameMemory (s t : State) : Prop := t.cfg = s.cfg ∧ t.plane = s.plane

/-- A mode-byte row writes neither (R134, R150). -/
theorem ModeByteFrame.sameMemory {s t : State} (h : ModeByteFrame s t) : SameMemory s t :=
  ⟨by rw [h], by rw [h]⟩

/-- An error writes neither (R221, R224). -/
theorem raise_sameMemory (kind : ErrKind) (info : Word) (s : State) : SameMemory s (raise kind info s) :=
  (raise_modeByteFrame kind info s).sameMemory

/-- A command writes neither (R227). -/
theorem exec_command_sameMemory {i : Instr} {w : Word} {s t : State} (hi : encode i = .command w)
    (h : exec i s = .next t) : SameMemory s t := by
  cases i <;> cases hi
  case decCfg => rw [exec_decCfg_cases h]; exact ⟨rfl, rfl⟩
  case decFull => rw [exec_decFull_cases h]; exact ⟨rfl, rfl⟩
  case enc dc ep ps idx =>
    obtain rfl | ⟨kind, info, -, rfl⟩ | rfl := exec_enc_cases h
    · exact raise_sameMemory _ _ _
    · exact raise_sameMemory _ _ _
    · exact ⟨rfl, rfl⟩
  case pixRd =>
    obtain rfl | ⟨info, rfl⟩ | ⟨i, rfl⟩ := exec_pixRd_cases h
    · exact ⟨rfl, rfl⟩
    · exact raise_sameMemory _ _ _
    · exact ⟨rfl, rfl⟩
  case palRd idx => rw [exec_palRd_cases h]; exact ⟨rfl, rfl⟩
  case palWr idx =>
    obtain ⟨c, rfl⟩ := exec_palWr_cases h
    exact ⟨rfl, rfl⟩
  case palDef dc =>
    obtain rfl | ⟨d, -, rfl⟩ := exec_palDef_cases h
    · exact raise_sameMemory _ _ _
    · exact ⟨rfl, rfl⟩
  case quant dc =>
    obtain rfl | ⟨q, rfl⟩ := exec_quant_cases h
    · exact raise_sameMemory _ _ _
    · exact ⟨rfl, rfl⟩

/-- The HDR step writes neither (R133, R134). -/
theorem hdrStep_sameMemory {s t : State} (hb : s.busy = true) (hp : s.phase = .hdr)
    (h : hdrStep s = .next t) : SameMemory s t := by
  obtain ⟨-, ⟨-, rfl⟩ | ⟨rest, -, rfl⟩ | ⟨b, rest, -, -, rfl⟩ | ⟨b, rest, -, -, rfl⟩⟩ :=
    hdrStep_cases hb hp h
  · exact ⟨rfl, rfl⟩
  · exact raise_sameMemory _ _ { s with inFifo := rest }
  · exact (takeModeByte_modeByteFrame b { s with inFifo := rest }).sameMemory
  · exact ⟨rfl, rfl⟩

/-- The DIM step writes neither (R137, R150). -/
theorem dimStep_sameMemory {s t : State} (hb : s.busy = true) (hp : s.phase = .dim)
    (h : dimStep s = .next t) : SameMemory s t := by
  obtain ⟨-, -, ⟨-, rfl⟩ | ⟨rest, -, rfl⟩ | ⟨b, rest, -, -, rfl⟩ | ⟨b, rest, -, -, rfl⟩⟩ :=
    dimStep_cases hb hp h
  · exact ⟨rfl, rfl⟩
  · exact raise_sameMemory _ _ { s with inFifo := rest }
  · exact (resolutionOf_modeByteFrame s.mode
      (assembleDims (takeDimByte 11 b { s with inFifo := rest }))).sameMemory
  · exact ⟨rfl, rfl⟩

/-- A palette byte writes neither (R152). -/
theorem takePalByte_sameMemory (j : Nat) (b : Byte) (s : State) : SameMemory s (takePalByte j b s) := by
  rw [takePalByte_frame]
  exact ⟨rfl, rfl⟩

/-- The PAL step writes neither (R152, R154). -/
theorem palStep_sameMemory {s t : State} (h : palStep s = .next t) : SameMemory s t := by
  obtain ⟨d, -, -, -, ⟨-, rfl⟩ | ⟨rest, -, rfl⟩ | ⟨b, rest, -, -, rfl⟩ | ⟨b, rest, -, -, rfl⟩⟩ :=
    palStep_cases h
  · exact ⟨rfl, rfl⟩
  · exact raise_sameMemory _ _ { s with inFifo := rest }
  · obtain ⟨hcfg, hplane⟩ := takePalByte_sameMemory (s.inPos.toNat - 12) b { s with inFifo := rest }
    obtain ⟨hcfg', hplane'⟩ := (cfgDone_modeByteFrame { takePalByte (s.inPos.toNat - 12) b
      { s with inFifo := rest } with palLen := BitVec.ofNat 9 d.palSize }).sameMemory
    exact ⟨hcfg'.trans hcfg, hplane'.trans hplane⟩
  · exact takePalByte_sameMemory _ b { s with inFifo := rest }

/-- The ENC_HDR step writes neither (R195). -/
theorem encHdrStep_sameMemory {s t : State} (h : encHdrStep s = .next t) : SameMemory s t := by
  obtain ⟨b, -, ⟨-, rfl⟩ | ⟨-, rfl⟩⟩ := encHdrStep_cases h <;> exact ⟨rfl, rfl⟩

/-- The ENC_PAL step writes neither (R196). -/
theorem encPalStep_sameMemory {s t : State} (h : encPalStep s = .next t) : SameMemory s t := by
  obtain ⟨d, -, -, -, u, rfl, ⟨-, rfl⟩ | ⟨-, rfl⟩⟩ := encPalStep_cases h <;> exact ⟨rfl, rfl⟩

/-- Packing an index writes neither (R197 to R199). -/
theorem packIndex_sameMemory (d : Depth) (q : Byte) (s : State) : SameMemory s (packIndex d q s) := by
  have hfield (f : Byte) (p : Nat) : SameMemory s (packField f p s) := by
    by_cases h : s.nfill.toNat + 1 = p
    · rw [packField_full h]; exact ⟨rfl, rfl⟩
    · rw [packField_partial h]; exact ⟨rfl, rfl⟩
  cases d with
  | d1 => exact hfield _ _
  | d2 => exact hfield _ _
  | d8 => exact ⟨rfl, rfl⟩

/-- The ENC_PIX step writes neither (R200, R201). -/
theorem encPixStep_sameMemory {s t : State} (h : encPixStep s = .next t) : SameMemory s t := by
  rcases encPixStep_cases h with
    ⟨-, rfl⟩ | ⟨-, ⟨-, rfl⟩ | ⟨rest, -, rfl⟩ | ⟨c, rest, d, -, -, -, rfl⟩⟩
  · unfold finishEncode
    split <;> exact ⟨rfl, rfl⟩
  · exact ⟨rfl, rfl⟩
  · exact raise_sameMemory _ _ { s with pixFifo := rest }
  · exact packIndex_sameMemory d _ { s with pixFifo := rest }

/-- The PLANE step keeps the parameters, and writes PLANE at PLANE_LEN alone (R170). -/
theorem planeStep_memory {s t : State} (h : planeStep s = .next t) :
    t.cfg = s.cfg ∧ ∀ a, a ≠ s.planeLen.toNat → t.plane.read a = s.plane.read a := by
  obtain ⟨-, rfl⟩ | ⟨rest, -, rfl⟩ | ⟨b, rest, -, -, rfl⟩ | ⟨b, rest, -, -, rfl⟩ := planeStep_cases h
  · exact ⟨rfl, fun _ _ => rfl⟩
  · exact ⟨rfl, fun _ _ => rfl⟩
  · obtain ⟨hcfg, hplane⟩ := raise_sameMemory .planeOverflow s.cfg.planeCap
      { s with inFifo := rest, inPos := s.inPos + 1 }
    exact ⟨hcfg, fun a _ => by rw [hplane]⟩
  · exact ⟨rfl, fun a ha => Memory.read_write_other s.plane _ a b ha⟩

/-- The codec's turn writes neither, or is the PLANE step (R180). -/
theorem codecStep_memory {s t : State} (h : codecStep s = .next t) :
    SameMemory s t ∨ (s.phase = .plane ∧ planeStep s = .next t) := by
  rcases codecStep_cases h with ⟨-, rfl⟩ |
    ⟨hb, ⟨hp, ht⟩ | ⟨hp, ht⟩ | ⟨-, ht⟩ | ⟨hp, ht⟩ | ⟨-, ht⟩ | ⟨-, ht⟩ | ⟨-, ht⟩⟩
  · exact .inl ⟨rfl, rfl⟩
  · exact .inl (hdrStep_sameMemory hb hp ht)
  · exact .inl (dimStep_sameMemory hb hp ht)
  · exact .inl (palStep_sameMemory ht)
  · exact .inr ⟨hp, ht⟩
  · exact .inl (encHdrStep_sameMemory ht)
  · exact .inl (encPalStep_sameMemory ht)
  · exact .inl (encPixStep_sameMemory ht)

/-- The codec's turn keeps DIM_ORDER and PLANE_CAP (R252). -/
theorem codecStep_cfg {s t : State} (h : codecStep s = .next t) : t.cfg = s.cfg := by
  rcases codecStep_memory h with ⟨hcfg, -⟩ | ⟨-, ht⟩
  · exact hcfg
  · exact (planeStep_memory ht).1

/-- A word written to CMD writes neither (R227). -/
theorem issueWord_sameMemory {w : Word} {s t : State} (h : issueWord w s = .next t) : SameMemory s t := by
  unfold issueWord at h
  split at h
  · next i hi => exact exec_command_sameMemory (encode_of_decodeCommand (decode_command_eq_ok.1 hi)).2 h
  · rw [execIllegal, issue_next] at h
    obtain ⟨-, ⟨⟩⟩ := h
    exact raise_sameMemory _ _ (accept _ s)

/-- A host action keeps the parameters; and PLANE, if it is not the reset (R252, R258). -/
theorem hostStep_memory {a : HostAction} {s t : State} (h : hostStep a s = .next t) :
    t.cfg = s.cfg ∧ (a ≠ .reset → t.plane = s.plane) := by
  cases a with
  | read off size =>
    simp only [hostStep] at h
    split at h <;> cases h
    exact ⟨rfl, fun _ => rfl⟩
  | write off size v =>
    simp only [hostStep] at h
    split at h
    · by_cases hoff : off = 0
      · subst hoff
        obtain ⟨hcfg, hplane⟩ := issueWord_sameMemory h
        exact ⟨hcfg, fun _ => hplane⟩
      · rw [writeOffset_of_pos (Nat.pos_of_ne_zero hoff)] at h
        cases h
        exact ⟨rfl, fun _ => rfl⟩
    · cases h
  | pushIn x => cases h; exact ⟨rfl, fun _ => rfl⟩
  | pushPix x => cases h; exact ⟨rfl, fun _ => rfl⟩
  | popOut =>
    cases h
    unfold popOut
    split <;> exact ⟨rfl, fun _ => rfl⟩
  | reset => cases h; exact ⟨rfl, fun hne => absurd rfl hne⟩

/-- WAIT writes neither (R83). -/
theorem waitStep_sameMemory (s : State) : SameMemory s (waitStep s) := by
  unfold waitStep
  dsimp only
  split <;> exact ⟨rfl, rfl⟩

/-- DRAIN writes neither (R83). -/
theorem drainStep_sameMemory (s : State) : SameMemory s (drainStep s) := by
  unfold drainStep
  split <;> exact ⟨rfl, rfl⟩

/-! ### A waiting codec -/

/-- With PIX empty and pixels missing ENC waits (R200). -/
theorem encPixStep_wait {s : State} (hlt : s.pixCnt.toNat < totalPixels s) (hf : s.pixFifo = []) :
    encPixStep s = .next s := by
  simp only [encPixStep, if_neg hlt.ne, if_neg hlt.not_gt, hf]

/-- A waiting codec's step repeats the state (R255; log entry 1). -/
theorem codecStep_waiting {s : State} (h : s.Inv) (hw : s.Waiting) : codecStep s = .next s := by
  obtain ⟨hb, ⟨hf, hp⟩ | ⟨hf, hp, hlt⟩⟩ := hw
  · have hpos := h.position
    rcases hp with hp | hp | hp | hp <;> simp only [State.PositionOk, hp] at hpos
    · rw [codecStep_hdr hb hp, hdrStep_wait hf hpos.1]
    · rw [codecStep_dim hb hp, dimStep_wait hf hpos.1 hpos.2.1]
    · obtain ⟨d, hd, -, hge, hlt, -⟩ := hpos
      rw [codecStep_pal hb hp, palStep_wait hd hge hlt hf]
    · rw [codecStep, if_pos hb, hp]
      exact planeStep_wait hf
  · rw [codecStep, if_pos hb, hp]
    exact encPixStep_wait hlt hf

/-! ### Items and actions to come -/

/-- The outcome with a function applied to its next state; a stop stays. -/
def mapNext (f : State → State) : Result → Result
  | .next t => .next (f t)
  | .fault r => .fault r
  | .refused r => .refused r

@[simp] theorem mapNext_next (f : State → State) (t : State) : mapNext f (.next t) = .next (f t) := rfl
@[simp] theorem mapNext_fault (f : State → State) (r : Fault) : mapNext f (.fault r) = .fault r := rfl
@[simp] theorem mapNext_refused (f : State → State) (r : Refusal) : mapNext f (.refused r) = .refused r := rfl

/-- `s` with the items `xs` behind those in IN and the actions `ev` on the agenda. -/
def State.withLater (s : State) (xs : List InItem) (ev : List Event) : State :=
  { s with inFifo := s.inFifo ++ xs, agenda := ev }

section
variable (xs : List InItem) (ev : List Event)

/-- An error does not read them (R221). -/
theorem raise_withLater (kind : ErrKind) (info : Word) (s : State) :
    raise kind info (s.withLater xs ev) = (raise kind info s).withLater xs ev := by
  cases h : s.curOp.isDecode
  · rw [raise_not_decoding h, raise_not_decoding (s := s.withLater xs ev) h]; rfl
  · rw [raise_decoding h, raise_decoding (s := s.withLater xs ev) h]; rfl

/-- Any other command than DEC_CFG goes on to the plane (R140). -/
theorem cfgDone_not_decCfg {s : State} (h : s.curOp ≠ .decCfg) : cfgDone s = { s with phase := .plane } :=
  if_neg h

/-- The end of the configuration does not read them (R140). -/
theorem cfgDone_withLater (s : State) : cfgDone (s.withLater xs ev) = (cfgDone s).withLater xs ev := by
  by_cases h : s.curOp = .decCfg
  · rw [cfgDone_decCfg h, cfgDone_decCfg (s := s.withLater xs ev) h]; rfl
  · rw [cfgDone_not_decCfg h, cfgDone_not_decCfg (s := s.withLater xs ev) h]; rfl

/-- Taking the mode byte does not read them (R134). -/
theorem takeModeByte_withLater (b : Byte) (s : State) :
    takeModeByte b (s.withLater xs ev) = (takeModeByte b s).withLater xs ev := by
  by_cases h : s.sigMiss = 7
  · rw [takeModeByte_match h, takeModeByte_match (s := s.withLater xs ev) h]; rfl
  · rw [takeModeByte_mismatch h, takeModeByte_mismatch (s := s.withLater xs ev) h]
    exact raise_withLater xs ev _ _ { s with inPos := 8 }

/-- The color-model resolution does not read them (R150). -/
theorem resolutionOf_withLater (b : Byte) (s : State) :
    resolutionOf b (s.withLater xs ev) = (resolutionOf b s).withLater xs ev := by
  unfold resolutionOf resolveKnown
  split
  · next d _ =>
    split
    · rfl
    · exact cfgDone_withLater xs ev (loadBuiltin d s)
  · exact raise_withLater xs ev _ _ s

/-- A mode byte does not read them (R134, R150). -/
theorem exec_decodeModeByte_withLater (b : Byte) (s : State) :
    exec (decodeModeByte b) (s.withLater xs ev) = mapNext (·.withLater xs ev) (exec (decodeModeByte b) s) := by
  rw [exec_decodeModeByte, exec_decodeModeByte]
  unfold actModeByte
  have h1 : (s.withLater xs ev).atModeByte = s.atModeByte := rfl
  have h2 : (s.withLater xs ev).atResolution b = s.atResolution b := rfl
  rw [h1, h2]
  split_ifs
  · rw [takeModeByte_withLater, mapNext_next]
  · rw [resolutionOf_withLater, mapNext_next]
  · rfl

/-- What IN holds before the items to come. -/
theorem withLater_inFifo_cons {s : State} {x : InItem} {rest : List InItem} (hf : s.inFifo = x :: rest) :
    (s.withLater xs ev).inFifo = x :: (rest ++ xs) := by
  simp [State.withLater, hf]

/-- With no item to come an empty IN stays empty. -/
theorem withLater_inFifo_nil {s : State} (hf : s.inFifo = []) : (s.withLater [] ev).inFifo = [] := by
  simp [State.withLater, hf]

/-- The HDR step reads the head of IN (R133, R134). -/
theorem hdrStep_withLater {s : State} (hxs : s.inFifo ≠ [] ∨ xs = []) :
    hdrStep (s.withLater xs ev) = mapNext (·.withLater xs ev) (hdrStep s) := by
  by_cases hpos : 7 < s.inPos.toNat
  · have hstuck : hdrStep s = .fault .noRule := if_pos hpos
    rw [hstuck]
    exact if_pos hpos
  have hle : s.inPos.toNat ≤ 7 := by omega
  cases hf : s.inFifo with
  | nil =>
    obtain rfl : xs = [] := by simpa [hf] using hxs
    rw [hdrStep_wait hf hle, hdrStep_wait (withLater_inFifo_nil ev hf) hle, mapNext_next]
  | cons x rest =>
    have hf' := withLater_inFifo_cons xs ev hf
    cases x with
    | eos =>
      rw [hdrStep_eos hf hle, hdrStep_eos hf' hle]
      exact congrArg _ (raise_withLater xs ev _ _ { s with inFifo := rest })
    | byte b =>
      by_cases h7 : s.inPos = 7
      · rw [hdrStep_modeByte hf h7, hdrStep_modeByte hf' h7]
        exact exec_decodeModeByte_withLater xs ev b { s with inFifo := rest }
      · have hlt : s.inPos.toNat < 7 := lt_of_le_of_ne hle fun h => h7 (BitVec.eq_of_toNat_eq h)
        rw [hdrStep_byte hf hlt, hdrStep_byte hf' hlt]
        rfl

/-- The DIM step reads the head of IN (R137). -/
theorem dimStep_withLater {s : State} (hxs : s.inFifo ≠ [] ∨ xs = []) :
    dimStep (s.withLater xs ev) = mapNext (·.withLater xs ev) (dimStep s) := by
  by_cases hpos : s.inPos.toNat < 8 ∨ 11 < s.inPos.toNat
  · have hstuck : dimStep s = .fault .noRule := if_pos hpos
    rw [hstuck]
    exact if_pos hpos
  have hge : 8 ≤ s.inPos.toNat := by omega
  have hle : s.inPos.toNat ≤ 11 := by omega
  cases hf : s.inFifo with
  | nil =>
    obtain rfl : xs = [] := by simpa [hf] using hxs
    rw [dimStep_wait hf hge hle, dimStep_wait (withLater_inFifo_nil ev hf) hge hle, mapNext_next]
  | cons x rest =>
    have hf' := withLater_inFifo_cons xs ev hf
    cases x with
    | eos =>
      rw [dimStep_eos hf hge hle, dimStep_eos hf' hge hle]
      exact congrArg _ (raise_withLater xs ev _ _ { s with inFifo := rest })
    | byte b =>
      by_cases h11 : s.inPos = 11
      · rw [dimStep_last hf h11, dimStep_last hf' h11]
        exact exec_decodeModeByte_withLater xs ev s.mode
          (assembleDims (takeDimByte 11 b { s with inFifo := rest }))
      · have hlt : s.inPos.toNat < 11 := lt_of_le_of_ne hle fun h => h11 (BitVec.eq_of_toNat_eq h)
        rw [dimStep_byte hf hge hlt, dimStep_byte hf' hge hlt]
        rfl

/-- A palette byte does not read the items to come (R152). -/
theorem takePalByte_withLater (j : Nat) (b : Byte) (s : State) :
    takePalByte j b (s.withLater xs ev) = (takePalByte j b s).withLater xs ev := by
  unfold takePalByte
  split <;> rfl

/-- The PAL step reads the head of IN (R152, R154). -/
theorem palStep_withLater {s : State} (hxs : s.inFifo ≠ [] ∨ xs = []) :
    palStep (s.withLater xs ev) = mapNext (·.withLater xs ev) (palStep s) := by
  cases hd : depthOf (modeDC s.mode) with
  | none =>
    have hd' : depthOf (modeDC (s.withLater xs ev).mode) = none := hd
    simp [palStep, hd, hd']
  | some d =>
    by_cases hpos : s.inPos.toNat < 12 ∨ 4 * d.palSize ≤ s.inPos.toNat - 12
    · have hd' : depthOf (modeDC (s.withLater xs ev).mode) = some d := hd
      have hpos' : (s.withLater xs ev).inPos.toNat < 12 ∨
          4 * d.palSize ≤ (s.withLater xs ev).inPos.toNat - 12 := hpos
      simp only [palStep, hd, hd', if_pos hpos, if_pos hpos', mapNext_fault]
    have hge : 12 ≤ s.inPos.toNat := by omega
    have hlt : s.inPos.toNat < 12 + 4 * d.palSize := by omega
    cases hf : s.inFifo with
    | nil =>
      obtain rfl : xs = [] := by simpa [hf] using hxs
      rw [palStep_wait hd hge hlt hf, palStep_wait (s := s.withLater [] ev) hd hge hlt
        (withLater_inFifo_nil ev hf), mapNext_next]
    | cons x rest =>
      have hf' := withLater_inFifo_cons xs ev hf
      cases x with
      | eos =>
        rw [palStep_eos hd hge hlt hf, palStep_eos (s := s.withLater xs ev) hd hge hlt hf']
        exact congrArg _ (raise_withLater xs ev _ _ { s with inFifo := rest })
      | byte b =>
        have hj : s.inPos.toNat = 12 + (s.inPos.toNat - 12) := by omega
        have hjlt : s.inPos.toNat - 12 < 4 * d.palSize := by omega
        rw [palStep_byte hd hj hjlt hf, palStep_byte (s := s.withLater xs ev) hd hj hjlt hf', mapNext_next]
        have htake := takePalByte_withLater xs ev (s.inPos.toNat - 12) b { s with inFifo := rest }
        split
        · refine congrArg _ (Eq.trans ?_ (cfgDone_withLater xs ev { takePalByte (s.inPos.toNat - 12) b
            { s with inFifo := rest } with palLen := BitVec.ofNat 9 d.palSize }))
          exact congrArg (fun t : State => cfgDone { t with palLen := BitVec.ofNat 9 d.palSize }) htake
        · exact congrArg _ htake

/-- A byte past PLANE_CAP has no place (R51; log entry 10). -/
theorem planeStep_byte_past {s : State} {b : Byte} {rest : List InItem} (hf : s.inFifo = .byte b :: rest)
    (hne : s.planeLen ≠ s.cfg.planeCap) (hge : ¬ s.planeLen.toNat < s.cfg.planeCap.toNat) :
    planeStep s = .fault .planeOutOfRange := by
  simp [planeStep, hf, hne, memWrite, hge]

/-- The PLANE step reads the head of IN (R170 to R172). -/
theorem planeStep_withLater {s : State} (hxs : s.inFifo ≠ [] ∨ xs = []) :
    planeStep (s.withLater xs ev) = mapNext (·.withLater xs ev) (planeStep s) := by
  cases hf : s.inFifo with
  | nil =>
    obtain rfl : xs = [] := by simpa [hf] using hxs
    rw [planeStep_wait hf, planeStep_wait (withLater_inFifo_nil ev hf), mapNext_next]
  | cons x rest =>
    have hf' := withLater_inFifo_cons xs ev hf
    cases x with
    | eos =>
      rw [planeStep_eos hf, planeStep_eos hf']
      rfl
    | byte b =>
      by_cases hcap : s.planeLen = s.cfg.planeCap
      · rw [planeStep_byte_full hf hcap, planeStep_byte_full hf' hcap]
        exact congrArg _ (raise_withLater xs ev _ _ { s with inFifo := rest, inPos := s.inPos + 1 })
      · by_cases hlt : s.planeLen.toNat < s.cfg.planeCap.toNat
        · rw [planeStep_byte_below hf hlt, planeStep_byte_below hf' hlt]
          rfl
        · rw [planeStep_byte_past hf hcap hlt, planeStep_byte_past hf' hcap hlt, mapNext_fault]

/-- The ENC_HDR step does not read IN (R195). -/
theorem encHdrStep_withLater (s : State) :
    encHdrStep (s.withLater xs ev) = mapNext (·.withLater xs ev) (encHdrStep s) := by
  cases hb : (headerBytes s.cfg.dimOrder s.eDC s.eEP s.eW s.eH)[s.outPos.toNat]? with
  | none =>
    have hstuck (u : State) (h : (headerBytes u.cfg.dimOrder u.eDC u.eEP u.eW u.eH)[u.outPos.toNat]? = none) :
        encHdrStep u = .fault .noRule := by simp [encHdrStep, h]
    rw [hstuck s hb, hstuck (s.withLater xs ev) hb, mapNext_fault]
  | some b =>
    rw [encHdrStep_emit hb, encHdrStep_emit (s := s.withLater xs ev) hb]
    rfl

/-- The ENC_PAL step does not read IN (R196). -/
theorem encPalStep_withLater (s : State) :
    encPalStep (s.withLater xs ev) = mapNext (·.withLater xs ev) (encPalStep s) := by
  cases hd : depthOf s.eDC with
  | none =>
    have hstuck (u : State) (h : depthOf u.eDC = none) : encPalStep u = .fault .noDepth := by
      simp [encPalStep, h]
    rw [hstuck s hd, hstuck (s.withLater xs ev) hd, mapNext_fault]
  | some d =>
    by_cases hpos : s.outPos.toNat < 12 ∨ 4 * d.palSize ≤ s.outPos.toNat - 12
    · have hstuck (u : State) (hd : depthOf u.eDC = some d)
          (h : u.outPos.toNat < 12 ∨ 4 * d.palSize ≤ u.outPos.toNat - 12) :
          encPalStep u = .fault .noRule := by simp only [encPalStep, hd, if_pos h]
      rw [hstuck s hd hpos, hstuck (s.withLater xs ev) hd hpos, mapNext_fault]
    · have hj : s.outPos.toNat = 12 + (s.outPos.toNat - 12) := by omega
      have hlt : s.outPos.toNat - 12 < 4 * d.palSize := by omega
      rw [encPalStep_emit hd hj hlt, encPalStep_emit (s := s.withLater xs ev) hd hj hlt]
      rfl

/-- Packing an index does not read IN (R197 to R199). -/
theorem packIndex_withLater (d : Depth) (q : Byte) (s : State) :
    packIndex d q (s.withLater xs ev) = (packIndex d q s).withLater xs ev := by
  have hfield (f : Byte) (p : Nat) : packField f p (s.withLater xs ev) = (packField f p s).withLater xs ev := by
    by_cases h : s.nfill.toNat + 1 = p
    · rw [packField_full h, packField_full (s := s.withLater xs ev) h]; rfl
    · rw [packField_partial h, packField_partial (s := s.withLater xs ev) h]; rfl
  cases d with
  | d1 => exact hfield _ _
  | d2 => exact hfield _ _
  | d8 => rfl

/-- The end of ENC does not read IN (R200). -/
theorem finishEncode_withLater (s : State) :
    finishEncode (s.withLater xs ev) = (finishEncode s).withLater xs ev := by
  have hn : (s.withLater xs ev).nfill = s.nfill := rfl
  unfold finishEncode
  rw [hn]
  split <;> rfl

/-- A pixel at the depth code 11 has no index (log entry 10). -/
theorem encPixStep_noDepth {s : State} {c : Color16} {rest : List PixItem}
    (hlt : s.pixCnt.toNat < totalPixels s) (hf : s.pixFifo = .pix c :: rest) (hd : depthOf s.eDC = none) :
    encPixStep s = .fault .noDepth := by
  simp only [encPixStep, if_neg hlt.ne, if_neg hlt.not_gt, hf, hd]

/-- A pixel that has no place in the byte (log entry 10). -/
theorem encPixStep_noRoom {s : State} {d : Depth} {c : Color16} {rest : List PixItem}
    (hlt : s.pixCnt.toNat < totalPixels s) (hf : s.pixFifo = .pix c :: rest) (hd : depthOf s.eDC = some d)
    (hge : d.perByte ≤ s.nfill.toNat) : encPixStep s = .fault .noRule := by
  simp only [encPixStep, if_neg hlt.ne, if_neg hlt.not_gt, hf, hd, if_pos hge]

/-- The ENC_PIX step does not read IN (R200, R201). -/
theorem encPixStep_withLater (s : State) :
    encPixStep (s.withLater xs ev) = mapNext (·.withLater xs ev) (encPixStep s) := by
  have htotal : totalPixels (s.withLater xs ev) = totalPixels s := rfl
  obtain hlt | heq | hgt := lt_trichotomy s.pixCnt.toNat (totalPixels s)
  · cases hf : s.pixFifo with
    | nil => rw [encPixStep_wait hlt hf, encPixStep_wait (s := s.withLater xs ev) hlt hf, mapNext_next]
    | cons x rest =>
      cases x with
      | eos =>
        rw [encPixStep_eos hlt hf, encPixStep_eos (s := s.withLater xs ev) hlt hf]
        exact congrArg _ (raise_withLater xs ev _ _ { s with pixFifo := rest })
      | pix c =>
        cases hd : depthOf s.eDC with
        | none =>
          rw [encPixStep_noDepth hlt hf hd, encPixStep_noDepth (s := s.withLater xs ev) hlt hf hd, mapNext_fault]
        | some d =>
          by_cases hn : s.nfill.toNat < d.perByte
          · rw [encPixStep_pix hd hlt hf hn, encPixStep_pix (s := s.withLater xs ev) hd hlt hf hn]
            exact congrArg (fun t : State => Host.Outcome.next { t with pixCnt := s.pixCnt + 1 })
              (packIndex_withLater xs ev d _ { s with pixFifo := rest })
          · have hge : d.perByte ≤ s.nfill.toNat := by omega
            rw [encPixStep_noRoom hlt hf hd hge, encPixStep_noRoom (s := s.withLater xs ev) hlt hf hd hge,
              mapNext_fault]
  · rw [encPixStep_finish heq, encPixStep_finish (s := s.withLater xs ev) heq, mapNext_next]
    exact congrArg _ (finishEncode_withLater xs ev s)
  · have hstuck (u : State) (h : totalPixels u < u.pixCnt.toNat) : encPixStep u = .fault .noRule :=
      (if_neg h.ne').trans (if_pos h)
    rw [hstuck s hgt, hstuck (s.withLater xs ev) hgt, mapNext_fault]

/-- The codec's turn reads only the head of IN, and not the agenda: with an item in IN, or none to come,
it does the same whatever comes later (R61). -/
theorem codecStep_withLater {s : State} (hxs : s.inFifo ≠ [] ∨ xs = []) :
    codecStep (s.withLater xs ev) = mapNext (·.withLater xs ev) (codecStep s) := by
  have hb : (s.withLater xs ev).busy = s.busy := rfl
  have hp : (s.withLater xs ev).phase = s.phase := rfl
  unfold codecStep
  rw [hb, hp]
  split
  · split
    · rfl
    · exact hdrStep_withLater xs ev hxs
    · exact dimStep_withLater xs ev hxs
    · exact palStep_withLater xs ev hxs
    · exact planeStep_withLater xs ev hxs
    · exact encHdrStep_withLater xs ev s
    · exact encPalStep_withLater xs ev s
    · exact encPixStep_withLater xs ev s
  · rfl

end

/-- The codec's turn leaves the agenda: it is the turn with the same actions to come (R20). -/
theorem codecStep_agenda {s t : State} (h : codecStep s = .next t) : t.agenda = s.agenda := by
  have hsame : s.withLater [] s.agenda = s := by simp [State.withLater]
  have hmap := codecStep_withLater [] s.agenda (s := s) (.inr rfl)
  rw [hsame, h, mapNext_next] at hmap
  exact (congrArg State.agenda (Host.Outcome.next.inj hmap) :)

/-! ### The palette past PAL_LEN -/

/-- `s` with the palette file `p`. -/
def State.withPalette (s : State) (p : Vector Color8 256) : State := { s with palette := p }

section
variable {s : State} {p : Vector Color8 256}

/-- `convert` reads the palette below PAL_LEN alone (R106). -/
theorem convert_withPalette (h : ∀ k : Fin 256, k.val < s.palLen.toNat → p[k] = s.palette[k]) (i : Byte) :
    convert (s.withPalette p) i = convert s i := by
  have hlen : (s.withPalette p).palLen = s.palLen := rfl
  unfold convert
  rw [hlen]
  split
  · next hi => exact h ⟨i.toNat, i.isLt⟩ hi
  · rfl

/-- A color result reads it below PAL_LEN alone (R109). -/
theorem setConverted_withPalette (h : ∀ k : Fin 256, k.val < s.palLen.toNat → p[k] = s.palette[k]) (i : Byte) :
    setConverted i (s.withPalette p) = (setConverted i s).withPalette p := by
  unfold setConverted
  rw [convert_withPalette h]
  rfl

/-- An error does not read it (R221). -/
theorem raise_withPalette (kind : ErrKind) (info : Word) (s : State) :
    raise kind info (s.withPalette p) = (raise kind info s).withPalette p := by
  cases h : s.curOp.isDecode
  · rw [raise_not_decoding h, raise_not_decoding (s := s.withPalette p) h]; rfl
  · rw [raise_decoding h, raise_decoding (s := s.withPalette p) h]; rfl

/-- The lookup of a pixel reads it below PAL_LEN alone (R173, R179). -/
theorem pixRdInside_withPalette (h : ∀ k : Fin 256, k.val < s.palLen.toNat → p[k] = s.palette[k])
    (d : Depth) (n : Nat) :
    pixRdInside d n (s.withPalette p) = mapNext (·.withPalette p) (pixRdInside d n s) := by
  by_cases hlen : s.planeLen.toNat ≤ byteAddr d n
  · rw [pixRdInside_short hlen, pixRdInside_short (u := s.withPalette p) hlen, mapNext_next, raise_withPalette]
  · have hlt : byteAddr d n < s.planeLen.toNat := by omega
    cases hb : s.plane.read (byteAddr d n) with
    | none =>
      have hstuck (u : State) (hlt : byteAddr d n < u.planeLen.toNat) (hb : u.plane.read (byteAddr d n) = none) :
          pixRdInside d n u = .fault .planeUnwritten := by
        simp [pixRdInside, memRead_below u _ hlt, hb, hlt]
      rw [hstuck s hlt hb, hstuck (s.withPalette p) hlt hb, mapNext_fault]
    | some b =>
      rw [pixRdInside_held hlt hb, pixRdInside_held (u := s.withPalette p) hlt hb, mapNext_next]
      exact congrArg (fun t => Host.Outcome.next (complete t))
        (setConverted_withPalette (s := setIndex (unpackIndex d n b) s) h _)

/-- PIX_RD after acceptance reads it below PAL_LEN alone (R173). -/
theorem pixRdBody_withPalette (h : ∀ k : Fin 256, k.val < s.palLen.toNat → p[k] = s.palette[k]) :
    pixRdBody (s.withPalette p) = mapNext (·.withPalette p) (pixRdBody s) := by
  cases hin : inBounds s (coordX s) (coordY s) with
  | false =>
    rw [pixRdBody_outside hin, pixRdBody_outside (s := s.withPalette p) hin]
    rfl
  | true =>
    cases hd : depthOf (modeDC s.mode) with
    | none =>
      have hstuck (u : State) (hin : inBounds u (coordX u) (coordY u) = true)
          (hd : depthOf (modeDC u.mode) = none) : pixRdBody u = .fault .noDepth := by
        simp [pixRdBody, hin, hd]
      rw [hstuck s hin hd, hstuck (s.withPalette p) hin hd, mapNext_fault]
    | some d =>
      rw [pixRdBody_inside hin hd, pixRdBody_inside (u := s.withPalette p) hin hd]
      exact pixRdInside_withPalette h d _

/-- An issued command commutes with what its body commutes with and acceptance leaves alone (R227). -/
theorem issue_mapNext {w : Word} {body : State → Result} {f : State → State} (hbusy : (f s).busy = s.busy)
    (hbody : body (accept w (f s)) = mapNext f (body (accept w s))) :
    issue w body (f s) = mapNext f (issue w body s) := by
  cases hb : s.busy with
  | true => rw [issue_busy hb, issue_busy (hbusy.trans hb), mapNext_refused]
  | false => rw [issue_idle hb, issue_idle (hbusy.trans hb), hbody]

end

end Sys2Proof.Machine

namespace Sys2Proof.Proofs

open Sys2Proof.Machine

/-- Settles O49: neither the codec's turn nor a host action writes the parameters, the reset included. -/
theorem instanceParametersAreFixed : Obligations.InstanceParametersAreFixed := by
  intro s t ht
  match ha : s.agenda with
  | [] =>
    rw [step_codec ha] at ht
    exact codecStep_cfg ht
  | .codec :: rest =>
    rw [step_codecTurn (.inl ha)] at ht
    exact (codecStep_cfg ht :)
  | .host a :: rest =>
    rw [step_host ha] at ht
    exact (hostStep_memory ht).1
  | .wait :: rest =>
    rw [step_wait ha] at ht
    cases ht
    exact (waitStep_sameMemory { s with agenda := rest }).1
  | .drain :: rest =>
    rw [step_drain ha] at ht
    cases ht
    exact (drainStep_sameMemory { s with agenda := rest }).1

/-- Settles O50: only the PLANE step writes PLANE, and by the invariant it runs under DEC_FULL. -/
theorem onlyPlanePhaseWritesPlane : Obligations.OnlyPlanePhaseWritesPlane := by
  intro s t hinv ht hreset
  have hcodec (ev : List Event) (ht : codecStep { s with agenda := ev } = .next t) : t.plane = s.plane ∨
      (s.phase = .plane ∧ s.curOp = .decFull ∧ ∀ a, a ≠ s.planeLen.toNat → t.plane.read a = s.plane.read a) := by
    rcases codecStep_memory ht with ⟨-, hplane⟩ | ⟨hp, ht⟩
    · exact .inl hplane
    · have hop : s.curOp = .decFull := by
        have hmatch := hinv.opPhase
        rwa [State.OpMatchesPhase, show s.phase = .plane from hp] at hmatch
      exact .inr ⟨hp, hop, (planeStep_memory ht).2⟩
  match ha : s.agenda with
  | [] =>
    rw [step_codecTurn (.inr ⟨ha, rfl⟩)] at ht
    exact (hcodec [] ht).imp_right fun h => ⟨.inl rfl, h⟩
  | .codec :: rest =>
    rw [step_codecTurn (.inl ha)] at ht
    exact (hcodec rest ht).imp_right fun h => ⟨.inr ⟨rest, rfl⟩, h⟩
  | .host a :: rest =>
    rw [step_host ha] at ht
    exact .inl ((hostStep_memory ht).2 fun h => hreset rest (h ▸ ha))
  | .wait :: rest =>
    rw [step_wait ha] at ht
    cases ht
    exact .inl (waitStep_sameMemory { s with agenda := rest }).2
  | .drain :: rest =>
    rw [step_drain ha] at ht
    cases ht
    exact .inl (drainStep_sameMemory { s with agenda := rest }).2

/-- Settles O51: acceptance keeps PAL_LEN and the palette; both commands read it through `convert`. -/
theorem paletteTailIsUnobservable : Obligations.PaletteTailIsUnobservable := by
  intro i s p hi hp
  have hmap : exec i (s.withPalette p) = mapNext (·.withPalette p) (exec i s) := by
    rcases hi with rfl | ⟨idx, rfl⟩
    · rw [exec_pixRd, exec_pixRd]
      refine issue_mapNext (f := (·.withPalette p)) rfl ?_
      exact pixRdBody_withPalette (s := accept (commandWord 0x4 0 false false 0) s) hp
    · rw [exec_palRd, exec_palRd]
      refine issue_mapNext (f := (·.withPalette p)) rfl ?_
      exact congrArg (fun t => Host.Outcome.next (complete t)) (setConverted_withPalette
        (s := setIndex idx (accept (commandWord 0x5 0 false false idx) s)) hp idx)
  change match exec i s with
    | .next t => exec i (s.withPalette p) = .next (t.withPalette p)
    | .fault f => exec i (s.withPalette p) = .fault f
    | .refused r => exec i (s.withPalette p) = .refused r
  rw [hmap]
  cases exec i s <;> rfl

/-- Settles O52: each step of a hung codec repeats the state. -/
theorem hungCodecStaysBusyForever : Obligations.HungCodecStaysBusyForever := by
  intro s hinv ⟨hw, ha⟩ k
  have hstep : step s = .next s := by rw [step_codec ha, codecStep_waiting hinv hw]
  induction k with
  | zero => rfl
  | succ k ih => rw [stepsTo_succ k hstep, ih]

/-- Settles O53: the pushed item comes later than the head of IN. -/
theorem pushCommutesWithDecodeStep : Obligations.PushCommutesWithDecodeStep := by
  intro s x hdec hf
  have hmap := codecStep_withLater [x] s.agenda (.inl hf)
  have hpush : s.withLater [x] s.agenda = { s with inFifo := s.inFifo ++ [x] } := rfl
  rw [hpush] at hmap
  rw [hmap]
  cases ht : codecStep s with
  | next t =>
    have ha := codecStep_agenda ht
    simp [State.withLater, ← ha]
  | fault f => rfl
  | refused r => rfl

/-- Settles O60: the actions to come are later than the turn. -/
theorem codecTurnIgnoresLaterActions : Obligations.CodecTurnIgnoresLaterActions := by
  intro s ev ha
  have hstep : step s = codecStep { s with agenda := ev } := step_codecTurn (.inl ha)
  refine ⟨hstep, ?_⟩
  have hmap := codecStep_withLater [] ev (s := { s with agenda := [] }) (.inr rfl)
  have hlater : State.withLater { s with agenda := [] } [] ev = { s with agenda := ev } := by
    simp [State.withLater]
  rw [hlater, ← hstep] at hmap
  rw [hmap, step_codec rfl]
  cases ht : codecStep { s with agenda := [] } with
  | next t => exact ⟨by simp [State.withLater], codecStep_agenda ht⟩
  | fault f => rfl
  | refused r => rfl

end Sys2Proof.Proofs
end

section
/-! PROOFS. Packing and unpacking of indices, and the closed form of an encode (43_pixel_plane.md R176 to
R178; 44_encoder.md R197 to R206). -/

namespace Sys2Proof.Machine

/-! ### The fields of a plane byte -/

/-- The first `r` fields of plane byte `m`, the first in the highest bits (R197, R198). -/
def packFields (d : Depth) (qs : List Byte) (m r : Nat) : Byte :=
  (List.range r).foldl (fun acc k => acc ||| (qs.getD (m * d.perByte + k) 0 <<< (8 - d.bits * (k + 1)))) 0

theorem packByte_eq_packFields (d : Depth) (qs : List Byte) (m : Nat) :
    packByte d qs m = packFields d qs m d.perByte := rfl

@[simp] theorem packFields_zero (d : Depth) (qs : List Byte) (m : Nat) : packFields d qs m 0 = 0 := rfl

/-- One more field is OR-ed in below those before it. -/
theorem packFields_succ (d : Depth) (qs : List Byte) (m r : Nat) :
    packFields d qs m (r + 1) =
      packFields d qs m r ||| (qs.getD (m * d.perByte + r) 0 <<< (8 - d.bits * (r + 1))) := by
  simp [packFields, List.range_succ]

/-- Fields past the last index are 0, so they change nothing. -/
theorem packFields_of_length_le {d : Depth} {qs : List Byte} {m r n : Nat} (hrn : r ≤ n)
    (hlen : qs.length ≤ m * d.perByte + r) : packFields d qs m n = packFields d qs m r := by
  induction n, hrn using Nat.le_induction with
  | base => rfl
  | succ n hn ih =>
    rw [packFields_succ, ih, List.getD_eq_default _ _ (by omega)]
    simp

/-- A quantizer's index fits the field of its depth (R102 to R104). -/
theorem quantize_lt (d : Depth) (c : Color8) : (quantize d c).toNat < 2 ^ d.bits := by
  cases d with
  | d1 =>
    rw [quantize_d1]
    split <;> decide
  | d2 =>
    rw [quantize_d2]
    split
    · have h := ((c.r ||| c.g ||| c.b).extractLsb' 6 2).isLt
      rw [BitVec.toNat_setWidth]
      exact lt_of_le_of_lt (Nat.mod_le _ _) h
    · decide
  | d8 => exact (quantize .d8 c).isLt

/-- Reading a field is shifting it down and masking it, at every depth (R176 to R178). -/
theorem unpackIndex_eq (d : Depth) (p : Nat) (b : Byte) :
    unpackIndex d p b = (b >>> (8 - d.bits * (p % d.perByte + 1))) &&& BitVec.ofNat 8 (2 ^ d.bits - 1) := by
  cases d with
  | d1 =>
    have h : 8 - 1 * (p % 8 + 1) = 7 - p % 8 := by omega
    simp only [unpackIndex, Depth.bits, Depth.perByte, h]
    rfl
  | d2 =>
    have h : 8 - 2 * (p % 4 + 1) = 6 - p % 4 * 2 := by omega
    simp only [unpackIndex, Depth.bits, Depth.perByte, h]
    rfl
  | d8 =>
    simp only [unpackIndex, Depth.bits, Depth.perByte, Nat.mod_one]
    exact (BitVec.and_allOnes (x := b)).symm

/-- Reading field `j` of a byte with field `k` alone: the field, or 0 where they differ. -/
theorem read_field_of_shifted (d : Depth) : ∀ k < d.perByte, ∀ j < d.perByte, ∀ q : Byte, q.toNat < 2 ^ d.bits →
    ((q <<< (8 - d.bits * (k + 1))) >>> (8 - d.bits * (j + 1))) &&& BitVec.ofNat 8 (2 ^ d.bits - 1) =
      if j = k then q else 0 := by
  cases d <;> decide +kernel

/-- Reading field `j` of the packed fields gives index `j` back. -/
theorem read_packFields {d : Depth} {qs : List Byte} (hqs : ∀ k, (qs.getD k 0).toNat < 2 ^ d.bits) (m : Nat) {j r : Nat}
    (hj : j < d.perByte) (hr : r ≤ d.perByte) :
    (packFields d qs m r >>> (8 - d.bits * (j + 1))) &&& BitVec.ofNat 8 (2 ^ d.bits - 1) =
      if j < r then qs.getD (m * d.perByte + j) 0 else 0 := by
  induction r with
  | zero => simp
  | succ r ih =>
    rw [packFields_succ, BitVec.ushiftRight_or_distrib, BitVec.and_or_distrib_right, ih (by omega),
      read_field_of_shifted d r (by omega) j hj _ (hqs _)]
    split_ifs <;> first | omega | simp_all

/-- The plane byte of pixel offset p holds field p % n of byte p / n (R176 to R178). -/
theorem byteAddr_eq_div (d : Depth) (p : Nat) : byteAddr d p = p / d.perByte := by
  cases d <;> simp [byteAddr, Depth.perByte]

/-- The packed plane as a list: byte m where m is below its length. -/
theorem pack_getElem? {d : Depth} {qs : List Byte} {m : Nat}
    (h : m < (qs.length + d.perByte - 1) / d.perByte) : (pack d qs)[m]? = some (packByte d qs m) := by
  simp [pack, h]

/-- The packed plane has a byte for every `n` indices, and one for the rest (R203). -/
theorem pack_length (d : Depth) (qs : List Byte) : (pack d qs).length = (qs.length * d.bits + 7) / 8 := by
  rw [pack, List.length_map, List.length_range]
  cases d <;> simp only [Depth.perByte, Depth.bits] <;> omega

/-- Unpacking a packed plane gives each index back (R176 to R178, R197 to R200). -/
theorem unpackIndex_pack {d : Depth} {cs : List Color8} {i : Nat} {c : Color8} (h : cs[i]? = some c) :
    ∃ b, (pack d (cs.map (quantize d)))[byteAddr d i]? = some b ∧ unpackIndex d i b = quantize d c := by
  have hi : i < cs.length := (List.getElem?_eq_some_iff.1 h).1
  have hper : 0 < d.perByte := by cases d <;> decide
  have hbound (k : Nat) : ((cs.map (quantize d)).getD k 0).toNat < 2 ^ d.bits := by
    rw [List.getD_eq_getElem?_getD, List.getElem?_map]
    cases cs[k]? with
    | none => exact Nat.two_pow_pos _
    | some x => exact quantize_lt d x
  refine ⟨packByte d (cs.map (quantize d)) (i / d.perByte), ?_, ?_⟩
  · rw [byteAddr_eq_div, pack_getElem?]
    rw [List.length_map]
    cases d <;> simp only [Depth.perByte] <;> omega
  · rw [unpackIndex_eq, packByte_eq_packFields, read_packFields hbound _ (Nat.mod_lt _ hper) le_rfl,
      if_pos (Nat.mod_lt _ hper), Nat.div_add_mod', List.getD_eq_getElem?_getD, List.getElem?_map, h]
    rfl

/-! ### The parts of an encode -/

/-- Blocks of four bytes side by side: byte j is byte j % 4 of block j / 4. -/
theorem flatMap_range_getElem? {f : Nat → List Byte} (hf : ∀ k, (f k).length = 4) {n j : Nat} (hj : j < 4 * n) :
    ((List.range n).flatMap f)[j]? = (f (j / 4))[j % 4]? := by
  induction n with
  | zero => omega
  | succ n ih =>
    have hlen : ((List.range n).flatMap f).length = 4 * n := by simp [List.length_flatMap, hf, Nat.mul_comm]
    rw [List.range_succ, List.flatMap_append, List.flatMap_singleton]
    by_cases hlt : j < 4 * n
    · rw [List.getElem?_append_left (by omega), ih hlt]
    · have hdiv : j / 4 = n := by omega
      have hmod : j - 4 * n = j % 4 := by omega
      rw [List.getElem?_append_right (by omega), hlen, hdiv, hmod]

/-- Byte j of the palette bytes is channel j % 4 of entry j / 4 (R196). -/
theorem paletteBytes_getElem? (d : Depth) (color : Byte → Color8) {j : Nat} (hj : j < 4 * d.palSize) :
    (paletteBytes d color)[j]? = some (channelOf (color (BitVec.ofNat 8 (j / 4))) (j % 4)) := by
  have hmod : j % 4 < 4 := by omega
  rw [paletteBytes, flatMap_range_getElem? (fun _ => rfl) hj, channelOf_eq_getD _ hmod,
    List.getD_eq_getElem _ _ (by exact hmod)]
  exact List.getElem?_eq_getElem _

/-- Four bytes for each of the N entries (R203). -/
theorem paletteBytes_length (d : Depth) (color : Byte → Color8) : (paletteBytes d color).length = 4 * d.palSize := by
  simp [paletteBytes, List.length_flatMap, Nat.mul_comm]

/-- The length of an encode by its parts (R203). -/
theorem encodeStream_length {o : DimOrder} {d : Depth} {ep ps : Bool} {w h : BitVec 16} {px : List Color16}
    {pal : Byte → Color8} (hpx : w.toNat * h.toNat ≤ px.length) :
    (encodeStream o d ep ps w h px pal).length =
      12 + (if ep then 4 * d.palSize else 0) + (w.toNat * h.toNat * d.bits + 7) / 8 := by
  have hq : (quantized d (px.take (w.toNat * h.toNat))).length = w.toNat * h.toNat := by
    rw [quantized, List.length_map, List.length_take, Nat.min_eq_left hpx]
  rw [encodeStream, List.length_append, List.length_append, headerBytes_length, pack_length, hq]
  cases ep
  · rfl
  · simp [paletteBytes_length]

end Sys2Proof.Machine

namespace Sys2Proof.Proofs

open Sys2Proof.Machine

/-- Settles O57: header, palette and plane each have their length. -/
theorem encodedLength : Obligations.EncodedLength :=
  fun _ _ _ _ _ _ _ _ hpx => encodeStream_length hpx

/-- Settles O58: reading a field of the packed fields gives its index. -/
theorem unpackInvertsPack : Obligations.UnpackInvertsPack :=
  fun _ _ _ _ h => unpackIndex_pack h

end Sys2Proof.Proofs
end

section
/-! PROOFS. The round trip of an image on the closed forms (44_encoder.md R204): decoding what an encode
emits. -/

namespace Sys2Proof.Machine

/-! ### The bytes before an `Eos` -/

/-- The bytes before the first `Eos`. -/
theorem leadBytes_map_append_eos (bs : List Byte) (rest : List InItem) :
    leadBytes (bs.map .byte ++ .eos :: rest) = bs := by
  induction bs with
  | nil => rfl
  | cons b bs ih => simp [leadBytes, ih]

/-! ### The header of an encode, read back -/

section
variable (o : DimOrder) (dc : BitVec 2) (ep : Bool) (w h : BitVec 16) (bs : List Byte)

/-- The signature matches (R192). -/
theorem firstMismatch_headerBytes : firstMismatch (headerBytes o dc ep w h ++ bs) = none := by
  cases o <;> rfl

/-- The mode byte is at offset 7 (R192, R193). -/
theorem headerBytes_mode : (headerBytes o dc ep w h ++ bs).getD 7 0 = encModeByte dc ep := by
  cases o <;> rfl

/-- The width is read back (R192, R194). -/
theorem headerBytes_width : dimWidth o (streamDims (headerBytes o dc ep w h ++ bs)) = w := by
  cases o <;> exact dim16_extractLsb' w

/-- The height is read back (R192, R194). -/
theorem headerBytes_height : dimHeight o (streamDims (headerBytes o dc ep w h ++ bs)) = h := by
  cases o <;> exact dim16_extractLsb' h

end

/-- The depth of a depth's code (R74). -/
@[simp] theorem depthOf_code (d : Depth) : depthOf d.code = some d := by
  cases d <;> rfl

/-! ### The palette of an encode, read back -/

/-- An offset past a header of 12 bytes. -/
theorem getD_header_append {hs bs : List Byte} (hlen : hs.length = 12) (j : Nat) :
    (hs ++ bs).getD (12 + j) 0 = bs.getD j 0 := by
  rw [List.getD_append_right _ _ _ _ (by omega), hlen, Nat.add_sub_cancel_left]

/-- An entry of the emitted palette is read back (R76, R196). -/
theorem streamColor_encoded {hs bs : List Byte} (hlen : hs.length = 12) {d : Depth} (color : Byte → Color8) {k : Nat}
    (hk : k < d.palSize) :
    streamColor (hs ++ (paletteBytes d color ++ bs)) k = color (BitVec.ofNat 8 k) := by
  have hbyte (i : Nat) (hi : i < 4) :
      (hs ++ (paletteBytes d color ++ bs)).getD (12 + (4 * k + i)) 0 = channelOf (color (BitVec.ofNat 8 k)) i := by
    have hlt : 4 * k + i < 4 * d.palSize := by omega
    have hdiv : (4 * k + i) / 4 = k := by omega
    have hmod : (4 * k + i) % 4 = i := by omega
    rw [getD_header_append hlen, List.getD_append _ _ _ _ (by rwa [paletteBytes_length]),
      List.getD_eq_getElem?_getD, paletteBytes_getElem? d color hlt, hdiv, hmod]
    rfl
  have h1 : 13 + 4 * k = 12 + (4 * k + 1) := by omega
  have h2 : 14 + 4 * k = 12 + (4 * k + 2) := by omega
  have h3 : 15 + 4 * k = 12 + (4 * k + 3) := by omega
  rw [streamColor, h1, h2, h3, hbyte 1 (by decide), hbyte 2 (by decide), hbyte 3 (by decide)]
  rw [show 12 + 4 * k = 12 + (4 * k + 0) from rfl, hbyte 0 (by decide)]
  rfl

/-! ### Decoding an encode -/

/-- The configuration of an encode, followed by any plane bytes and an `Eos` (R141, R204). -/
theorem decodeConfig_encoded (o : DimOrder) (d : Depth) (ep : Bool) (w h : BitVec 16) (color : Byte → Color8)
    (p : List Byte) :
    decodeConfig o ((headerBytes o d.code ep w h ++ ((if ep then paletteBytes d color else []) ++ p)).map .byte
        ++ [.eos]) =
      .ok ⟨encModeByte d.code ep, w, h, d,
        (List.range d.palSize).map (fun k => (if ep then color else rom d) (BitVec.ofNat 8 k)),
        headerLen d ep⟩ := by
  have hmode := headerBytes_mode o d.code ep w h ((if ep then paletteBytes d color else []) ++ p)
  have hlen : 12 ≤ (headerBytes o d.code ep w h ++ ((if ep then paletteBytes d color else []) ++ p)).length := by
    rw [List.length_append, headerBytes_length]; omega
  have hdc : modeDC (encModeByte d.code ep) = d.code := modeDC_modeByteOf _ _ _
  have hpf : modePF (encModeByte d.code ep) = ep := modePF_modeByteOf _ _ _
  simp only [decodeConfig, leadBytes_map_append_eos, firstMismatch_headerBytes, hmode, headerBytes_width,
    headerBytes_height, hdc, hpf, depthOf_code]
  rw [if_neg (by omega), if_neg (by omega)]
  cases ep with
  | false => rfl
  | true =>
    have hlong : ¬ (headerBytes o d.code true w h ++ (paletteBytes d color ++ p)).length < 12 + 4 * d.palSize := by
      rw [List.length_append, List.length_append, headerBytes_length, paletteBytes_length]; omega
    simp only [if_true, if_neg hlong, headerLen, DecodeOutcome.ok.injEq, ConfigResult.mk.injEq, true_and, and_true]
    refine List.map_congr_left fun k hk => ?_
    exact streamColor_encoded (headerBytes_length ..) color (List.mem_range.1 hk)

/-- A whole encode decodes to its configuration and its packed plane (R204). -/
theorem decodeFull_encoded {o : DimOrder} {cap : Nat} {d : Depth} {ep : Bool} {w h : BitVec 16}
    {color : Byte → Color8} {p : List Byte} (hcap : p.length ≤ cap) :
    decodeFull o cap ((headerBytes o d.code ep w h ++ ((if ep then paletteBytes d color else []) ++ p)).map .byte
        ++ [.eos]) =
      .ok (⟨encModeByte d.code ep, w, h, d,
        (List.range d.palSize).map (fun k => (if ep then color else rom d) (BitVec.ofNat 8 k)),
        headerLen d ep⟩, p) := by
  have hdrop : ((headerBytes o d.code ep w h ++ ((if ep then paletteBytes d color else []) ++ p)).map InItem.byte
      ++ [InItem.eos]).drop (headerLen d ep) = p.map InItem.byte ++ [InItem.eos] := by
    rw [← List.append_assoc, List.map_append, List.append_assoc]
    apply List.drop_left'
    rw [List.length_map, List.length_append, headerBytes_length, headerLen]
    cases ep <;> simp [paletteBytes_length]
  simp only [decodeFull, decodeConfig_encoded, hdrop, leadBytes_map_append_eos]
  rw [if_neg (by omega), if_pos (by simp)]

/-- The index of pixel `i` of a packed plane, at its coordinates (R175, R181). -/
theorem indexAt_pack {d : Depth} {w h : BitVec 16} {cs : List Color8} {i : Nat} {c : Color8}
    (hlen : cs.length = w.toNat * h.toNat) (hc : cs[i]? = some c) :
    indexAt d w h (pack d (cs.map (quantize d))) (i % w.toNat : Nat) (i / w.toNat : Nat) =
      .index (quantize d c) := by
  have hi : i < w.toNat * h.toNat := hlen ▸ (List.getElem?_eq_some_iff.1 hc).1
  have hw : 0 < w.toNat := Nat.pos_of_mul_pos_right (by omega : 0 < w.toNat * h.toNat)
  have hx : i % w.toNat < w.toNat := Nat.mod_lt _ hw
  have hy : i / w.toNat < h.toNat := Nat.div_lt_of_lt_mul hi
  obtain ⟨b, hb, hidx⟩ := unpackIndex_pack (d := d) hc
  have hp : ((i / w.toNat : Nat) : Int).toNat * w.toNat + ((i % w.toNat : Nat) : Int).toNat = i := by
    rw [Int.toNat_natCast, Int.toNat_natCast, Nat.div_add_mod']
  rw [indexAt, if_pos ⟨Int.natCast_nonneg _, Int.ofNat_lt.2 hx, Int.natCast_nonneg _, Int.ofNat_lt.2 hy⟩]
  simp only [hp, hb, hidx]

end Sys2Proof.Machine

namespace Sys2Proof.Proofs

open Sys2Proof.Machine

/-- Settles O59: header and palette are read back from their places, and each index from the plane. -/
theorem encodedImageDecodesBack : Obligations.EncodedImageDecodesBack := by
  intro o cap d ep ps w h px pal hpx hcap
  have hquant : quantized d (px.take (w.toNat * h.toNat)) = (px.map colorAsBytes).map (quantize d) := by
    rw [← hpx, List.take_length, quantized, List.map_map]
    rfl
  have hplane : (pack d ((px.map colorAsBytes).map (quantize d))).length ≤ cap := by
    rwa [pack_length, List.length_map, List.length_map, hpx]
  rw [encodeStream, hquant, List.append_assoc]
  refine ⟨_, _, decodeFull_encoded hplane, encModeByte_eq_append _ _, rfl, rfl, ?_, fun i x hx => ?_⟩
  · cases ep <;> cases ps <;> rfl
  · exact indexAt_pack (by rw [List.length_map, hpx]) (by rw [List.getElem?_map, hx]; rfl)

end Sys2Proof.Proofs
end

section
/-! PROOFS. ENC run by the step rules against its closed form (44_encoder.md R206): the state of an
encode after each number of steps, phase by phase. -/

namespace Sys2Proof.Machine

/-! ### Runs -/

/-- A run through states `f 0`, `f 1`, …, each one step after the one before. -/
theorem stepsTo_of_steps {f : Nat → State} {n : Nat} (h : ∀ k < n, step (f k) = .next (f (k + 1))) :
    stepsTo n (f 0) = .next (f n) := by
  induction n with
  | zero => rfl
  | succ n ih =>
    rw [stepsTo_add (k := 1) (ih fun k hk => h k (by omega)), stepsTo_succ 0 (h n (by omega))]
    rfl

/-- Two runs, one after the other. -/
theorem stepsTo_trans {j k : Nat} {s t u : State} (h1 : stepsTo j s = .next t) (h2 : stepsTo k t = .next u) :
    stepsTo (j + k) s = .next u := by
  rw [stepsTo_add h1, h2]

/-! ### The header -/

/-- The header bytes of the encode that `u` has latched (R192). -/
def latchedHeader (u : State) : List Byte := headerBytes u.cfg.dimOrder u.eDC u.eEP u.eW u.eH

/-- An encode that began as `u`, with `k` header bytes emitted (R195). -/
def encHdrAt (u : State) (k : Nat) : State :=
  { u with
    outFifo := u.outFifo ++ (latchedHeader u).take k
    outPos := BitVec.ofNat 64 k
    phase := if k = 12 then (if u.eEP then .encPal else .encPix) else .encHdr }

/-- One header byte (R195). -/
theorem step_encHdrAt {u : State} (ha : u.agenda = []) (hb : u.busy = true) {k : Nat} (hk : k < 12) :
    step (encHdrAt u k) = .next (encHdrAt u (k + 1)) := by
  obtain ⟨b, hget⟩ : ∃ b, (latchedHeader u)[k]? = some b :=
    ⟨_, List.getElem?_eq_getElem (by rw [latchedHeader, headerBytes_length]; exact hk)⟩
  have hpos : (encHdrAt u k).outPos.toNat = k := by simp [encHdrAt]; omega
  have hbyte : (latchedHeader (encHdrAt u k))[(encHdrAt u k).outPos.toNat]? = some b := by
    rw [hpos]; exact hget
  have hphase : (encHdrAt u k).phase = .encHdr := if_neg (by omega)
  have htake := List.take_add_one (l := latchedHeader u) (i := k)
  rw [hget] at htake
  rw [step_encHdr (s := encHdrAt u k) ha hb hphase, encHdrStep_emit hbyte, hpos, hphase]
  simp [encHdrAt, outWrite, htake, BitVec.ofNat_add]
  rfl

/-! ### The palette -/

/-- An encode that began its palette as `u`, with `j` palette bytes emitted (R196). -/
def encPalAt (u : State) (d : Depth) (j : Nat) : State :=
  { u with
    outFifo := u.outFifo ++ (paletteBytes d (emittedEntry d u)).take j
    outPos := BitVec.ofNat 64 (12 + j)
    phase := if j = 4 * d.palSize then .encPix else .encPal }

/-- One palette byte (R196). -/
theorem step_encPalAt {u : State} {d : Depth} (ha : u.agenda = []) (hb : u.busy = true)
    (hd : depthOf u.eDC = some d) {j : Nat} (hj : j < 4 * d.palSize) :
    step (encPalAt u d j) = .next (encPalAt u d (j + 1)) := by
  have hN : d.palSize ≤ 256 := by cases d <;> decide
  have hpos : (encPalAt u d j).outPos.toNat = 12 + j := by simp [encPalAt]; omega
  have hphase : (encPalAt u d j).phase = .encPal := if_neg (by omega)
  have hentry : emittedEntry d (encPalAt u d j) = emittedEntry d u := rfl
  have htake := List.take_add_one (l := paletteBytes d (emittedEntry d u)) (i := j)
  rw [paletteBytes_getElem? d _ hj] at htake
  rw [step_encPal (s := encPalAt u d j) ha hb hphase, encPalStep_emit (s := encPalAt u d j) hd hpos hj, hphase,
    hentry]
  simp [encPalAt, outWrite, htake, BitVec.ofNat_add, add_assoc]

/-! ### The pixels -/

/-- At every depth an index goes into the next field of ACC; at 8 bits it fills an empty byte (R197 to R199). -/
theorem packIndex_eq_packField {d : Depth} {s : State} (h8 : d = .d8 → s.acc = 0 ∧ s.nfill = 0) (q : Byte) :
    packIndex d q s = packField (q <<< (8 - d.bits * (s.nfill.toNat + 1))) d.perByte s := by
  cases d with
  | d1 =>
    have h : 8 - 1 * (s.nfill.toNat + 1) = 7 - s.nfill.toNat := by omega
    simp only [packIndex, Depth.bits, Depth.perByte, h]
  | d2 =>
    have h : 8 - 2 * (s.nfill.toNat + 1) = 6 - 2 * s.nfill.toNat := by omega
    simp only [packIndex, Depth.bits, Depth.perByte, h]
  | d8 =>
    obtain ⟨hacc, hn⟩ := h8 rfl
    rw [packField_full (by simp [hn, Depth.perByte])]
    simp [packIndex, outWrite, Depth.bits, hacc, hn]

/-- An encode that began its pixels as `u`, with `i` of the indices `qs` packed and `pix` left in PIX
(R197 to R200). -/
def encPixAt (u : State) (d : Depth) (qs : List Byte) (i : Nat) (pix : List PixItem) : State :=
  { u with
    pixFifo := pix
    pixCnt := BitVec.ofNat 32 i
    nfill := BitVec.ofNat 3 (i % d.perByte)
    acc := packFields d qs (i / d.perByte) (i % d.perByte)
    outFifo := u.outFifo ++ (List.range (i / d.perByte)).map (packByte d qs)
    outPos := u.outPos + BitVec.ofNat 64 (i / d.perByte) }

/-- One pixel (R197 to R200). -/
theorem step_encPixAt {u : State} {d : Depth} {qs : List Byte} (ha : u.agenda = []) (hb : u.busy = true)
    (hp : u.phase = .encPix) (hd : depthOf u.eDC = some d) {i : Nat} (hi : i < totalPixels u) {c : Color16}
    (hq : qs[i]? = some (quantize d (colorAsBytes c))) (pix : List PixItem) :
    step (encPixAt u d qs i (.pix c :: pix)) = .next (encPixAt u d qs (i + 1) pix) := by
  have htotal := total_le u
  have hper : d.perByte = 1 ∨ d.perByte = 4 ∨ d.perByte = 8 := by cases d <;> simp [Depth.perByte]
  have hmod : i % d.perByte < d.perByte := Nat.mod_lt _ (by omega)
  have hcnt : (encPixAt u d qs i (.pix c :: pix)).pixCnt.toNat = i := by simp [encPixAt]; omega
  have hfill : (encPixAt u d qs i (.pix c :: pix)).nfill.toNat = i % d.perByte := by simp [encPixAt]; omega
  have hacc : packFields d qs (i / d.perByte) (i % d.perByte) |||
      (quantize d (colorAsBytes c) <<< (8 - d.bits * (i % d.perByte + 1))) =
      packFields d qs (i / d.perByte) (i % d.perByte + 1) := by
    rw [packFields_succ, Nat.div_add_mod', List.getD_eq_getElem?_getD, hq]
    rfl
  rw [step_encPix (s := encPixAt u d qs i (.pix c :: pix)) ha hb hp,
    encPixStep_pix (s := encPixAt u d qs i (.pix c :: pix)) hd (hcnt.symm ▸ hi) rfl (hfill.symm ▸ hmod)]
  rw [packIndex_eq_packField (s := { encPixAt u d qs i (.pix c :: pix) with pixFifo := pix })
    (fun h8 => by subst h8; simp [encPixAt, Depth.perByte, Nat.mod_one])]
  simp only [hfill]
  by_cases hfull : i % d.perByte + 1 = d.perByte
  · have hdiv : (i + 1) / d.perByte = i / d.perByte + 1 := by
      rcases hper with h | h | h <;> rw [h] at hfull ⊢ <;> omega
    have hmod' : (i + 1) % d.perByte = 0 := by
      rcases hper with h | h | h <;> rw [h] at hfull ⊢ <;> omega
    rw [packField_full (by simpa only [hfill] using hfull)]
    rw [hfull, ← packByte_eq_packFields] at hacc
    simp [encPixAt, hdiv, hmod', hfull, hacc, List.range_succ, BitVec.ofNat_add, add_assoc]
  · have hdiv : (i + 1) / d.perByte = i / d.perByte := by
      rcases hper with h | h | h <;> rw [h] at hfull ⊢ <;> omega
    have hmod' : (i + 1) % d.perByte = i % d.perByte + 1 := by
      rcases hper with h | h | h <;> rw [h] at hfull ⊢ <;> omega
    rw [packField_partial (by simpa only [hfill] using hfull)]
    simp [encPixAt, hdiv, hmod', hacc, BitVec.ofNat_add]

/-- What the end of an encode adds to OUT completes the packed plane: the last partial byte (R200). -/
theorem pack_eq_emitted (d : Depth) (qs : List Byte) : pack d qs =
    (List.range (qs.length / d.perByte)).map (packByte d qs) ++
      if qs.length % d.perByte = 0 then []
      else [packFields d qs (qs.length / d.perByte) (qs.length % d.perByte)] := by
  have hper : d.perByte = 1 ∨ d.perByte = 4 ∨ d.perByte = 8 := by cases d <;> simp [Depth.perByte]
  rw [pack]
  split_ifs with h
  · have hdiv : (qs.length + d.perByte - 1) / d.perByte = qs.length / d.perByte := by
      rcases hper with hp | hp | hp <;> rw [hp] at h ⊢ <;> omega
    rw [hdiv, List.append_nil]
  · have hdiv : (qs.length + d.perByte - 1) / d.perByte = qs.length / d.perByte + 1 := by
      rcases hper with hp | hp | hp <;> rw [hp] at h ⊢ <;> omega
    have hle : qs.length % d.perByte ≤ d.perByte := (Nat.mod_lt _ (by omega)).le
    have hlast : packByte d qs (qs.length / d.perByte) =
        packFields d qs (qs.length / d.perByte) (qs.length % d.perByte) :=
      packFields_of_length_le hle (Nat.div_add_mod' _ _).ge
    rw [hdiv, List.range_succ, List.map_append, List.map_singleton, hlast]

/-- The end of an encode: every index packed, and the plane's bytes in OUT (R200). -/
theorem step_encPixAt_end {u : State} {d : Depth} {qs : List Byte} (ha : u.agenda = []) (hb : u.busy = true)
    (hp : u.phase = .encPix) (hn : qs.length = totalPixels u) (pix : List PixItem) :
    ∃ t, step (encPixAt u d qs qs.length pix) = .next t ∧ t.busy = false ∧ t.err = u.err ∧ t.pixFifo = pix ∧
      t.pixCnt.toNat = qs.length ∧ t.outFifo = u.outFifo ++ pack d qs ∧
      t.outPos = u.outPos + BitVec.ofNat 64 (pack d qs).length := by
  have htotal := total_le u
  have hcnt : (encPixAt u d qs qs.length pix).pixCnt.toNat = qs.length := by simp [encPixAt]; omega
  have hmod : qs.length % d.perByte < 8 := by
    cases d <;> simp only [Depth.perByte] <;> omega
  have hfill : (encPixAt u d qs qs.length pix).nfill = 0 ↔ qs.length % d.perByte = 0 := by
    have : (BitVec.ofNat 3 (qs.length % d.perByte)).toNat = qs.length % d.perByte := by simp; omega
    show BitVec.ofNat 3 (qs.length % d.perByte) = 0 ↔ _
    rw [← BitVec.toNat_inj, this]
    rfl
  rw [step_encPix (s := encPixAt u d qs qs.length pix) ha hb hp,
    encPixStep_finish (s := encPixAt u d qs qs.length pix) (hcnt.trans hn), finishEncode, pack_eq_emitted]
  by_cases h0 : qs.length % d.perByte = 0
  · rw [if_pos (hfill.2 h0), if_pos h0]
    refine ⟨_, rfl, rfl, rfl, rfl, hcnt, by simp [encPixAt], by simp [encPixAt]⟩
  · rw [if_neg (fun h => h0 (hfill.1 h)), if_neg h0]
    refine ⟨_, rfl, rfl, rfl, rfl, hcnt, by simp [encPixAt], by simp [encPixAt, BitVec.ofNat_add, add_assoc]⟩

/-! ### The whole encode -/

/-- The state in which an accepted ENC starts (R190, R227). -/
def encStart (d : Depth) (ep ps : Bool) (s : State) : State :=
  startEncode d.code ep ps (clearCounts (accept (commandWord 0x3 d.code ep ps 0) s))

/-- A legal ENC of a known depth with dimensions that fit starts (R190). -/
theorem exec_enc_start {d : Depth} {ep ps : Bool} {s : State} (hb : s.busy = false)
    (hw : s.argW.toNat ≤ 65535) (hh : s.argH.toNat ≤ 65535) :
    exec (.enc d.code ep ps 0) s = .next (encStart d ep ps s) := by
  have hdc : d.code ≠ 3 := by cases d <;> decide
  rw [exec_enc_zero, issue_idle hb, encBody_start (s := accept _ s) hdc hw hh]
  rfl

/-- The pixels of an encode that has come to them, to its end (R197 to R200). -/
theorem encPix_run {u : State} {d : Depth} {px : List Color16} {rest : List PixItem} (ha : u.agenda = [])
    (hb : u.busy = true) (hp : u.phase = .encPix) (hd : depthOf u.eDC = some d)
    (hcnt : u.pixCnt = 0) (hfill : u.nfill = 0) (hacc : u.acc = 0)
    (hn : px.length = totalPixels u) (hf : u.pixFifo = px.map .pix ++ rest) :
    ∃ k t, stepsTo k u = .next t ∧ t.busy = false ∧ t.err = u.err ∧ t.pixFifo = rest ∧
      t.pixCnt.toNat = px.length ∧ t.outFifo = u.outFifo ++ pack d (quantized d px) ∧
      t.outPos = u.outPos + BitVec.ofNat 64 (pack d (quantized d px)).length := by
  have hlen : (quantized d px).length = px.length := List.length_map _
  have hstart : encPixAt u d (quantized d px) 0 ((px.drop 0).map .pix ++ rest) = u := by
    cases u
    simp_all [encPixAt]
  have hrun := stepsTo_of_steps (n := px.length)
    (f := fun i => encPixAt u d (quantized d px) i ((px.drop i).map .pix ++ rest)) fun i hi => by
      rw [List.drop_eq_getElem_cons hi]
      exact step_encPixAt ha hb hp hd (hn ▸ hi) (by simp [quantized, hi]) _
  simp only [hstart, List.drop_length, List.map_nil, List.nil_append] at hrun
  obtain ⟨t, ht, h⟩ := step_encPixAt_end (d := d) ha hb hp (hlen.trans hn) rest
  rw [hlen] at ht h
  exact ⟨_, t, stepsTo_trans hrun (stepsTo_succ 0 ht), h⟩

/-- Header and palette of an encode, to its pixels (R195, R196). -/
theorem encHdr_run {u : State} {d : Depth} (ha : u.agenda = []) (hb : u.busy = true) (hp : u.phase = .encHdr)
    (hd : depthOf u.eDC = some d) (hpos : u.outPos = 0) :
    ∃ k, stepsTo k u = .next { u with
      outFifo := u.outFifo ++ (latchedHeader u ++
        if u.eEP then paletteBytes d (emittedEntry d u) else [])
      outPos := BitVec.ofNat 64 (headerLen d u.eEP)
      phase := .encPix } := by
  have hstart : encHdrAt u 0 = u := by
    cases u
    simp_all [encHdrAt]
  have hrun := stepsTo_of_steps (f := encHdrAt u) (n := 12) fun k hk => step_encHdrAt ha hb hk
  have htake : (latchedHeader u).take 12 = latchedHeader u :=
    List.take_of_length_le (headerBytes_length ..).le
  rw [hstart] at hrun
  cases hep : u.eEP with
  | false =>
    refine ⟨12, hrun.trans ?_⟩
    simp [encHdrAt, htake, hep, headerLen]
  | true =>
    have hN : 0 ≠ 4 * d.palSize := by cases d <;> decide
    have hpal : encPalAt (encHdrAt u 12) d 0 = encHdrAt u 12 := by
      simp [encPalAt, encHdrAt, hep, hN]
    have hrun' := stepsTo_of_steps (f := encPalAt (encHdrAt u 12) d) (n := 4 * d.palSize) fun j hj =>
      step_encPalAt (u := encHdrAt u 12) ha hb hd hj
    have htake' : (paletteBytes d (emittedEntry d u)).take (4 * d.palSize) = paletteBytes d (emittedEntry d u) :=
      List.take_of_length_le (paletteBytes_length ..).le
    have hentry : emittedEntry d (encHdrAt u 12) = emittedEntry d u := rfl
    rw [hpal] at hrun'
    refine ⟨12 + 4 * d.palSize, (stepsTo_trans hrun hrun').trans ?_⟩
    simp only [encPalAt, hentry, htake']
    simp [encHdrAt, htake, headerLen, hep]

/-- The closed form of the accepted ENC, by what it has latched (R190, R206). -/
theorem encodeStream_encStart (d : Depth) (ep ps : Bool) {s : State} {px : List Color16}
    (hpx : px.length = (s.argW.extractLsb' 0 16).toNat * (s.argH.extractLsb' 0 16).toNat) :
    encodeStream s.cfg.dimOrder d ep ps (s.argW.extractLsb' 0 16) (s.argH.extractLsb' 0 16) px (convert s) =
      latchedHeader (encStart d ep ps s) ++
        (if ep then paletteBytes d (emittedEntry d (encStart d ep ps s)) else []) ++ pack d (quantized d px) := by
  have hw : s.argW.extractLsb' 0 16 = s.argW.setWidth 16 := (BitVec.setWidth_eq_extractLsb' (by decide)).symm
  have hh : s.argH.extractLsb' 0 16 = s.argH.setWidth 16 := (BitVec.setWidth_eq_extractLsb' (by decide)).symm
  have hcolor : emittedEntry d (encStart d ep ps s) = if ps then convert s else rom d := by
    cases ps <;> rfl
  rw [encodeStream, ← hpx, List.take_length, hw, hh, hcolor]
  rfl

/-- The length of a packed plane fits the machine's counters (R37, R38). -/
theorem pack_length_le (d : Depth) {qs : List Byte} (h : qs.length ≤ 4294836225) :
    (pack d qs).length ≤ 4294836225 := by
  rw [pack_length]
  cases d <;> simp only [Depth.bits] <;> omega

end Sys2Proof.Machine

namespace Sys2Proof.Proofs

open Sys2Proof.Machine

/-- Settles O56: header, palette and pixels of the accepted ENC, one run after the other. -/
theorem encRunsAsClosedForm : Obligations.EncRunsAsClosedForm := by
  intro s d ep ps px rest ha hb hw hh hpx hf
  have hpx' : px.length = (s.argW.extractLsb' 0 16).toNat * (s.argH.extractLsb' 0 16).toNat := by
    rw [hpx, ← BitVec.setWidth_eq_extractLsb' (by decide), ← BitVec.setWidth_eq_extractLsb' (by decide),
      BitVec.toNat_setWidth, BitVec.toNat_setWidth, Nat.mod_eq_of_lt (by omega), Nat.mod_eq_of_lt (by omega)]
  have htotal : px.length = totalPixels (encStart d ep ps s) := by
    rw [hpx', ← BitVec.setWidth_eq_extractLsb' (by decide), ← BitVec.setWidth_eq_extractLsb' (by decide)]
    rfl
  have hd : depthOf (encStart d ep ps s).eDC = some d := depthOf_code d
  obtain ⟨k, hk⟩ := encHdr_run (u := encStart d ep ps s) ha rfl rfl hd rfl
  obtain ⟨k', t, ht, hbusy, herr, hpix, hcnt, hout, hpos⟩ := encPix_run (u := { encStart d ep ps s with
      outFifo := _, outPos := _, phase := .encPix }) (rest := rest) ha rfl rfl hd rfl rfl rfl htotal hf
  refine ⟨_, _, t, exec_enc_start hb hw hh, stepsTo_trans hk ht, hbusy, herr, hpix, hcnt, ?_, ?_⟩
  · rw [hout, encodeStream_encStart d ep ps hpx']
    exact List.append_assoc ..
  · have hlen : (quantized d px).length = px.length := List.length_map _
    have hpack := pack_length_le d (qs := quantized d px) (by rw [hlen, htotal]; exact total_le _)
    have hhead : headerLen d ep ≤ 1036 := by
      cases d <;> cases ep <;> decide
    have heq : (encodeStream s.cfg.dimOrder d ep ps (s.argW.extractLsb' 0 16) (s.argH.extractLsb' 0 16) px
        (convert s)).length = headerLen d ep + (pack d (quantized d px)).length := by
      rw [encodeStream_length hpx'.ge, pack_length, hlen, ← hpx', headerLen]
    have hep : (encStart d ep ps s).eEP = ep := rfl
    rw [hpos, heq, hep]
    simp only [BitVec.toNat_add, BitVec.toNat_ofNat]
    omega

end Sys2Proof.Proofs
end

section
/-! PROOFS. The configuration of a decode run by the step rules against its closed form
(41_header_codec.md R141): the state of a decode after each number of bytes, phase by phase. -/

namespace Sys2Proof.Machine

/-! ### The items of IN and the bytes before the first `Eos` -/

/-- A leading byte is an item of IN, and the later items follow it. -/
theorem drop_of_leadBytes {items : List InItem} {k : Nat} {b : Byte} (h : (leadBytes items)[k]? = some b) :
    items.drop k = .byte b :: items.drop (k + 1) := by
  induction items generalizing k with
  | nil => simp [leadBytes] at h
  | cons x items ih =>
    cases x with
    | eos => simp [leadBytes] at h
    | byte c =>
      cases k with
      | zero =>
        obtain rfl : c = b := by simpa [leadBytes] using h
        rfl
      | succ k => exact ih h

/-- After the leading bytes IN is empty or holds an `Eos`. -/
theorem drop_leadBytes_length (items : List InItem) :
    items.drop (leadBytes items).length = [] ∨ ∃ rest, items.drop (leadBytes items).length = .eos :: rest := by
  induction items with
  | nil => exact .inl rfl
  | cons x items ih => cases x <;> simp_all [leadBytes]

/-- A stream with no `Eos` leaves the decode waiting (R139, R255). -/
theorem endsShort_of_nil {α : Type} {items : List InItem} (stage : Phase)
    (h : items.drop (leadBytes items).length = []) : endsShort (α := α) items stage = .waits :=
  if_neg (by have := List.drop_eq_nil_iff.1 h; omega)

/-- An `Eos` after the leading bytes is TruncatedInput (R139). -/
theorem endsShort_of_eos {α : Type} {items rest : List InItem} (stage : Phase)
    (h : items.drop (leadBytes items).length = .eos :: rest) : endsShort (α := α) items stage =
      .error .truncatedInput (leadBytes items).length stage ((leadBytes items).length + 1) :=
  if_pos (by have := congrArg List.length h; simp at this; omega)

/-! ### How a decode ends -/

/-- The decode has failed: the error is recorded, the configuration cleared, and `rest` is left in IN. -/
def DecodeEndedInError (t : State) (kind : ErrKind) (info : Nat) (stage : Phase) (rest : List InItem) : Prop :=
  t.busy = false ∧ t.err = true ∧ t.errKind = kind ∧ t.errInfo = BitVec.ofNat 32 info ∧ t.errStage = stage ∧
    t.ConfigCleared ∧ t.mode = 0 ∧ t.inFifo = rest

/-- In `v` the configuration `c` is read, and `cfg_done` is next (R140): `rest` is left in IN. -/
structure ConfigRead (u v : State) (c : ConfigResult) (rest : List InItem) : Prop where
  agenda : v.agenda = []
  busy : v.busy = true
  curOp : v.curOp = u.curOp
  cfg : v.cfg = u.cfg
  err : v.err = false
  planeValid : v.planeValid = false
  mode : v.mode = c.mode
  width : v.width = c.width
  height : v.height = c.height
  palLen : v.palLen.toNat = c.colors.length
  colors : ∀ j : Fin 256, j.val < c.colors.length → c.colors[j.val]? = some v.palette[j]
  inPos : v.inPos.toNat = c.used
  planeLen : v.planeLen = 0
  inFifo : v.inFifo = rest
  used : c.used ≤ 1036

/-- The steps from `t` end as the closed form says of a decode that began as `u` with `items` in IN. -/
def ConfigRun (u : State) (items : List InItem) (t : State) : DecodeOutcome ConfigResult → Prop
  | .waits => ∃ k t', stepsTo k t = .next t' ∧ t'.Hung
  | .error kind info stage n => ∃ k t', stepsTo k t = .next t' ∧
      DecodeEndedInError t' kind info stage (items.drop n)
  | .ok c => ∃ k v, stepsTo k t = .next (cfgDone v) ∧ ConfigRead u v c (items.drop c.used)

/-- Steps before the run are part of it. -/
theorem ConfigRun.after {u t t' : State} {items : List InItem} {r : DecodeOutcome ConfigResult} {j : Nat}
    (hj : stepsTo j t = .next t') (h : ConfigRun u items t' r) : ConfigRun u items t r := by
  cases r with
  | waits =>
    obtain ⟨k, t'', hk, ht⟩ := h
    exact ⟨j + k, t'', stepsTo_trans hj hk, ht⟩
  | error kind info stage n =>
    obtain ⟨k, t'', hk, ht⟩ := h
    exact ⟨j + k, t'', stepsTo_trans hj hk, ht⟩
  | ok c =>
    obtain ⟨k, v, hk, hv⟩ := h
    exact ⟨j + k, v, stepsTo_trans hj hk, hv⟩

/-- A step that raises an error of a decode ends it (R221, R224). -/
theorem DecodeEndedInError.of_raise {t : State} (kind : ErrKind) (info : Nat) (hdec : t.curOp.isDecode = true) :
    DecodeEndedInError (raise kind (BitVec.ofNat 32 info) t) kind info t.phase t.inFifo := by
  rw [raise_decoding hdec]
  exact ⟨rfl, rfl, rfl, rfl, rfl, ⟨rfl, rfl, rfl, rfl, rfl, rfl⟩, rfl, rfl⟩

/-- A position as ERR_INFO records it (R222). -/
theorem posInfo_ofNat (n : Nat) : posInfo (BitVec.ofNat 64 n) = BitVec.ofNat 32 n := by
  apply BitVec.eq_of_toNat_eq
  simp [posInfo]

/-- A decode that has taken every leading byte in HDR, DIM or PAL waits or is truncated (R139, R152, R255). -/
theorem configRun_endsShort {u t : State} {items : List InItem} (ha : t.agenda = []) (hb : t.busy = true)
    (hphase : t.phase = .hdr ∨ t.phase = .dim ∨ t.phase = .pal) (hdec : t.curOp.isDecode = true)
    (hf : t.inFifo = items.drop (leadBytes items).length) (hpos : t.inPos = BitVec.ofNat 64 (leadBytes items).length)
    (heos : ∀ rest, t.inFifo = .eos :: rest →
      step t = .next (raise .truncatedInput (posInfo t.inPos) { t with inFifo := rest })) :
    ConfigRun u items t (endsShort items t.phase) := by
  rcases drop_leadBytes_length items with hnil | ⟨rest, hrest⟩
  · rw [endsShort_of_nil _ hnil]
    have hwait : t.phase = .hdr ∨ t.phase = .dim ∨ t.phase = .pal ∨ t.phase = .plane :=
      hphase.imp_right fun h => h.imp_right .inl
    exact ⟨0, t, rfl, ⟨hb, .inl ⟨hf.trans hnil, hwait⟩⟩, ha⟩
  · rw [endsShort_of_eos _ hrest]
    have hlater : rest = items.drop ((leadBytes items).length + 1) := by
      rw [← List.drop_drop, hrest]; rfl
    refine ⟨1, _, stepsTo_succ 0 (heos rest (hf.trans hrest)), ?_⟩
    have hinfo : posInfo t.inPos = BitVec.ofNat 32 (leadBytes items).length := by rw [hpos, posInfo_ofNat]
    rw [hinfo, ← hlater]
    exact DecodeEndedInError.of_raise (t := { t with inFifo := rest }) _ _ hdec

/-! ### The phase HDR -/

/-- SIG_MISS after `k` signature bytes: the first offset that differs, or 7 (R133). -/
def sigMissAfter (bs : List Byte) (k : Nat) : BitVec 3 :=
  match (List.range k).find? fun j => bs[j]? != magic[j]? with
  | some m => BitVec.ofNat 3 m
  | none => 7

/-- One more signature byte (R133). -/
theorem sigMissAfter_succ {bs : List Byte} {k : Nat} {b : Byte} (hk : k < 7) (hb : bs[k]? = some b) :
    sigMissAfter bs (k + 1) =
      if magic[k]? ≠ some b ∧ sigMissAfter bs k = 7 then BitVec.ofNat 3 k else sigMissAfter bs k := by
  unfold sigMissAfter
  rw [List.range_succ, List.find?_append, List.find?_singleton, hb]
  cases hfind : (List.range k).find? fun j => bs[j]? != magic[j]? with
  | some m =>
    have hm : m < k := List.mem_range.1 (List.mem_of_find?_eq_some hfind)
    have hne : BitVec.ofNat 3 m ≠ 7 := by bv_omega
    exact (if_neg fun h => hne h.2).symm
  | none =>
    by_cases heq : magic[k]? = some b
    · simp [heq]
    · have hbne : (some b != magic[k]?) = true := bne_iff_ne.2 (Ne.symm heq)
      simp only [hbne, if_true, Option.none_or]
      exact (if_pos ⟨heq, trivial⟩).symm

/-- After the seven signature bytes it is the closed form's first mismatch (R141). -/
theorem sigMissAfter_seven (bs : List Byte) :
    sigMissAfter bs 7 = (firstMismatch bs).elim 7 (BitVec.ofNat 3) := by
  unfold sigMissAfter firstMismatch
  split <;> next h => rw [h]; rfl

/-- A decode that began in `s`, with `k` of the signature bytes `bs` taken (R133). -/
def hdrAt (op : CurOp) (s : State) (bs : List Byte) (k : Nat) : State :=
  { startDecode op s with
    inFifo := s.inFifo.drop k
    inPos := BitVec.ofNat 64 k
    sigMiss := sigMissAfter bs k }

/-- No signature byte is taken yet (R132). -/
theorem hdrAt_zero (op : CurOp) (s : State) (bs : List Byte) : hdrAt op s bs 0 = startDecode op s := rfl

/-- DIM_BUF after `k` header bytes: the dimension bytes among them (R137). -/
def dimBufAfter (bs : List Byte) (k : Nat) : Vector Byte 4 :=
  Vector.ofFn fun i => if i.val + 8 < k then bs.getD (i.val + 8) 0 else 0

/-- One more dimension byte (R137). -/
theorem dimBufAfter_succ {bs : List Byte} {k : Nat} {b : Byte} (hge : 8 ≤ k) (hb : bs[k]? = some b) :
    (dimBufAfter bs k).setIfInBounds (k - 8) b = dimBufAfter bs (k + 1) := by
  ext i hi
  have hplace : k - 8 = i ↔ i + 8 = k := by omega
  simp only [dimBufAfter, Vector.getElem_setIfInBounds, Vector.getElem_ofFn, hplace]
  by_cases heq : i + 8 = k
  · simp [heq, hb]
  · have hlt : i + 8 < k + 1 ↔ i + 8 < k := by omega
    simp only [heq, if_false, hlt]

/-- After the last of them it holds the four dimension bytes (R75). -/
theorem dimBufAfter_twelve (bs : List Byte) : dimBufAfter bs 12 = streamDims bs := by
  ext i hi
  interval_cases i <;> simp [dimBufAfter, streamDims]

/-- A decode that began in `s`, with `k` of the header bytes `bs` taken, its mode byte among them (R137). -/
def dimAt (op : CurOp) (s : State) (bs : List Byte) (k : Nat) : State :=
  { startDecode op s with
    inFifo := s.inFifo.drop k
    inPos := BitVec.ofNat 64 k
    mode := bs.getD 7 0
    phase := .dim
    dimBuf := dimBufAfter bs k }

/-- A decode that began in `s`, with all 12 header bytes taken, before the color-model resolution (R138, R150). -/
def headerTaken (op : CurOp) (s : State) (bs : List Byte) : State :=
  { dimAt op s bs 12 with
    width := dimWidth s.cfg.dimOrder (streamDims bs)
    height := dimHeight s.cfg.dimOrder (streamDims bs) }

section
variable {op : CurOp} {s : State} {bs : List Byte}

/-- One signature byte (R133). -/
theorem step_hdrAt (ha : s.agenda = []) (hbs : leadBytes s.inFifo = bs) {k : Nat} (hk : k < 7)
    (hlen : k < bs.length) : step (hdrAt op s bs k) = .next (hdrAt op s bs (k + 1)) := by
  subst hbs
  obtain ⟨b, hb⟩ : ∃ b, (leadBytes s.inFifo)[k]? = some b := ⟨_, List.getElem?_eq_getElem hlen⟩
  have hpos : (hdrAt op s (leadBytes s.inFifo) k).inPos.toNat = k := by simp [hdrAt]; omega
  rw [step_codec (s := hdrAt op s (leadBytes s.inFifo) k) ha, codecStep_hdr rfl rfl,
    hdrStep_byte (s := hdrAt op s (leadBytes s.inFifo) k) (drop_of_leadBytes hb) (hpos.symm ▸ hk), hpos]
  simp [hdrAt, takeSigByte, sigMissAfter_succ hk hb, BitVec.ofNat_add]
  rfl

/-- The mode byte ends the signature: it is taken, or the mismatch is reported (R134). -/
theorem step_hdrAt_mode (ha : s.agenda = []) (hbs : leadBytes s.inFifo = bs) (hlen : 7 < bs.length) :
    step (hdrAt op s bs 7) =
      .next (takeModeByte (bs.getD 7 0) { hdrAt op s bs 7 with inFifo := s.inFifo.drop 8 }) := by
  subst hbs
  obtain ⟨b, hb⟩ : ∃ b, (leadBytes s.inFifo)[7]? = some b := ⟨_, List.getElem?_eq_getElem hlen⟩
  rw [step_codec (s := hdrAt op s (leadBytes s.inFifo) 7) ha, codecStep_hdr rfl rfl,
    hdrStep_modeByte (s := hdrAt op s (leadBytes s.inFifo) 7) (drop_of_leadBytes hb) rfl, exec_decodeModeByte,
    actModeByte_take rfl, List.getD_eq_getElem?_getD, hb]
  rfl

/-- What a dimension byte does to the state (R137). -/
theorem takeDimByte_dimAt {k : Nat} {b : Byte} (hge : 8 ≤ k) (hb : bs[k]? = some b) :
    takeDimByte k b { dimAt op s bs k with inFifo := s.inFifo.drop (k + 1) } = dimAt op s bs (k + 1) := by
  simp [dimAt, takeDimByte, dimBufAfter_succ hge hb, BitVec.ofNat_add]

/-- One dimension byte before the last (R137). -/
theorem step_dimAt (ha : s.agenda = []) (hbs : leadBytes s.inFifo = bs) {k : Nat} (hge : 8 ≤ k) (hlt : k < 11)
    (hlen : k < bs.length) : step (dimAt op s bs k) = .next (dimAt op s bs (k + 1)) := by
  subst hbs
  obtain ⟨b, hb⟩ : ∃ b, (leadBytes s.inFifo)[k]? = some b := ⟨_, List.getElem?_eq_getElem hlen⟩
  have hpos : (dimAt op s (leadBytes s.inFifo) k).inPos.toNat = k := by simp [dimAt]; omega
  rw [step_codec (s := dimAt op s (leadBytes s.inFifo) k) ha, codecStep_dim rfl rfl,
    dimStep_byte (s := dimAt op s (leadBytes s.inFifo) k) (drop_of_leadBytes hb) (hpos.symm ▸ hge)
      (hpos.symm ▸ hlt), hpos, takeDimByte_dimAt hge hb]

/-- The last dimension byte, and the color-model resolution (R137, R138, R150). -/
theorem step_dimAt_last (ha : s.agenda = []) (hbs : leadBytes s.inFifo = bs) (hlen : 11 < bs.length) :
    step (dimAt op s bs 11) = .next (resolutionOf (bs.getD 7 0) (headerTaken op s bs)) := by
  subst hbs
  obtain ⟨b, hb⟩ : ∃ b, (leadBytes s.inFifo)[11]? = some b := ⟨_, List.getElem?_eq_getElem hlen⟩
  have hdims : assembleDims (dimAt op s (leadBytes s.inFifo) 12) = headerTaken op s (leadBytes s.inFifo) := by
    simp [assembleDims, headerTaken, dimAt, dimBufAfter_twelve]
  rw [step_codec (s := dimAt op s (leadBytes s.inFifo) 11) ha, codecStep_dim rfl rfl,
    dimStep_last (s := dimAt op s (leadBytes s.inFifo) 11) (drop_of_leadBytes hb) rfl,
    takeDimByte_dimAt (by decide) hb, hdims, exec_decodeModeByte]
  exact actModeByte_resolve (by simp [State.atResolution, headerTaken, dimAt])

/-! ### The phase PAL -/

/-- A decode that began in `s`, in the PAL phase with `j` palette bytes taken, EB and the palette file as
given (R152). -/
def palAt (op : CurOp) (s : State) (bs : List Byte) (j : Nat) (eb : Vector Byte 3) (p : Vector Color8 256) : State :=
  { headerTaken op s bs with
    phase := .pal
    inFifo := s.inFifo.drop (12 + j)
    inPos := BitVec.ofNat 64 (12 + j)
    eb := eb
    palette := p }

/-- EB and the palette file hold the first `j` palette bytes of the stream (R76, R152). -/
def PaletteTaken (bs : List Byte) (j : Nat) (eb : Vector Byte 3) (p : Vector Color8 256) : Prop :=
  (∀ i : Fin 3, i.val < j % 4 → eb[i] = bs.getD (12 + 4 * (j / 4) + i.val) 0) ∧
  (∀ k : Fin 256, k.val < j / 4 → p[k] = streamColor bs k)

/-- One more palette byte (R152): it goes to EB, or with EB makes the next entry. -/
theorem PaletteTaken.succ {t : State} {j : Nat} {b : Byte} (h : PaletteTaken bs j t.eb t.palette)
    (hb : bs[12 + j]? = some b) :
    PaletteTaken bs (j + 1) (takePalByte j b t).eb (takePalByte j b t).palette := by
  obtain ⟨heb, hpal⟩ := h
  have hget : bs.getD (12 + j) 0 = b := by rw [List.getD_eq_getElem?_getD, hb]; rfl
  refine ⟨fun i hi => ?_, fun k hk => ?_⟩
  · have hmod : (j + 1) % 4 = j % 4 + 1 := by omega
    have hdiv : (j + 1) / 4 = j / 4 := by omega
    rw [takePalByte_getElem_eb, hdiv]
    by_cases hi' : j % 4 = i.val
    · have hoff : 12 + 4 * (j / 4) + i.val = 12 + j := by omega
      rw [if_pos hi', hoff, hget]
    · rw [if_neg hi']
      exact heb i (by omega)
  · rw [takePalByte_getElem_palette]
    by_cases hlast : j % 4 = 3 ∧ k.val = j / 4
    · have hoff : 15 + 4 * k.val = 12 + j := by omega
      have h0 : t.eb[0] = bs.getD (12 + 4 * k.val) 0 := hlast.2 ▸ heb 0 (by rw [hlast.1]; decide)
      have h1 : t.eb[1] = bs.getD (12 + 4 * k.val + 1) 0 := hlast.2 ▸ heb 1 (by rw [hlast.1]; decide)
      have h2 : t.eb[2] = bs.getD (12 + 4 * k.val + 2) 0 := hlast.2 ▸ heb 2 (by rw [hlast.1]; decide)
      have hoff1 : 13 + 4 * k.val = 12 + 4 * k.val + 1 := by omega
      have hoff2 : 14 + 4 * k.val = 12 + 4 * k.val + 2 := by omega
      rw [if_pos hlast, streamColor, hoff, hget, hoff1, hoff2, h0, h1, h2]
      rfl
    · rw [if_neg hlast]
      exact hpal k (by omega)

/-- What a palette byte does to the state (R152). -/
theorem takePalByte_palAt (j : Nat) (b : Byte) (eb : Vector Byte 3) (p : Vector Color8 256) :
    takePalByte j b { palAt op s bs j eb p with inFifo := s.inFifo.drop (12 + j + 1) } =
      palAt op s bs (j + 1)
        (takePalByte j b { palAt op s bs j eb p with inFifo := s.inFifo.drop (12 + j + 1) }).eb
        (takePalByte j b { palAt op s bs j eb p with inFifo := s.inFifo.drop (12 + j + 1) }).palette := by
  rw [takePalByte_frame]
  simp [palAt, BitVec.ofNat_add, add_assoc]

/-- One palette byte, and after the last the end of the configuration (R152, R154). -/
theorem step_palAt (ha : s.agenda = []) (hbs : leadBytes s.inFifo = bs) {d : Depth}
    (hd : depthOf (modeDC (bs.getD 7 0)) = some d) {j : Nat} (hj : j < 4 * d.palSize) (hlen : 12 + j < bs.length)
    {eb : Vector Byte 3} {p : Vector Color8 256} (h : PaletteTaken bs j eb p) :
    ∃ eb' p', PaletteTaken bs (j + 1) eb' p' ∧ step (palAt op s bs j eb p) = .next (
      if j + 1 = 4 * d.palSize then
        cfgDone { palAt op s bs (j + 1) eb' p' with palLen := BitVec.ofNat 9 d.palSize }
      else palAt op s bs (j + 1) eb' p') := by
  subst hbs
  obtain ⟨b, hb⟩ : ∃ b, (leadBytes s.inFifo)[12 + j]? = some b := ⟨_, List.getElem?_eq_getElem hlen⟩
  have hN : d.palSize ≤ 256 := by cases d <;> decide
  have hpos : (palAt op s (leadBytes s.inFifo) j eb p).inPos.toNat = 12 + j := by simp [palAt]; omega
  refine ⟨_, _, PaletteTaken.succ (t := { palAt op s (leadBytes s.inFifo) j eb p with
    inFifo := s.inFifo.drop (12 + j + 1) }) h hb, ?_⟩
  rw [step_codec (s := palAt op s (leadBytes s.inFifo) j eb p) ha, codecStep_pal rfl rfl,
    palStep_byte (s := palAt op s (leadBytes s.inFifo) j eb p) hd hpos hj (drop_of_leadBytes hb),
    ← takePalByte_palAt]

/-- The palette bytes before the last (R152). -/
theorem palAt_run (ha : s.agenda = []) (hbs : leadBytes s.inFifo = bs) {d : Depth}
    (hd : depthOf (modeDC (bs.getD 7 0)) = some d) (eb : Vector Byte 3) (p : Vector Color8 256) {j : Nat}
    (hj : j < 4 * d.palSize) (hlen : 12 + j ≤ bs.length) :
    ∃ eb' p', PaletteTaken bs j eb' p' ∧ stepsTo j (palAt op s bs 0 eb p) = .next (palAt op s bs j eb' p') := by
  induction j with
  | zero => exact ⟨eb, p, ⟨fun i hi => by omega, fun k hk => by omega⟩, rfl⟩
  | succ j ih =>
    obtain ⟨eb', p', htaken, hrun⟩ := ih (by omega) (by omega)
    obtain ⟨eb'', p'', htaken', hstep⟩ := step_palAt ha hbs hd (by omega) (by omega) htaken
    rw [if_neg (by omega)] at hstep
    exact ⟨eb'', p'', htaken', stepsTo_trans hrun (stepsTo_succ 0 hstep)⟩

end

end Sys2Proof.Machine
end

section
/-! PROOFS. The configuration of a decode ends as its closed form says (41_header_codec.md R141): one lemma
for each way to end. -/

namespace Sys2Proof.Machine

section
variable {op : CurOp} {s : State} {bs : List Byte}

/-- The signature bytes before the mode byte (R133). -/
theorem hdrAt_run (ha : s.agenda = []) (hbs : leadBytes s.inFifo = bs) {k : Nat} (hk : k ≤ 7)
    (hlen : k ≤ bs.length) : stepsTo k (startDecode op s) = .next (hdrAt op s bs k) :=
  stepsTo_of_steps (f := hdrAt op s bs) fun _ hj => step_hdrAt ha hbs (by omega) (by omega)

/-- A stream that ends in the signature (R139). -/
theorem configRun_hdr_short (ha : s.agenda = []) (hdec : op.isDecode = true) (hbs : leadBytes s.inFifo = bs)
    (hlen : bs.length < 8) :
    ConfigRun (startDecode op s) s.inFifo (startDecode op s) (endsShort s.inFifo .hdr) := by
  subst hbs
  have hle : (hdrAt op s (leadBytes s.inFifo) (leadBytes s.inFifo).length).inPos.toNat ≤ 7 := by
    simp [hdrAt]; omega
  refine (configRun_endsShort (t := hdrAt op s (leadBytes s.inFifo) (leadBytes s.inFifo).length) ha rfl
    (.inl rfl) hdec rfl rfl fun rest hf => ?_).after (hdrAt_run ha rfl (by omega) le_rfl)
  rw [step_codec (s := hdrAt op s _ _) ha, codecStep_hdr rfl rfl, hdrStep_eos hf hle]

/-- A signature that differs is reported at the mode byte (R134). -/
theorem configRun_mismatch (ha : s.agenda = []) (hdec : op.isDecode = true) (hbs : leadBytes s.inFifo = bs)
    (hlen : 8 ≤ bs.length) {m : Nat} (hm : firstMismatch bs = some m) :
    ConfigRun (startDecode op s) s.inFifo (startDecode op s) (.error .signatureMismatch m .hdr 8) := by
  have hlt : m < 7 := List.mem_range.1 (List.mem_of_find?_eq_some hm)
  have hsig : sigMissAfter bs 7 = BitVec.ofNat 3 m := by rw [sigMissAfter_seven, hm]; rfl
  have hne : sigMissAfter bs 7 ≠ 7 := by rw [hsig]; bv_omega
  have hinfo : (sigMissAfter bs 7).setWidth 32 = BitVec.ofNat 32 m := by
    rw [hsig]; apply BitVec.eq_of_toNat_eq; simp; omega
  have hstep := step_hdrAt_mode (op := op) ha hbs (by omega)
  rw [takeModeByte_mismatch (s := { hdrAt op s bs 7 with inFifo := s.inFifo.drop 8 }) hne] at hstep
  refine ConfigRun.after (hdrAt_run ha hbs le_rfl (by omega)) ⟨1, _, stepsTo_succ 0 hstep, ?_⟩
  exact hinfo ▸ DecodeEndedInError.of_raise (t := { hdrAt op s bs 7 with inFifo := s.inFifo.drop 8, inPos := 8 })
    _ _ hdec

/-- A signature that agrees: the mode byte is taken, and the DIM phase begins (R134, R135). -/
theorem configRun_signature (ha : s.agenda = []) (hbs : leadBytes s.inFifo = bs)
    (hlen : 8 ≤ bs.length) (hm : firstMismatch bs = none) :
    stepsTo 8 (startDecode op s) = .next (dimAt op s bs 8) := by
  have hsig : sigMissAfter bs 7 = 7 := by rw [sigMissAfter_seven, hm]; rfl
  have hbuf : dimBufAfter bs 8 = (startDecode op s).dimBuf := by
    ext i hi
    simp [dimBufAfter, startDecode]
  have hstep := step_hdrAt_mode (op := op) ha hbs (by omega)
  rw [takeModeByte_match (s := { hdrAt op s bs 7 with inFifo := s.inFifo.drop 8 }) hsig] at hstep
  refine (stepsTo_trans (hdrAt_run ha hbs le_rfl (by omega)) (stepsTo_succ 0 hstep)).trans ?_
  simp [hdrAt, dimAt, hsig, hbuf]

/-- The dimension bytes before the last (R137). -/
theorem dimAt_run (ha : s.agenda = []) (hbs : leadBytes s.inFifo = bs) {j : Nat} (hj : j ≤ 3)
    (hlen : 8 + j ≤ bs.length) : stepsTo j (dimAt op s bs 8) = .next (dimAt op s bs (8 + j)) :=
  stepsTo_of_steps (f := fun i => dimAt op s bs (8 + i)) fun _ hi =>
    step_dimAt ha hbs (by omega) (by omega) (by omega)

/-- A stream that ends in the dimensions (R139). -/
theorem configRun_dim_short (ha : s.agenda = []) (hdec : op.isDecode = true) (hbs : leadBytes s.inFifo = bs)
    (hge : 8 ≤ bs.length) (hlt : bs.length < 12) :
    ConfigRun (startDecode op s) s.inFifo (dimAt op s bs 8) (endsShort s.inFifo .dim) := by
  subst hbs
  obtain ⟨j, hj⟩ := Nat.exists_eq_add_of_le hge
  have hpos : (dimAt op s (leadBytes s.inFifo) (leadBytes s.inFifo).length).inPos.toNat =
      (leadBytes s.inFifo).length := by simp [dimAt]; omega
  have hrun := dimAt_run (op := op) (j := j) ha rfl (by omega) hj.ge
  rw [← hj] at hrun
  refine (configRun_endsShort (t := dimAt op s (leadBytes s.inFifo) (leadBytes s.inFifo).length) ha rfl
    (.inr (.inl rfl)) hdec rfl rfl fun rest hf => ?_).after hrun
  rw [step_codec (s := dimAt op s _ _) ha, codecStep_dim rfl rfl, dimStep_eos hf (by omega) (by omega)]

/-- The dimensions, to the color-model resolution (R137, R138). -/
theorem dimAt_resolve (ha : s.agenda = []) (hbs : leadBytes s.inFifo = bs) (hlen : 12 ≤ bs.length) :
    stepsTo 4 (dimAt op s bs 8) = .next (resolutionOf (bs.getD 7 0) (headerTaken op s bs)) :=
  stepsTo_trans (dimAt_run (j := 3) ha hbs le_rfl (by omega)) (stepsTo_succ 0 (step_dimAt_last ha hbs (by omega)))

/-- The depth code 11 (R150). -/
theorem configRun_bad (ha : s.agenda = []) (hdec : op.isDecode = true) (hbs : leadBytes s.inFifo = bs)
    (hlen : 12 ≤ bs.length) (hd : depthOf (modeDC (bs.getD 7 0)) = none) :
    ConfigRun (startDecode op s) s.inFifo (dimAt op s bs 8) (.error .unsupportedBitDepth 3 .dim 12) := by
  have hresolve : resolutionOf (bs.getD 7 0) (headerTaken op s bs) =
      raise .unsupportedBitDepth (BitVec.ofNat 32 3) (headerTaken op s bs) := by
    rw [resolutionOf, hd]
    rfl
  exact ⟨4, _, (dimAt_resolve ha hbs hlen).trans (congrArg _ hresolve),
    DecodeEndedInError.of_raise (t := headerTaken op s bs) _ _ hdec⟩

/-- No palette in the file: the built-in one (R151). -/
theorem configRun_builtin (ha : s.agenda = []) (herr : s.err = false) (hbs : leadBytes s.inFifo = bs)
    (hlen : 12 ≤ bs.length) {d : Depth} (hd : depthOf (modeDC (bs.getD 7 0)) = some d)
    (hpf : modePF (bs.getD 7 0) = false) :
    ConfigRun (startDecode op s) s.inFifo (dimAt op s bs 8) (.ok ⟨bs.getD 7 0,
      dimWidth s.cfg.dimOrder (streamDims bs), dimHeight s.cfg.dimOrder (streamDims bs), d,
      (List.range d.palSize).map fun k => rom d (BitVec.ofNat 8 k), 12⟩) := by
  have hresolve := resolutionOf_builtin hd hpf (headerTaken op s bs)
  refine ⟨4, _, (dimAt_resolve ha hbs hlen).trans (congrArg _ hresolve), ?_⟩
  refine ⟨ha, rfl, rfl, rfl, herr, rfl, rfl, rfl, rfl, ?_, fun j hj => ?_, rfl, rfl, rfl,
    show 12 ≤ 1036 by decide⟩
  · simpa using palSize_toNat d
  · have hlt : j.val < d.palSize := by simpa using hj
    have hentry := builtinInto_getElem d (headerTaken op s bs).palette j
    rw [if_pos hlt] at hentry
    simp only [List.getElem?_map, List.getElem?_range hlt, Option.map_some]
    exact congrArg some hentry.symm

/-- An in-file palette, to its first byte (R150). -/
theorem dimAt_palAt (ha : s.agenda = []) (hbs : leadBytes s.inFifo = bs) (hlen : 12 ≤ bs.length) {d : Depth}
    (hd : depthOf (modeDC (bs.getD 7 0)) = some d) (hpf : modePF (bs.getD 7 0) = true) :
    stepsTo 4 (dimAt op s bs 8) =
      .next (palAt op s bs 0 (startDecode op s).eb (startDecode op s).palette) :=
  (dimAt_resolve ha hbs hlen).trans (congrArg _ (resolutionOf_pal hd hpf _))

/-- A stream that ends in the palette (R152). -/
theorem configRun_pal_short (ha : s.agenda = []) (hdec : op.isDecode = true) (hbs : leadBytes s.inFifo = bs)
    {d : Depth} (hd : depthOf (modeDC (bs.getD 7 0)) = some d) (hpf : modePF (bs.getD 7 0) = true)
    (hge : 12 ≤ bs.length) (hlt : bs.length < 12 + 4 * d.palSize) :
    ConfigRun (startDecode op s) s.inFifo (dimAt op s bs 8) (endsShort s.inFifo .pal) := by
  subst hbs
  obtain ⟨j, hj⟩ := Nat.exists_eq_add_of_le hge
  have hN : d.palSize ≤ 256 := by cases d <;> decide
  obtain ⟨eb, p, -, hrun⟩ := palAt_run (op := op) ha rfl hd (startDecode op s).eb (startDecode op s).palette
    (j := j) (by omega) hj.ge
  have hpos : (palAt op s (leadBytes s.inFifo) j eb p).inPos.toNat = 12 + j := by
    simp [palAt]; omega
  have hf : (palAt op s (leadBytes s.inFifo) j eb p).inFifo = s.inFifo.drop (leadBytes s.inFifo).length :=
    congrArg s.inFifo.drop hj.symm
  have hin : (palAt op s (leadBytes s.inFifo) j eb p).inPos = BitVec.ofNat 64 (leadBytes s.inFifo).length :=
    congrArg (BitVec.ofNat 64) hj.symm
  have heos : ∀ rest, (palAt op s (leadBytes s.inFifo) j eb p).inFifo = .eos :: rest →
      step (palAt op s (leadBytes s.inFifo) j eb p) = .next (raise .truncatedInput
        (posInfo (palAt op s (leadBytes s.inFifo) j eb p).inPos)
        { palAt op s (leadBytes s.inFifo) j eb p with inFifo := rest }) := fun rest hf => by
    rw [step_codec (s := palAt op s _ _ _ _) ha, codecStep_pal rfl rfl,
      palStep_eos (s := palAt op s _ _ _ _) hd (by omega) (by omega) hf]
  have hshort := configRun_endsShort (u := startDecode op s) (t := palAt op s (leadBytes s.inFifo) j eb p) ha rfl
    (.inr (.inr rfl)) hdec hf hin heos
  exact hshort.after (stepsTo_trans (dimAt_palAt ha rfl hge hd hpf) hrun)

/-- An in-file palette that is complete (R152, R154). -/
theorem configRun_pal (ha : s.agenda = []) (herr : s.err = false) (hbs : leadBytes s.inFifo = bs)
    {d : Depth} (hd : depthOf (modeDC (bs.getD 7 0)) = some d) (hpf : modePF (bs.getD 7 0) = true)
    (hlen : 12 + 4 * d.palSize ≤ bs.length) :
    ConfigRun (startDecode op s) s.inFifo (dimAt op s bs 8) (.ok ⟨bs.getD 7 0,
      dimWidth s.cfg.dimOrder (streamDims bs), dimHeight s.cfg.dimOrder (streamDims bs), d,
      (List.range d.palSize).map (streamColor bs), 12 + 4 * d.palSize⟩) := by
  have hN : 0 < d.palSize ∧ d.palSize ≤ 256 := by cases d <;> decide
  obtain ⟨eb, p, htaken, hrun⟩ := palAt_run (op := op) ha hbs hd (startDecode op s).eb (startDecode op s).palette
    (j := 4 * d.palSize - 1) (by omega) (by omega)
  obtain ⟨eb', p', ⟨-, hpal⟩, hlast⟩ := step_palAt ha hbs hd (by omega) (by omega) htaken
  have hcount : 4 * d.palSize - 1 + 1 = 4 * d.palSize := by omega
  rw [hcount] at hpal hlast
  rw [if_pos rfl] at hlast
  refine ConfigRun.after (dimAt_palAt ha hbs (by omega) hd hpf)
    ⟨_, _, stepsTo_trans hrun (stepsTo_succ 0 hlast), ?_⟩
  refine ⟨ha, rfl, rfl, rfl, herr, rfl, rfl, rfl, rfl, ?_, fun j hj => ?_, ?_, rfl, rfl, ?_⟩
  · simpa using palSize_toNat d
  · have hlt : j.val < d.palSize := by simpa using hj
    have hentry := hpal j (by omega)
    simp only [List.getElem?_map, List.getElem?_range hlt, Option.map_some]
    exact congrArg some hentry.symm
  · simp [palAt]; omega
  · show 12 + 4 * d.palSize ≤ 1036
    omega

/-- Every decode reads its configuration as `decodeConfig` says of the items in IN (R141). -/
theorem configRun (ha : s.agenda = []) (hdec : op.isDecode = true) (herr : s.err = false) :
    ConfigRun (startDecode op s) s.inFifo (startDecode op s) (decodeConfig s.cfg.dimOrder s.inFifo) := by
  unfold decodeConfig
  by_cases h8 : (leadBytes s.inFifo).length < 8
  · rw [if_pos h8]
    exact configRun_hdr_short ha hdec rfl h8
  rw [if_neg h8]
  have hge8 := not_lt.1 h8
  cases hm : firstMismatch (leadBytes s.inFifo) with
  | some m => exact configRun_mismatch ha hdec rfl hge8 hm
  | none =>
    refine ConfigRun.after (configRun_signature ha rfl hge8 hm) ?_
    by_cases h12 : (leadBytes s.inFifo).length < 12
    · simp only [if_pos h12]
      exact configRun_dim_short ha hdec rfl hge8 h12
    simp only [if_neg h12]
    have hge12 := not_lt.1 h12
    cases hd : depthOf (modeDC ((leadBytes s.inFifo).getD 7 0)) with
    | none => exact configRun_bad ha hdec rfl hge12 hd
    | some d =>
      cases hpf : modePF ((leadBytes s.inFifo).getD 7 0) with
      | false => exact configRun_builtin ha herr rfl hge12 hd hpf
      | true =>
        by_cases hpal : (leadBytes s.inFifo).length < 12 + 4 * d.palSize
        · simp only [if_true, if_pos hpal]
          exact configRun_pal_short ha hdec rfl hd hpf hge12 hpal
        · simp only [if_true, if_neg hpal]
          exact configRun_pal ha herr rfl hd hpf (not_lt.1 hpal)

end

end Sys2Proof.Machine

namespace Sys2Proof.Proofs

open Sys2Proof.Machine

/-- Settles O54: the accepted DEC_CFG reads its configuration, and completes with it. -/
theorem decCfgRunsAsClosedForm : Obligations.DecCfgRunsAsClosedForm := by
  intro s u ha hu
  obtain rfl := exec_decCfg_cases hu
  have hrun := configRun (op := .decCfg) (s := accept (commandWord 0x1 0 false false 0) s) ha rfl rfl
  simp only [accept_cfg, accept_inFifo] at hrun
  cases hcfg : decodeConfig s.cfg.dimOrder s.inFifo with
  | waits => rwa [hcfg] at hrun
  | error kind info stage n => rwa [hcfg] at hrun
  | ok c =>
    rw [hcfg] at hrun
    obtain ⟨k, v, hk, hv⟩ := hrun
    rw [cfgDone_decCfg hv.curOp] at hk
    exact ⟨k, _, hk, rfl, hv.err, rfl, hv.planeValid, hv.mode, hv.width, hv.height, hv.palLen, hv.colors,
      hv.inPos, hv.planeLen, hv.inFifo⟩

end Sys2Proof.Proofs
end

section
/-! PROOFS. DEC_FULL run by the step rules ends as its closed form says (41_header_codec.md R141,
43_pixel_plane.md R170 to R172): the plane, after the configuration. -/

namespace Sys2Proof.Machine

/-- Counting one and then `n` more. -/
theorem add_one_add_ofNat {w : Nat} (x : BitVec w) (n : Nat) :
    x + 1 + BitVec.ofNat w n = x + BitVec.ofNat w (n + 1) := by
  rw [BitVec.ofNat_add, add_assoc, add_comm 1]
  rfl

/-- The decode `v` after `n` more plane bytes, with `rest` left in IN and `m` in PLANE (R170). -/
def planeTaken (v : State) (n : Nat) (rest : List InItem) (m : Memory) : State :=
  { v with
    inFifo := rest
    inPos := v.inPos + BitVec.ofNat 64 n
    planeLen := v.planeLen + BitVec.ofNat 32 n
    plane := m }

/-- Plane bytes that fit are captured one after the other from PLANE_LEN on, and what lies below it stays (R170). -/
theorem plane_run {bytes : List Byte} {rest : List InItem} {v : State} (ha : v.agenda = []) (hb : v.busy = true)
    (hp : v.phase = .plane) (hf : v.inFifo = bytes.map .byte ++ rest)
    (hfit : v.planeLen.toNat + bytes.length ≤ v.cfg.planeCap.toNat) :
    ∃ m : Memory, (∀ i, i < v.planeLen.toNat → m.read i = v.plane.read i) ∧
      (∀ i, i < bytes.length → m.read (v.planeLen.toNat + i) = bytes[i]?) ∧
      stepsTo bytes.length v = .next (planeTaken v bytes.length rest m) := by
  induction bytes generalizing v with
  | nil =>
    refine ⟨v.plane, fun _ _ => rfl, fun i hi => absurd hi (Nat.not_lt_zero i), ?_⟩
    have hrest : v.inFifo = rest := hf
    simp [planeTaken, ← hrest]
  | cons b bytes ih =>
    have hlen : v.planeLen.toNat + (bytes.length + 1) ≤ v.cfg.planeCap.toNat := hfit
    have hcap := v.cfg.planeCap.isLt
    have hhead : v.inFifo = .byte b :: (bytes.map .byte ++ rest) := hf
    have hstep := (step_plane ha hb hp).trans (planeStep_byte_below hhead (by omega))
    have hnext : (v.planeLen + 1).toNat = v.planeLen.toNat + 1 := by bv_omega
    obtain ⟨m, hbelow, hbytes, hrun⟩ := ih (v := { v with
      inFifo := bytes.map .byte ++ rest, inPos := v.inPos + 1, planeLen := v.planeLen + 1
      plane := v.plane.write v.planeLen.toNat b }) ha hb hp rfl (by simp only [hnext]; omega)
    simp only [hnext] at hbelow hbytes
    refine ⟨m, fun i hi => ?_, fun i hi => ?_, ?_⟩
    · rw [hbelow i (by omega), Memory.read_write_other _ _ _ _ (by omega)]
    · cases i with
      | zero => rw [Nat.add_zero, hbelow _ (by omega), Memory.read_write_same]; rfl
      | succ i =>
        have hoff : v.planeLen.toNat + (i + 1) = v.planeLen.toNat + 1 + i := by omega
        rw [hoff, hbytes i (by simpa using hi)]; rfl
    · rw [List.length_cons, stepsTo_succ _ hstep, hrun]
      simp only [planeTaken, add_one_add_ofNat]

/-- The first items of IN are its leading bytes. -/
theorem eq_take_leadBytes_append {items : List InItem} {n : Nat} (h : n ≤ (leadBytes items).length) :
    items = ((leadBytes items).take n).map .byte ++ items.drop n := by
  induction items generalizing n with
  | nil => simp [leadBytes]
  | cons x items ih =>
    cases n with
    | zero => rfl
    | succ n =>
      cases x with
      | eos => exact absurd h (Nat.not_succ_le_zero n)
      | byte b => exact congrArg (InItem.byte b :: ·) (ih (Nat.le_of_succ_le_succ h))

section
variable {v : State} (ha : v.agenda = []) (hb : v.busy = true) (hp : v.phase = .plane) (h0 : v.planeLen = 0)
include ha hb hp h0

/-- From an empty PLANE, the first `n` bytes left in IN (R170). -/
theorem plane_take {n : Nat} (hn : n ≤ (leadBytes v.inFifo).length) (hfit : n ≤ v.cfg.planeCap.toNat) :
    ∃ m : Memory, (∀ i, i < n → m.read i = (leadBytes v.inFifo)[i]?) ∧
      stepsTo n v = .next (planeTaken v n (v.inFifo.drop n) m) := by
  have hlen : ((leadBytes v.inFifo).take n).length = n := List.length_take_of_le hn
  have hzero : v.planeLen.toNat = 0 := by rw [h0]; rfl
  obtain ⟨m, -, hbytes, hrun⟩ := plane_run ha hb hp (eq_take_leadBytes_append hn) (by omega)
  rw [hlen] at hbytes hrun
  refine ⟨m, fun i hi => ?_, hrun⟩
  have hbyte := hbytes i hi
  rwa [hzero, Nat.zero_add, List.getElem?_take_of_lt hi] at hbyte

/-- More bytes than PLANE holds (R171). -/
theorem plane_overflows (hdec : v.curOp.isDecode = true)
    (hlt : v.cfg.planeCap.toNat < (leadBytes v.inFifo).length) : ∃ k t, stepsTo k v = .next t ∧
      DecodeEndedInError t .planeOverflow v.cfg.planeCap.toNat .plane
        (v.inFifo.drop (v.cfg.planeCap.toNat + 1)) := by
  obtain ⟨m, -, hrun⟩ := plane_take ha hb hp h0 hlt.le le_rfl
  have hfull : v.planeLen + BitVec.ofNat 32 v.cfg.planeCap.toNat = v.cfg.planeCap := by simp [h0]
  have hstep := (step_plane (s := planeTaken v v.cfg.planeCap.toNat _ m) ha hb hp).trans
    (planeStep_byte_full (drop_of_leadBytes (List.getElem?_eq_getElem hlt)) hfull)
  have hend := DecodeEndedInError.of_raise (t := { planeTaken v v.cfg.planeCap.toNat
    (v.inFifo.drop (v.cfg.planeCap.toNat + 1)) m with
      inPos := v.inPos + BitVec.ofNat 64 v.cfg.planeCap.toNat + 1 }) .planeOverflow v.cfg.planeCap.toNat hdec
  rw [BitVec.ofNat_toNat, BitVec.setWidth_eq] at hend
  exact ⟨_, _, stepsTo_trans hrun (stepsTo_succ 0 hstep), hp ▸ hend⟩

/-- An `Eos` after the bytes that fit (R172). -/
theorem plane_finishes (hfit : (leadBytes v.inFifo).length ≤ v.cfg.planeCap.toNat)
    (hlt : (leadBytes v.inFifo).length < v.inFifo.length) : ∃ k m,
      (∀ i, i < (leadBytes v.inFifo).length → m.read i = (leadBytes v.inFifo)[i]?) ∧
      stepsTo k v = .next (planeFinish (planeTaken v (leadBytes v.inFifo).length
        (v.inFifo.drop ((leadBytes v.inFifo).length + 1)) m)) := by
  obtain ⟨m, hbytes, hrun⟩ := plane_take ha hb hp h0 le_rfl hfit
  obtain ⟨rest, hrest⟩ := (drop_leadBytes_length v.inFifo).resolve_left
    fun hnil => absurd (List.drop_eq_nil_iff.1 hnil) (by omega)
  have hlater : rest = v.inFifo.drop ((leadBytes v.inFifo).length + 1) := by
    rw [← List.drop_drop, hrest]; rfl
  have hstep := (step_plane (s := planeTaken v (leadBytes v.inFifo).length
    (v.inFifo.drop (leadBytes v.inFifo).length) m) ha hb hp).trans (planeStep_eos hrest)
  rw [← hlater]
  exact ⟨_, m, hbytes, stepsTo_trans hrun (stepsTo_succ 0 hstep)⟩

/-- No `Eos` after the bytes that fit (R255). -/
theorem plane_hangs (hfit : (leadBytes v.inFifo).length ≤ v.cfg.planeCap.toNat)
    (hge : v.inFifo.length ≤ (leadBytes v.inFifo).length) : ∃ k t, stepsTo k v = .next t ∧ t.Hung := by
  obtain ⟨m, -, hrun⟩ := plane_take ha hb hp h0 le_rfl hfit
  exact ⟨_, _, hrun, ⟨hb, .inl ⟨List.drop_eq_nil_of_le hge, .inr (.inr (.inr hp))⟩⟩, ha⟩

end

/-- The decode has completed with the configuration `c` and the plane `p`: `rest` is left in IN. -/
def DecodeEndedWithPlane (t : State) (c : ConfigResult) (p : List Byte) (rest : List InItem) : Prop :=
  t.busy = false ∧ t.err = false ∧ t.cfgValid = true ∧ t.planeValid = true ∧ t.mode = c.mode ∧
    t.width = c.width ∧ t.height = c.height ∧ t.palLen.toNat = c.colors.length ∧
    (∀ j : Fin 256, j.val < c.colors.length → c.colors[j.val]? = some t.palette[j]) ∧
    t.inPos.toNat = c.used + p.length ∧ t.planeLen.toNat = p.length ∧
    (∀ a, a < p.length → t.plane.read a = p[a]?) ∧ t.inFifo = rest

/-- The configuration is read and the plane taken: the decode completes with both (R172). The counters
do not wrap. -/
theorem ConfigRead.planeFinish_planeTaken {u v : State} {c : ConfigResult} {items : List InItem} {p : List Byte}
    {m : Memory} (hv : ConfigRead u v c items) (hsmall : p.length < 2 ^ 32)
    (hbytes : ∀ i, i < p.length → m.read i = p[i]?) (rest : List InItem) :
    DecodeEndedWithPlane (planeFinish (planeTaken { v with phase := .plane, inFifo := items } p.length rest m))
      c p rest := by
  have hinPos := hv.inPos
  have hused := hv.used
  refine ⟨rfl, hv.err, rfl, rfl, hv.mode, hv.width, hv.height, hv.palLen, hv.colors, ?_, ?_, hbytes, rfl⟩
  · show (v.inPos + BitVec.ofNat 64 p.length).toNat = _
    rw [BitVec.toNat_add, BitVec.toNat_ofNat]
    omega
  · show (v.planeLen + BitVec.ofNat 32 p.length).toNat = _
    rw [hv.planeLen, zero_add, BitVec.toNat_ofNat, Nat.mod_eq_of_lt hsmall]

end Sys2Proof.Machine

namespace Sys2Proof.Proofs

open Sys2Proof.Machine

/-- Settles O55: the accepted DEC_FULL reads its configuration, then the plane. -/
theorem decFullRunsAsClosedForm : Obligations.DecFullRunsAsClosedForm := by
  intro s u ha hu
  obtain rfl := exec_decFull_cases hu
  have hrun := configRun (op := .decFull) (s := accept (commandWord 0x2 0 false false 0) s) ha rfl rfl
  simp only [accept_cfg, accept_inFifo] at hrun
  unfold decodeFull
  cases hcfg : decodeConfig s.cfg.dimOrder s.inFifo with
  | waits => rwa [hcfg] at hrun
  | error kind info stage n => rwa [hcfg] at hrun
  | ok c =>
    rw [hcfg] at hrun
    obtain ⟨k, v, hk, hv⟩ := hrun
    rw [cfgDone_decFull hv.curOp] at hk
    have hcap : v.cfg.planeCap = s.cfg.planeCap := congrArg _ hv.cfg
    have hover := plane_overflows (v := { v with phase := .plane }) hv.agenda hv.busy rfl hv.planeLen
      (isDecode_of (.inr hv.curOp))
    have hfinish := plane_finishes (v := { v with phase := .plane }) hv.agenda hv.busy rfl hv.planeLen
    have hhang := plane_hangs (v := { v with phase := .plane }) hv.agenda hv.busy rfl hv.planeLen
    simp only [hv.inFifo] at hk
    simp only [hcap, hv.inFifo, List.drop_drop] at hover hfinish hhang
    by_cases hlt : s.cfg.planeCap.toNat < (leadBytes (s.inFifo.drop c.used)).length
    · simp only [if_pos hlt]
      obtain ⟨k', t, hk', ht⟩ := hover hlt
      exact ⟨k + k', t, stepsTo_trans hk hk', ht⟩
    have hfit := not_lt.1 hlt
    by_cases heos : (leadBytes (s.inFifo.drop c.used)).length < (s.inFifo.drop c.used).length
    · simp only [if_neg hlt, if_pos heos]
      obtain ⟨k', m, hbytes, hk'⟩ := hfinish hfit heos
      exact ⟨k + k', _, stepsTo_trans hk hk', hv.planeFinish_planeTaken (hfit.trans_lt s.cfg.planeCap.isLt) hbytes _⟩
    · simp only [if_neg hlt, if_neg heos]
      obtain ⟨k', t, hk', ht⟩ := hhang hfit (not_lt.1 heos)
      exact ⟨k + k', t, stepsTo_trans hk hk', ht⟩

end Sys2Proof.Proofs
end
